-- ==== Sys2Proof/Word.lean ====
section
/-! DEFINITION. The word types of the block: every value is an unsigned integer of a stated width (spec/00_scope.md R12). -/

namespace Sys2Proof

/-- One byte: a data item, a count register, a response value (spec/20_memory.md R67, R69). -/
abbrev Byte := BitVec 8

/-- A command word `cmd` (spec/30_encoding.md R90, R91). -/
abbrev Cmd := BitVec 16

/-- A `PW`-bit ring pointer or its gray image; `PW ≤ 8`, and the bits at and above `PW` are zero (spec/10_state.md R30;
DESIGN CHOICE, notes/assumptions/3.md; safe). -/
abbrev Ptr := BitVec 8

/-- The time counter and the drop counters: `TW = CW = 32` (spec/00_scope.md R11). -/
abbrev Word32 := BitVec 32

end Sys2Proof
end

