-- ==== Sys2Proof/Config.lean ====
section
/-! DEFINITION. What a build fixes (spec/00_scope.md R6 to R11), the names of the four memories, the steps the agents can
take, and the model's free values. -/

namespace Sys2Proof

/-- The boundary-detection policy, fixed at build time (spec/00_scope.md R8). -/
inductive Policy where
  | timeout
  | idle
  | ring
  deriving DecidableEq, Repr, Inhabited

/-- The numbers of the policies (spec/00_scope.md R8). -/
def Policy.code : Policy → BitVec 2
  | .timeout => 0
  | .idle => 1
  | .ring => 2

/-- The four byte arrays (spec/20_memory.md R60). -/
inductive Space where
  /-- `CAPB`, the CaptureBuffer (R61). -/
  | capb
  /-- `RING`, the RingQueue's storage (R62). -/
  | ring
  /-- `XFER`, the single-slot Transfer Buffer (R63). -/
  | xfer
  /-- `FRMB`, the FrameBuffer (R64). -/
  | frmb
  deriving DecidableEq, Repr, Inhabited

/-- The parameters of a build with their legal ranges (spec/00_scope.md R6 to R10). A build outside the ranges cannot be
written: the spec asks the model's constructor to reject it (spec/93_implementation_defined.md S8; DESIGN CHOICE,
notes/assumptions/2.md; safe). -/
structure Build where
  /-- `POLICY` (R8). -/
  policy : Policy
  /-- `CAP`, the CaptureBuffer capacity in bytes (R6). -/
  cap : Nat
  /-- `AW = log2 C`; the capacity `C` is a power of two (R7). -/
  aw : Nat
  /-- `T`, the timeout threshold in time-units (R9). -/
  t : Nat
  /-- `INST`, the hardware instance whose interrupts this block handles (R10). -/
  inst : BitVec 4
  cap_pos : 1 ≤ cap := by decide
  cap_le : cap ≤ 128 := by decide
  aw_pos : 1 ≤ aw := by decide
  aw_le : aw ≤ 7 := by decide
  t_le : t ≤ 4294967294 := by decide
  deriving DecidableEq, Repr

/-- `C`, the RingQueue capacity in bytes (spec/00_scope.md R7). -/
def Build.c (b : Build) : Nat := 2 ^ b.aw

/-- `PW = AW + 1`, the pointer width (spec/00_scope.md R7). -/
def Build.pw (b : Build) : Nat := b.aw + 1

/-- `2^PW = 2·C`, the modulus of the pointers (spec/10_state.md R30, spec/44_arithmetic_and_sequencing.md R241). -/
def Build.modulus (b : Build) : Nat := 2 ^ b.pw

/-- `FB = max(CAP, C)`, the FrameBuffer capacity (spec/00_scope.md R11). -/
def Build.fb (b : Build) : Nat := max b.cap b.c

/-- The size of each memory in bytes (spec/20_memory.md R60). -/
def Build.size (b : Build) : Space → Nat
  | .capb => b.cap
  | .ring => b.c
  | .xfer => b.cap
  | .frmb => b.fb

/-- The build with the given parameters, `C` given as such; `none` where a parameter is outside its range
(spec/00_scope.md R6 to R10, spec/93_implementation_defined.md S8). -/
def Build.ofParams (policy : Policy) (cap c t inst : Nat) : Option Build :=
  if h : (1 ≤ cap ∧ cap ≤ 128) ∧ (1 ≤ Nat.log2 c ∧ Nat.log2 c ≤ 7) ∧ t ≤ 4294967294 then
    if c = 2 ^ Nat.log2 c ∧ inst < 16 then
      some { policy, cap, aw := Nat.log2 c, t, inst := BitVec.ofNat 4 inst,
             cap_pos := h.1.1, cap_le := h.1.2, aw_pos := h.2.1.1, aw_le := h.2.1.2, t_le := h.2.2 }
    else none
  else none

/-- The build of `State.reset`: the reference values `CAP = 128`, `C = 128`, `T = 100` (spec/00_scope.md R6, R7, R9), with
`POLICY = RING` and `INST = 1`, for which the spec gives no default (DESIGN CHOICE, notes/assumptions/1.md; unsafe where a
claim rests on these two values). -/
def Build.reference : Build := { policy := .ring, cap := 128, aw := 7, t := 100, inst := 1 }

/-- One step of one agent (spec/00_scope.md R18, R19; spec/30_encoding.md R90, R98, R103). -/
inductive Event where
  /-- LINE, TIME, INTC or WHOST presents a word on the W port, which takes it at once (R98). -/
  | wWord (cmd : Cmd)
  /-- CONSUMER offers a word to the R port; it is taken in this step if the port is ready and no older word waits (R98). -/
  | rWord (cmd : Cmd)
  /-- The R port takes the oldest word that waits (R98; notes/assumptions/9.md). -/
  | rTake
  /-- HANDLER performs `HSTEP` (spec/41_boundary_handler.md R152). -/
  | hstep
  /-- CONSUMER performs `PSTEP` (spec/43_consumer.md R223). -/
  | pstep
  /-- SYNCW performs `SYNC_W` (spec/42_ring.md R196). -/
  | syncW
  /-- SYNCR performs `SYNC_R` (spec/42_ring.md R197). -/
  | syncR
  /-- RESET (spec/70_reset_and_hazards.md R280). -/
  | reset
  deriving DecidableEq, Repr, Inhabited

/-- FREE VALUE. The byte that index `i` of memory `sp` holds when nothing has written it since the `epoch`-th reset: any
value (spec/70_reset_and_hazards.md R282, spec/93_implementation_defined.md S1; DESIGN CHOICE, notes/assumptions/4.md; safe). -/
opaque Config.unspecifiedByte (epoch : Nat) (sp : Space) (i : Nat) : Byte

/-- FREE VALUE. The `n`-th step the environment and the agents take where `State.agenda` does not fix it: any agent, any
word, in any order (spec/00_scope.md R19 (1), spec/93_implementation_defined.md S3, S4; DESIGN CHOICE,
notes/assumptions/7.md; safe). -/
opaque Config.nextEvent (n : Nat) : Event

end Sys2Proof
end

