-- ==== Sys2Proof/Syntax.lean ====
section
/-! DEFINITION. The two command ports and the eleven commands of spec/30_encoding.md R94, one constructor per row of
spec/opcode_table.json. -/

namespace Sys2Proof

/-- The command ports, one per clock domain (spec/30_encoding.md R90). -/
inductive Port where
  /-- The W port: producer side, `clk_w`. -/
  | w
  /-- The R port: consumer side, `clk_r`. -/
  | r
  deriving DecidableEq, Repr, Inhabited

/-- A command. A data byte is a `Byte`; the count of `ARM` and the instance of `IRQ` are the unsigned numbers the spec calls
them (spec/30_encoding.md R93), bounded by `Instr.wellFormed` (notes/assumptions/14.md). -/
inductive Instr where
  /-- `NOP`, the one word legal on both ports; it carries the port it was presented on (R94, R97). -/
  | nop (port : Port)
  /-- `RXBYTE b`: a byte arrives from the serial line. -/
  | rxbyte (b : Byte)
  /-- `RXIDLE`: the hardware idle signal. -/
  | rxidle
  /-- `TICK`: one time-unit passes. -/
  | tick
  /-- `IRQ i`: the interrupt callback for hardware instance `i`. -/
  | irq (i : Nat)
  /-- `ARM n`: arm the Capture Engine for `n` bytes. -/
  | arm (n : Nat)
  /-- `STOP`: halt the Capture Engine. -/
  | stop
  /-- `PUSH b`: append one byte to the ring. -/
  | push (b : Byte)
  /-- `POLL`: one invocation of the Consumer Task. -/
  | poll
  /-- `POP`: remove one byte from the ring. -/
  | pop
  /-- `LEN`: the number of bytes the consumer sees. -/
  | len
  deriving DecidableEq, Repr, Inhabited

/-- The port a command belongs to (spec/30_encoding.md R94). -/
def Instr.port : Instr → Port
  | .nop p => p
  | .rxbyte _ => .w
  | .rxidle => .w
  | .tick => .w
  | .irq _ => .w
  | .arm _ => .w
  | .stop => .w
  | .push _ => .w
  | .poll => .r
  | .pop => .r
  | .len => .r

end Sys2Proof
end

