-- ==== Sys2Proof/WellFormed.lean ====
section
/-! DEFINITION. Which commands the encoding can carry (spec/30_encoding.md R91, R93). -/

namespace Sys2Proof

/-- The operand fits its field: `ARM`'s count is an 8-bit `arg`, `IRQ`'s instance a 4-bit `inst` (spec/30_encoding.md R91,
R93). Every data byte fits by its type. Whether `ARM` accepts the count is the state's business (R93, R129), not the encoding's. -/
def Instr.wellFormed : Instr → Bool
  | .nop _ => true
  | .rxbyte _ => true
  | .rxidle => true
  | .tick => true
  | .irq i => i < 16
  | .arm n => n < 256
  | .stop => true
  | .push _ => true
  | .poll => true
  | .pop => true
  | .len => true

end Sys2Proof
end

