-- ==== Sys2Proof/Decode.lean ====
section
/-! DEFINITION. Decoding a command word on a port (spec/30_encoding.md R91 to R96), the encoder written from the same table,
and the textual names of the commands. -/

namespace Sys2Proof

/-- `cmd[15:12]`, the operation code (spec/30_encoding.md R91). -/
def cmdOp (w : Cmd) : BitVec 4 := w.extractLsb' 12 4

/-- `cmd[11:8]`, the instance number (R91). -/
def cmdInst (w : Cmd) : BitVec 4 := w.extractLsb' 8 4

/-- `cmd[7:0]`, the operand (R91). -/
def cmdArg (w : Cmd) : Byte := w.extractLsb' 0 8

/-- One row of the opcode map: a word is that command exactly when `w and mask = pattern`, on the ports of the row
(spec/30_encoding.md R94). -/
structure OpcodeRow where
  mnemonic : String
  ports : List Port
  pattern : Cmd
  mask : Cmd
  /-- The command, from the port and the word's fields. -/
  instr : Port → Cmd → Instr

/-- The opcode map, row by row (spec/30_encoding.md R94). -/
def opcodeRows : List OpcodeRow :=
  [ ⟨"NOP", [.w, .r], 0x0000, 0xFFFF, fun p _ => .nop p⟩,
    ⟨"RXBYTE", [.w], 0x1000, 0xFF00, fun _ w => .rxbyte (cmdArg w)⟩,
    ⟨"RXIDLE", [.w], 0x2000, 0xFFFF, fun _ _ => .rxidle⟩,
    ⟨"TICK", [.w], 0x3000, 0xFFFF, fun _ _ => .tick⟩,
    ⟨"IRQ", [.w], 0x4000, 0xF0FF, fun _ w => .irq (cmdInst w).toNat⟩,
    ⟨"ARM", [.w], 0x5000, 0xFF00, fun _ w => .arm (cmdArg w).toNat⟩,
    ⟨"STOP", [.w], 0x6000, 0xFFFF, fun _ _ => .stop⟩,
    ⟨"PUSH", [.w], 0x7000, 0xFF00, fun _ w => .push (cmdArg w)⟩,
    ⟨"POLL", [.r], 0x8000, 0xFFFF, fun _ _ => .poll⟩,
    ⟨"POP", [.r], 0x9000, 0xFFFF, fun _ _ => .pop⟩,
    ⟨"LEN", [.r], 0xA000, 0xFFFF, fun _ _ => .len⟩ ]

/-- The row applies to this word on this port (spec/30_encoding.md R95). -/
def OpcodeRow.matches (p : Port) (w : Cmd) (row : OpcodeRow) : Bool :=
  row.ports.contains p && (w &&& row.mask == row.pattern)

/-- Why a word is `ILLEGAL`: the three causes of spec/30_encoding.md R95. The hardware reports only `ILL`; the cause is the
model's name for it (DESIGN CHOICE, notes/assumptions/15.md; safe). -/
inductive DecodeError where
  /-- `op` is 0xB to 0xF (R96). -/
  | reservedOp
  /-- `op` belongs to the other port (R95). -/
  | wrongPort
  /-- A field the format requires to be zero is not (R92, R95). -/
  | nonZeroField
  deriving DecidableEq, Repr, Inhabited

/-- The cause of an `ILLEGAL` word (spec/30_encoding.md R95, R96). -/
def rejection (p : Port) (w : Cmd) : DecodeError :=
  if 0xA < (cmdOp w).toNat then .reservedOp
  else if cmdOp w ≠ 0 ∧ ((8 ≤ (cmdOp w).toNat) ≠ (p = .r)) then .wrongPort
  else .nonZeroField

/-- The command a word is on a port: total, with the cause where the word is `ILLEGAL` (spec/30_encoding.md R95). -/
def decode (p : Port) (w : Cmd) : Except DecodeError Instr :=
  match opcodeRows.find? (OpcodeRow.matches p w) with
  | some row => .ok (row.instr p w)
  | none => .error (rejection p w)

/-- A word of fields `op`, `inst`, `arg` (spec/30_encoding.md R91). -/
def cmdWord (op inst : BitVec 4) (arg : Byte) : Cmd := (op ++ inst) ++ arg

/-- The word of a well-formed command: formats N, B and I (spec/30_encoding.md R92, R94). -/
def encode : Instr → Cmd
  | .nop _ => cmdWord 0x0 0 0
  | .rxbyte b => cmdWord 0x1 0 b
  | .rxidle => cmdWord 0x2 0 0
  | .tick => cmdWord 0x3 0 0
  | .irq i => cmdWord 0x4 (BitVec.ofNat 4 i) 0
  | .arm n => cmdWord 0x5 0 (BitVec.ofNat 8 n)
  | .stop => cmdWord 0x6 0 0
  | .push b => cmdWord 0x7 0 b
  | .poll => cmdWord 0x8 0 0
  | .pop => cmdWord 0x9 0 0
  | .len => cmdWord 0xA 0 0

/-- The port a word of the table is presented on: `cmd[15]` tells it, and `NOP` (legal on both) is presented on the W port
(spec/30_encoding.md R91; DESIGN CHOICE for `NOP`, notes/assumptions/13.md; safe). -/
def cmdPort (w : Cmd) : Port := if w.getLsbD 15 then .r else .w

/-- The word of an opcode-table row given as `nbits` bits `w`; the block has one length, 16 bits presented in parallel, so
there is no word or byte order (spec/30_encoding.md R90, spec/20_memory.md R67). -/
def tableWord (nbits w : Nat) : Cmd := BitVec.ofNat 16 (w % 2 ^ nbits)

/-- The command the decoder reads from a row of spec/opcode_table.json, on the port its top bit tells. -/
def decodeTableWord (nbits w : Nat) : Option Instr :=
  match decode (cmdPort (tableWord nbits w)) (tableWord nbits w) with
  | .ok i => some i
  | .error _ => none

/-- The name of a command in the spec's textual syntax (spec/30_encoding.md R101). -/
def Instr.mnemonic : Instr → String
  | .nop _ => "NOP"
  | .rxbyte _ => "RXBYTE"
  | .rxidle => "RXIDLE"
  | .tick => "TICK"
  | .irq _ => "IRQ"
  | .arm _ => "ARM"
  | .stop => "STOP"
  | .push _ => "PUSH"
  | .poll => "POLL"
  | .pop => "POP"
  | .len => "LEN"

end Sys2Proof
end

