-- ==== Sys2Proof/Machine/State.lean ====
section
/-! DEFINITION. The state of the block as plain data, split by owner into the W and the R domain (spec/10_state.md R20), the
reasons a step can stop, and the state after reset (R48). -/

namespace Sys2Proof.Machine

/-- The handler sequencer `h_step` (spec/10_state.md R27). -/
inductive HStep where
  | idle
  | copy
  | clear
  | rearm
  deriving DecidableEq, Repr, Inhabited

/-- The poll sequencer `p_step`; the codes 5 to 7 are never taken (spec/10_state.md R36). -/
inductive PStep where
  | idle
  | copy
  | deliver
  | fbclr
  | reset
  deriving DecidableEq, Repr, Inhabited

/-- The response codes `OK`, `NAK`, `ILL`; 3 is never produced (spec/00_scope.md R16). -/
inductive RspCode where
  | ok
  | nak
  | ill
  deriving DecidableEq, Repr, Inhabited

/-- A response `(code, val)` (spec/00_scope.md R16). -/
structure Response where
  code : RspCode
  val : Byte
  deriving DecidableEq, Repr, Inhabited

/-- A byte array: the written bytes as (index, byte) pairs with strictly rising indices. An unlisted index holds no written
byte (notes/assumptions/5.md). -/
abbrev Memory := List Host.Cell

/-- The registers of the W domain, with the resets of spec/10_state.md R48 as defaults. -/
structure WRegs where
  /-- `ce_armed`: the Capture Engine is armed (R21). -/
  ceArmed : Bool := false
  /-- `ce_ptr`: where the next captured byte goes (R22). -/
  cePtr : Byte := 0
  /-- `ce_len`: the byte count the engine was armed with (R23). -/
  ceLen : Byte := 0
  /-- `irq_pending`: a boundary event waits for the handler (R24). -/
  irqPending : Bool := false
  /-- `h_step` (R27). -/
  hStep : HStep := .idle
  /-- `h_count`: the byte count of the handler's event (R25). -/
  hCount : Byte := 0
  /-- `h_idx`: how many of them are copied or given up (R25). -/
  hIdx : Byte := 0
  /-- `now`: the count of time-units (R28). -/
  now : Word32 := 0
  /-- `last_time`: `now` at the most recent `RXBYTE` (R28). -/
  lastTime : Word32 := 0
  /-- `wbin`: the binary write pointer (R30). -/
  wbin : Ptr := 0
  /-- `rg_w1`: first stage of the gray read pointer's synchroniser (R31). -/
  rgW1 : Ptr := 0
  /-- `rg_w2`: second stage, the value the W domain uses (R31). -/
  rgW2 : Ptr := 0
  /-- `xw`: the producer's slot toggle (R32). -/
  xw : Bool := false
  /-- `xfer_len`: the number of valid bytes in `XFER` (R32). -/
  xferLen : Byte := 0
  /-- `xr_w1`: first stage of the consumer toggle's synchroniser (R32). -/
  xrW1 : Bool := false
  /-- `xr_w2`: second stage, the value the W domain uses (R32). -/
  xrW2 : Bool := false
  /-- `ovf_ring`, SR0 bit 0 (R39). -/
  ovfRing : Bool := false
  /-- `ovf_cap`, SR0 bit 1 (R39). -/
  ovfCap : Bool := false
  /-- `ovf_slot`, SR0 bit 2 (R39). -/
  ovfSlot : Bool := false
  /-- `spur`, SR0 bit 3 (R39). -/
  spur : Bool := false
  /-- `ill_w`, SR0 bit 4 (R39). -/
  illW : Bool := false
  /-- `drop_ring_cnt`, SR2 (R39). -/
  dropRingCnt : Word32 := 0
  /-- `drop_line_cnt`, SR3 (R39). -/
  dropLineCnt : Word32 := 0
  /-- `drop_slot_cnt`, SR4 (R39). -/
  dropSlotCnt : Word32 := 0
  /-- `spur_cnt`, SR5 (R39). -/
  spurCnt : Word32 := 0
  deriving DecidableEq, Repr, Inhabited

/-- The registers of the R domain, with the resets of spec/10_state.md R48 as defaults. -/
structure RRegs where
  /-- `rbin`: the binary read pointer (R33). -/
  rbin : Ptr := 0
  /-- `wg_r1`: first stage of the gray write pointer's synchroniser (R34). -/
  wgR1 : Ptr := 0
  /-- `wg_r2`: second stage, the value the R domain uses (R34). -/
  wgR2 : Ptr := 0
  /-- `xr`: the consumer's slot toggle (R35). -/
  xr : Bool := false
  /-- `xw_r1`: first stage of the producer toggle's synchroniser (R35). -/
  xwR1 : Bool := false
  /-- `xw_r2`: second stage, the value the R domain uses (R35). -/
  xwR2 : Bool := false
  /-- `p_step` (R36). -/
  pStep : PStep := .idle
  /-- `p_count`: how many bytes the running poll drains (R37). -/
  pCount : Byte := 0
  /-- `p_idx`: how many of them are in `FRMB` (R37). -/
  pIdx : Byte := 0
  /-- `fb_len`: the number of valid bytes in `FRMB` (R37). -/
  fbLen : Byte := 0
  /-- `to_ready`: a timeout-policy poll has found the boundary and drains (R38). -/
  toReady : Bool := false
  /-- `ill_r`, SR1 bit 0 (R39). -/
  illR : Bool := false
  deriving DecidableEq, Repr, Inhabited

/-- The state of the block: the build's constants, the two register sets, the four memories, the observer's trace, the
responses of the step just taken, and the model's own fields for the environment. -/
structure State where
  /-- The build parameters, constant (spec/10_state.md R40; notes/assumptions/1.md). -/
  build : Build
  /-- The W domain's registers. -/
  w : WRegs := {}
  /-- The R domain's registers. -/
  r : RRegs := {}
  /-- `CAPB` (spec/20_memory.md R61). -/
  capb : Memory := []
  /-- `RING` (spec/20_memory.md R62). -/
  ring : Memory := []
  /-- `XFER` (spec/20_memory.md R63). -/
  xfer : Memory := []
  /-- `FRMB` (spec/20_memory.md R64). -/
  frmb : Memory := []
  /-- `out_frames`: the frames delivered since reset, oldest first (spec/10_state.md R47). -/
  outFrames : List (List Byte) := []
  /-- What the W port answered in the step just taken (spec/30_encoding.md R100; notes/assumptions/10.md). -/
  wRsp : Option Response := none
  /-- What the R port answered in the step just taken (spec/30_encoding.md R100; notes/assumptions/10.md). -/
  rRsp : Option Response := none
  /-- MODEL's own: words offered to the R port that wait to be taken, oldest first (spec/30_encoding.md R98;
  notes/assumptions/9.md). -/
  rWait : List Cmd := []
  /-- MODEL's own: the steps the environment has already fixed, next first (notes/assumptions/7.md). -/
  agenda : List Event := []
  /-- MODEL's own: where the free schedule `Config.nextEvent` is read next (notes/assumptions/7.md). -/
  choice : Nat := 0
  /-- MODEL's own: how many resets the memories have seen; it selects their unspecified contents (notes/assumptions/4.md). -/
  epoch : Nat := 0
  deriving DecidableEq, Repr

/-- Why a step stops with a fault. -/
inductive Fault where
  /-- Raised by a memory access at an index outside `0 .. size - 1` of its space, which the spec says does not exist and no
  rule produces (spec/00_scope.md R14, spec/10_state.md R46). SAFE: the model stops where the spec gives no behaviour, and
  no state the block can reach raises it. -/
  | noSuchIndex (space : Space)
  deriving DecidableEq, Repr

/-- Why a command has no meaning. -/
inductive Refusal where
  /-- Raised by `exec` for a command that has no meaning yet; no arm of this model raises it. SAFE. -/
  | notModelled (mnemonic : String)
  deriving DecidableEq, Repr

/-- The outcome of one command or step. -/
abbrev Result := Host.Outcome State Fault Refusal

/-- The state after reset for a given build: every register 0, the memories unspecified, nothing delivered
(spec/10_state.md R48, spec/70_reset_and_hazards.md R280). -/
def State.resetOf (b : Build) : State := { build := b }

/-- The state after reset of the reference build (notes/assumptions/1.md). -/
def State.reset : State := State.resetOf Build.reference

end Sys2Proof.Machine
end

