-- ==== Sys2Proof/Machine/Operands.lean ====
section
/-! DEFINITION. The derived values of the state: register codes, gray code, pointer arithmetic, each side's view of the ring
and of the slot, elapsed time, the boundary state (spec/10_state.md R41, R42, spec/44_arithmetic_and_sequencing.md R241 to
R243). -/

namespace Sys2Proof.Machine

/-- The number encoding of `h_step` (spec/10_state.md R27). -/
def HStep.code : HStep → BitVec 2
  | .idle => 0
  | .copy => 1
  | .clear => 2
  | .rearm => 3

/-- The number encoding of `p_step` (spec/10_state.md R36). -/
def PStep.code : PStep → BitVec 3
  | .idle => 0
  | .copy => 1
  | .deliver => 2
  | .fbclr => 3
  | .reset => 4

/-- The number of a response code (spec/00_scope.md R16). -/
def RspCode.code : RspCode → BitVec 2
  | .ok => 0
  | .nak => 1
  | .ill => 2

/-- `b2g(b) = b xor (b >> 1)` (spec/10_state.md R41). -/
def b2g (b : Ptr) : Ptr := b ^^^ (b >>> 1)

/-- `g2b(g)`: bit `i` is the exclusive or of the bits of `g` from `i` up, which is the rule's `b[i] = g[i] xor b[i+1]` from the
top bit down (spec/10_state.md R41). The bits at and above `PW` of a gray value are zero and stay zero. -/
def g2b (g : Ptr) : Ptr :=
  g ^^^ (g >>> 1) ^^^ (g >>> 2) ^^^ (g >>> 3) ^^^ (g >>> 4) ^^^ (g >>> 5) ^^^ (g >>> 6) ^^^ (g >>> 7)

/-- `(p + 1) mod 2^PW` (spec/44_arithmetic_and_sequencing.md R241). -/
def ptrNext (b : Build) (p : Ptr) : Ptr := BitVec.ofNat 8 ((p.toNat + 1) % b.modulus)

/-- `(x - y) mod 2^PW` (spec/44_arithmetic_and_sequencing.md R241). -/
def ptrDiff (b : Build) (x y : Ptr) : Nat := (x.toNat + (b.modulus - y.toNat % b.modulus)) % b.modulus

/-- The low `AW` bits of a pointer: its index in `RING` (spec/44_arithmetic_and_sequencing.md R241). -/
def ptrIndex (b : Build) (p : Ptr) : Nat := p.toNat % b.c

/-- `wgray` (spec/10_state.md R41). -/
def State.wgray (s : State) : Ptr := b2g s.w.wbin

/-- `rgray` (spec/10_state.md R41). -/
def State.rgray (s : State) : Ptr := b2g s.r.rbin

/-- `len_true`: the number of valid unread bytes (spec/10_state.md R41). -/
def State.lenTrue (s : State) : Nat := ptrDiff s.build s.w.wbin s.r.rbin

/-- `len_w`: the length as the producer sees it (spec/10_state.md R41). -/
def State.lenW (s : State) : Nat := ptrDiff s.build s.w.wbin (g2b s.w.rgW2)

/-- `full_w` (spec/10_state.md R41). -/
def State.fullW (s : State) : Bool := s.lenW == s.build.c

/-- `len_r`: the length as the consumer sees it, `dataLength()` (spec/10_state.md R41). -/
def State.lenR (s : State) : Nat := ptrDiff s.build (g2b s.r.wgR2) s.r.rbin

/-- `empty_r` (spec/10_state.md R41). -/
def State.emptyR (s : State) : Bool := s.lenR == 0

/-- `head`: the index of the oldest unread byte (spec/10_state.md R41). -/
def State.head (s : State) : Nat := ptrIndex s.build s.r.rbin

/-- `tail`: the index the next pushed byte is written to (spec/10_state.md R41). -/
def State.tail (s : State) : Nat := ptrIndex s.build s.w.wbin

/-- `slot_occ_true` (spec/10_state.md R41). -/
def State.slotOccTrue (s : State) : Bool := s.w.xw != s.r.xr

/-- `slot_occ_w`: the producer's view of the slot (spec/10_state.md R41). -/
def State.slotOccW (s : State) : Bool := s.w.xw != s.w.xrW2

/-- `slot_rdy_r`: the consumer's view of the slot (spec/10_state.md R41). -/
def State.slotRdyR (s : State) : Bool := s.r.xwR2 != s.r.xr

/-- `elapsed = (now - last_time) mod 2^32` (spec/10_state.md R41, spec/44_arithmetic_and_sequencing.md R243). -/
def State.elapsed (s : State) : Word32 := s.w.now - s.w.lastTime

/-- The three boundary states of the document (spec/10_state.md R42). -/
inductive BdState where
  | idle
  | accumulating
  | ready
  deriving DecidableEq, Repr, Inhabited

/-- `ready_true` (spec/10_state.md R42). -/
def State.readyTrue (s : State) : Bool :=
  match s.build.policy with
  | .timeout => s.r.toReady
  | .idle => s.w.irqPending || s.w.hStep != .idle || s.slotOccTrue
  | .ring => s.w.irqPending || s.w.hStep != .idle || decide (0 < s.lenTrue)

/-- `bd_state`, a function of the registers that no rule reads (spec/10_state.md R42). -/
def State.bdState (s : State) : BdState :=
  if s.readyTrue then .ready else if 0 < s.w.cePtr.toNat then .accumulating else .idle

/-- The timeout policy's readiness test: armed, a byte captured, and a silence strictly longer than `T`
(spec/43_consumer.md R221, spec/90_conflicts.md C1). -/
def State.timedOut (s : State) : Bool :=
  s.w.ceArmed && decide (0 < s.w.cePtr.toNat) && decide (s.build.t < s.elapsed.toNat)

end Sys2Proof.Machine
end

