-- ==== Sys2Proof/Machine/Flags.lean ====
section
/-! DEFINITION. The six error conditions, their sticky flags and saturating counters (spec/00_scope.md R15,
spec/10_state.md R39, spec/60_exceptions.md R250 to R255), and the status outputs. -/

namespace Sys2Proof.Machine

/-- The error conditions (spec/60_exceptions.md R250). -/
inductive BlockError where
  | ringOverrun
  | lineOverrun
  | slotOverrun
  | spurious
  | illegalW
  | illegalR
  deriving DecidableEq, Repr, Inhabited

/-- The error's code, for reference only (spec/60_exceptions.md R250). -/
def BlockError.code : BlockError → Nat
  | .ringOverrun => 1
  | .lineOverrun => 2
  | .slotOverrun => 3
  | .spurious => 4
  | .illegalW => 5
  | .illegalR => 6

/-- `sat_add(c, k) = min(c + k, 2^32 - 1)` (spec/00_scope.md R12, spec/44_arithmetic_and_sequencing.md R244). -/
def satAdd (c : Word32) (k : Nat) : Word32 := BitVec.ofNat 32 (min (c.toNat + k) 4294967295)

/-- `raise e (k)`: set the error's sticky flag and add `k` to its counter; `IllegalW` and `IllegalR` have no counter
(spec/00_scope.md R15, spec/10_state.md R39). -/
def raise (e : BlockError) (k : Nat) (s : State) : State :=
  match e with
  | .ringOverrun => { s with w := { s.w with ovfRing := true, dropRingCnt := satAdd s.w.dropRingCnt k } }
  | .lineOverrun => { s with w := { s.w with ovfCap := true, dropLineCnt := satAdd s.w.dropLineCnt k } }
  | .slotOverrun => { s with w := { s.w with ovfSlot := true, dropSlotCnt := satAdd s.w.dropSlotCnt k } }
  | .spurious => { s with w := { s.w with spur := true, spurCnt := satAdd s.w.spurCnt k } }
  | .illegalW => { s with w := { s.w with illW := true } }
  | .illegalR => { s with r := { s.r with illR := true } }

/-- The error raised by an illegal word on a port (spec/60_exceptions.md R255). -/
def illegalError : Port → BlockError
  | .w => .illegalW
  | .r => .illegalR

/-- `sr0`: the five W-domain flags, bit 0 first (spec/10_state.md R39, spec/30_encoding.md R100). -/
def State.sr0 (s : State) : BitVec 5 :=
  BitVec.ofBool s.w.illW ++ BitVec.ofBool s.w.spur ++ BitVec.ofBool s.w.ovfSlot ++ BitVec.ofBool s.w.ovfCap ++
    BitVec.ofBool s.w.ovfRing

/-- `sr1`: the R-domain flag (spec/10_state.md R39). -/
def State.sr1 (s : State) : BitVec 1 := BitVec.ofBool s.r.illR

/-- `sr2`: bytes refused by the ring (spec/10_state.md R39). -/
def State.sr2 (s : State) : Word32 := s.w.dropRingCnt

/-- `sr3`: line bytes refused by the engine (spec/10_state.md R39). -/
def State.sr3 (s : State) : Word32 := s.w.dropLineCnt

/-- `sr4`: bytes of frames refused by the slot (spec/10_state.md R39). -/
def State.sr4 (s : State) : Word32 := s.w.dropSlotCnt

/-- `sr5`: interrupts of a foreign instance (spec/10_state.md R39). -/
def State.sr5 (s : State) : Word32 := s.w.spurCnt

end Sys2Proof.Machine
end

