-- ==== Sys2Proof/Machine/Ops.lean ====
section
/-! DEFINITION. The named operations: the four memories, responses, the ring's two ends, the Capture Engine's halt and re-arm,
and the boundary interrupt's entry and return (spec/00_scope.md R14, R16, spec/42_ring.md, spec/60_exceptions.md R263, R264). -/

namespace Sys2Proof.Machine

/-- The canonical form of a memory of `n` bytes: indices strictly rising and below `n`. An unlisted index holds no written byte,
so no entry can equal what an unlisted index holds (notes/assumptions/5.md). -/
def Memory.wf (n : Nat) : Memory → Bool
  | [] => true
  | [(a, _)] => a < n
  | (a, _) :: (b, v) :: rest => a < b && Memory.wf n ((b, v) :: rest)

/-- The byte written at an index, if any. -/
def Memory.lookup (i : Nat) : Memory → Option Byte
  | [] => none
  | (a, v) :: rest => if a = i then some v else Memory.lookup i rest

/-- Write a byte at an index, keeping the indices rising. -/
def Memory.insert (i : Nat) (v : Byte) : Memory → Memory
  | [] => [(i, v)]
  | (a, x) :: rest =>
    if i < a then (i, v) :: (a, x) :: rest
    else if a = i then (i, v) :: rest
    else (a, x) :: Memory.insert i v rest

/-- The memory of `n` bytes that all hold `v`. -/
def Memory.filled (n : Nat) (v : Byte) : Memory := (List.range n).map fun i => (i, v)

/-- One of the four memories (spec/20_memory.md R60). -/
def State.mem (s : State) : Space → Memory
  | .capb => s.capb
  | .ring => s.ring
  | .xfer => s.xfer
  | .frmb => s.frmb

/-- Replace one of the four memories. -/
def State.setMem (s : State) (sp : Space) (m : Memory) : State :=
  match sp with
  | .capb => { s with capb := m }
  | .ring => { s with ring := m }
  | .xfer => { s with xfer := m }
  | .frmb => { s with frmb := m }

/-- `MemRead(S[i], 1)` at an index that exists: the written byte, or the free value where nothing was written since reset
(spec/00_scope.md R14, spec/70_reset_and_hazards.md R282; notes/assumptions/4.md). -/
def State.byteAt (s : State) (sp : Space) (i : Nat) : Byte :=
  ((s.mem sp).lookup i).getD (Config.unspecifiedByte s.epoch sp i)

/-- `MemRead(S[i], 1)`, then go on with the byte; an index that does not exist faults (spec/00_scope.md R14;
notes/assumptions/6.md). -/
def readThen (s : State) (sp : Space) (i : Nat) (k : Byte → Result) : Result :=
  if i < s.build.size sp then k (s.byteAt sp i) else .fault (.noSuchIndex sp)

/-- `MemWrite(S[i], 1, v)`, then go on; an index that does not exist faults (spec/00_scope.md R14;
notes/assumptions/6.md). -/
def writeThen (s : State) (sp : Space) (i : Nat) (v : Byte) (k : State → Result) : Result :=
  if i < s.build.size sp then k (s.setMem sp ((s.mem sp).insert i v)) else .fault (.noSuchIndex sp)

/-- `MemFill(S, v)`: every byte of the space in one step (spec/00_scope.md R14). -/
def State.memFill (s : State) (sp : Space) (v : Byte) : State := s.setMem sp (Memory.filled (s.build.size sp) v)

/-- The bytes `S[0 .. n-1]`, in order. -/
def State.span (s : State) (sp : Space) (n : Nat) : List Byte := (List.range n).map fun i => s.byteAt sp i

/-- `respond(code, val)` on the W port (spec/00_scope.md R16). -/
def State.respondW (s : State) (c : RspCode) (v : Byte) : State := { s with wRsp := some ⟨c, v⟩ }

/-- `respond(code, val)` on the R port (spec/00_scope.md R16). -/
def State.respondR (s : State) (c : RspCode) (v : Byte) : State := { s with rRsp := some ⟨c, v⟩ }

/-- `respond(code, val)` on the port the word was presented on. -/
def State.respondOn (s : State) (p : Port) (c : RspCode) (v : Byte) : State :=
  match p with
  | .w => s.respondW c v
  | .r => s.respondR c v

/-- The R port takes a command only while `p_step = P_IDLE`; otherwise the command is not taken and nothing changes
(spec/30_encoding.md R98; the word itself waits in `rWait`, see `offerR`; notes/assumptions/12.md). -/
def whenReady (s : State) (k : State → Result) : Result := if s.r.pStep = .idle then k s else .next s

/-- `last_time <- now` (spec/40_line_capture.md R121). -/
def stampLine (s : State) : State := { s with w := { s.w with lastTime := s.w.now } }

/-- Append one byte at the ring's tail: `RING[wbin[AW-1:0]] <- v`, `wbin <- (wbin + 1) mod 2^PW` (spec/42_ring.md R181,
spec/41_boundary_handler.md R153). -/
def ringAppend (s : State) (v : Byte) (k : State → Result) : Result :=
  writeThen s .ring s.tail v fun s' => k { s' with w := { s'.w with wbin := ptrNext s'.build s'.w.wbin } }

/-- Remove the byte at the ring's head: read `RING[rbin[AW-1:0]]`, `rbin <- (rbin + 1) mod 2^PW` (spec/42_ring.md R186,
spec/43_consumer.md R224). -/
def ringRemove (s : State) (k : Byte → State → Result) : Result :=
  readThen s .ring s.head fun v => k v { s with r := { s.r with rbin := ptrNext s.build s.r.rbin } }

/-- Halt the Capture Engine (spec/41_boundary_handler.md R151, spec/43_consumer.md R221). -/
def engineHalt (s : State) : State := { s with w := { s.w with ceArmed := false } }

/-- The internal re-arm: `ce_ptr <- 0`, `ce_armed <- 1`, `ce_len` kept (spec/41_boundary_handler.md R158,
spec/43_consumer.md R229). -/
def engineRearm (s : State) : State := { s with w := { s.w with cePtr := 0, ceArmed := true } }

/-- ENTRY to the boundary handler: in one step halt the engine, take the TransferEvent from `ce_ptr`, clear the pending bit
and start the sequencer; under `IDLE` an occupied slot rejects the frame whole and skips the copy
(spec/60_exceptions.md R263, spec/41_boundary_handler.md R151, spec/60_exceptions.md R253). -/
def boundaryEntry (s : State) : State :=
  let halted : State :=
    { engineHalt s with w := { (engineHalt s).w with hCount := s.w.cePtr, hIdx := 0, irqPending := false } }
  if s.build.policy = .idle ∧ s.slotOccW = true then
    let rejected := raise .slotOverrun s.w.cePtr.toNat halted
    { rejected with w := { rejected.w with hStep := .clear } }
  else
    { halted with w := { halted.w with hStep := .copy } }

/-- RETURN from the boundary handler: re-arm the engine and leave the sequencer (spec/60_exceptions.md R264,
spec/41_boundary_handler.md R158). -/
def boundaryReturn (s : State) : State :=
  { engineRearm s with w := { (engineRearm s).w with hStep := .idle } }

/-- An accepted `POLL` fixes the byte count of the drain and starts the sequencer; the response comes from `P_RESET`
(spec/43_consumer.md R221). -/
def pollStart (s : State) (count : Byte) : State :=
  { s with r := { s.r with pCount := count, pIdx := 0, pStep := .copy } }

/-- An `ILLEGAL` word: the flag of its port and the response `(ILL, 0)`, nothing else (spec/30_encoding.md R96). -/
def illegalWord (p : Port) (s : State) : State := (raise (illegalError p) 0 s).respondOn p .ill 0

end Sys2Proof.Machine
end

