-- ==== Sys2Proof/Machine/Consumer.lean ====
section
/-! DEFINITION. The Consumer Task (spec/43_consumer.md): the command `POLL` and the autonomous step `PSTEP`. -/

namespace Sys2Proof.Machine

/-- `POLL` (spec/43_consumer.md R221). Ready: the drain starts and the response is deferred to `P_RESET`; under `TIMEOUT` the
check, the halt and the sampling of `ce_ptr` are this one step. Not ready: `(NAK, 0)` and nothing else. -/
def execPoll (s : State) : Result :=
  whenReady s fun s =>
    match s.build.policy with
    | .timeout =>
      if s.timedOut = true then
        let halted := engineHalt s
        .next (pollStart { halted with r := { halted.r with toReady := true } } s.w.cePtr)
      else .next (s.respondR .nak 0)
    | .idle =>
      if s.slotRdyR = true then .next (pollStart s s.w.xferLen)
      else .next (s.respondR .nak 0)
    | .ring =>
      if 0 < s.lenR then .next (pollStart s (BitVec.ofNat 8 s.lenR))
      else .next (s.respondR .nak 0)

/-- The byte `P_COPY` drains, with the pop under `RING` (spec/43_consumer.md R224). -/
def pollSource (s : State) (k : Byte → State → Result) : Result :=
  match s.build.policy with
  | .timeout => readThen s .capb s.r.pIdx.toNat fun v => k v s
  | .idle => readThen s .xfer s.r.pIdx.toNat fun v => k v s
  | .ring => ringRemove s k

/-- `PSTEP` in `P_COPY`: drain one byte into `FRMB`, or end the drain (spec/43_consumer.md R224). -/
def pollCopy (s : State) : Result :=
  if s.r.pIdx.toNat < s.r.pCount.toNat then
    pollSource s fun v s' =>
      writeThen s' .frmb s.r.pIdx.toNat v fun s'' => .next { s'' with r := { s''.r with pIdx := s.r.pIdx + 1 } }
  else
    .next { s with r := { s.r with fbLen := s.r.pCount, pStep := .deliver } }

/-- `PSTEP` in `P_DELIVER`: hand the frame to the application handler (spec/43_consumer.md R226). -/
def pollDeliver (s : State) : Result :=
  if s.r.fbLen.toNat ≤ s.build.fb then
    .next { s with outFrames := s.outFrames ++ [s.span .frmb s.r.fbLen.toNat], r := { s.r with pStep := .fbclr } }
  else .fault (.noSuchIndex .frmb)

/-- `PSTEP` in `P_FBCLR`: clear all of `FRMB` (spec/43_consumer.md R227). -/
def pollClear (s : State) : Result :=
  let cleared := s.memFill .frmb 0
  .next { cleared with r := { cleared.r with fbLen := 0, pStep := .reset } }

/-- What `P_RESET` does to the policy's pending-data condition (spec/43_consumer.md R229). -/
def pollRelease (s : State) : State :=
  match s.build.policy with
  | .timeout =>
    let rearmed := engineRearm (s.memFill .capb 0)
    { rearmed with r := { rearmed.r with toReady := false } }
  | .idle => { s with r := { s.r with xr := !s.r.xr } }
  | .ring => s

/-- `PSTEP` in `P_RESET`: release, go idle and answer the `POLL` with the number of bytes delivered
(spec/43_consumer.md R229). -/
def pollReset (s : State) : Result :=
  let released := pollRelease s
  let idle : State := { released with r := { released.r with pStep := .idle } }
  .next (idle.respondR .ok s.r.pCount)

/-- `PSTEP`, enabled exactly when `p_step ≠ P_IDLE` (spec/43_consumer.md R223); where it is not enabled nothing changes
(notes/assumptions/8.md). -/
def pstep (s : State) : Result :=
  match s.r.pStep with
  | .idle => .next s
  | .copy => pollCopy s
  | .deliver => pollDeliver s
  | .fbclr => pollClear s
  | .reset => pollReset s

end Sys2Proof.Machine
end

