-- ==== Sys2Proof/Machine/Handler.lean ====
section
/-! DEFINITION. The boundary interrupt: the command `IRQ` and the autonomous step `HSTEP` (spec/41_boundary_handler.md). -/

namespace Sys2Proof.Machine

/-- `IRQ i` (spec/41_boundary_handler.md R151): a foreign instance is counted; with nothing to serve it is a silent no-op;
otherwise the handler is entered and answers the event's byte count. -/
def execIrq (i : Nat) (s : State) : Result :=
  if i ≠ s.build.inst.toNat then
    .next ((raise .spurious 1 s).respondW .nak 0)
  else if s.build.policy = .timeout ∨ s.w.irqPending = false ∨ s.w.hStep ≠ .idle then
    .next (s.respondW .nak 0)
  else
    .next ((boundaryEntry s).respondW .ok s.w.cePtr)

/-- `HSTEP` in `H_COPY` under `POLICY = RING`: push one byte, or reject the whole rest at the first byte that finds the ring
full (spec/41_boundary_handler.md R153). -/
def handlerCopyRing (s : State) : Result :=
  if s.w.hIdx.toNat < s.w.hCount.toNat then
    if s.lenW < s.build.c then
      readThen s .capb s.w.hIdx.toNat fun v =>
        ringAppend s v fun s' => .next { s' with w := { s'.w with hIdx := s.w.hIdx + 1 } }
    else
      let rejected := raise .ringOverrun (s.w.hCount.toNat - s.w.hIdx.toNat) s
      .next { rejected with w := { rejected.w with hIdx := s.w.hCount } }
  else
    .next { s with w := { s.w with hStep := .clear } }

/-- `HSTEP` in `H_COPY` under `POLICY = IDLE`: copy one byte into the slot, or publish the slot in a step after the last data
write (spec/41_boundary_handler.md R154). -/
def handlerCopyIdle (s : State) : Result :=
  if s.w.hIdx.toNat < s.w.hCount.toNat then
    readThen s .capb s.w.hIdx.toNat fun v =>
      writeThen s .xfer s.w.hIdx.toNat v fun s' => .next { s' with w := { s'.w with hIdx := s.w.hIdx + 1 } }
  else
    .next { s with w := { s.w with xferLen := s.w.hCount, xw := !s.w.xw, hStep := .clear } }

/-- `HSTEP` in `H_COPY`. Under `TIMEOUT` the state is never entered and the step does nothing (spec/41_boundary_handler.md
R155, spec/93_implementation_defined.md S7; DESIGN CHOICE, notes/assumptions/11.md; safe). -/
def handlerCopy (s : State) : Result :=
  match s.build.policy with
  | .ring => handlerCopyRing s
  | .idle => handlerCopyIdle s
  | .timeout => .next s

/-- `HSTEP` in `H_CLEAR`: clear all of `CAPB` (spec/41_boundary_handler.md R156). -/
def handlerClear (s : State) : Result :=
  let cleared := s.memFill .capb 0
  .next { cleared with w := { cleared.w with hStep := .rearm } }

/-- `HSTEP` in `H_REARM`: the handler's return (spec/41_boundary_handler.md R158). -/
def handlerRearm (s : State) : Result := .next (boundaryReturn s)

/-- `HSTEP`, enabled exactly when `h_step ≠ H_IDLE` (spec/41_boundary_handler.md R152); where it is not enabled nothing changes
(notes/assumptions/8.md). -/
def hstep (s : State) : Result :=
  match s.w.hStep with
  | .idle => .next s
  | .copy => handlerCopy s
  | .clear => handlerClear s
  | .rearm => handlerRearm s

end Sys2Proof.Machine
end

