-- ==== Sys2Proof/Machine/Line.lean ====
section
/-! DEFINITION. The line events and the Capture Engine's commands (spec/40_line_capture.md): `NOP`, `RXBYTE`, `RXIDLE`, `TICK`,
`ARM`, `STOP`. -/

namespace Sys2Proof.Machine

/-- `NOP`: the response `(OK, 0)` on the port it came on, no other change; on the R port only while `p_step = P_IDLE`
(spec/40_line_capture.md R133, spec/30_encoding.md R97). -/
def execNop (p : Port) (s : State) : Result :=
  match p with
  | .w => .next (s.respondW .ok 0)
  | .r => whenReady s fun s => .next (s.respondR .ok 0)

/-- `RXBYTE b` (spec/40_line_capture.md R121). -/
def execRxbyte (b : Byte) (s : State) : Result :=
  if s.w.ceArmed = true ∧ s.w.cePtr.toNat < s.w.ceLen.toNat then
    writeThen (stampLine s) .capb s.w.cePtr.toNat b fun s' =>
      let full := decide (s.build.policy ≠ .timeout) && decide (s.w.cePtr.toNat + 1 = s.w.ceLen.toNat)
      let stored : State :=
        { s' with w := { s'.w with cePtr := s.w.cePtr + 1, irqPending := s.w.irqPending || full } }
      .next (stored.respondW .ok 0)
  else
    .next ((raise .lineOverrun 1 (stampLine s)).respondW .nak 0)

/-- `RXIDLE` (spec/40_line_capture.md R124). -/
def execRxidle (s : State) : Result :=
  if s.build.policy ≠ .timeout ∧ s.w.ceArmed = true ∧ 0 < s.w.cePtr.toNat then
    let pending : State := { s with w := { s.w with irqPending := true } }
    .next (pending.respondW .ok 0)
  else
    .next (s.respondW .nak 0)

/-- `TICK` (spec/40_line_capture.md R126). -/
def execTick (s : State) : Result :=
  let ticked : State := { s with w := { s.w with now := s.w.now + 1 } }
  .next (ticked.respondW .ok 0)

/-- `ARM n` (spec/40_line_capture.md R129). -/
def execArm (n : Nat) (s : State) : Result :=
  if (1 ≤ n ∧ n ≤ s.build.cap) ∧ s.w.ceArmed = false ∧ s.w.hStep = .idle ∧ s.r.toReady = false then
    let armed : State :=
      { s with w := { s.w with ceLen := BitVec.ofNat 8 n, cePtr := 0, ceArmed := true, irqPending := false } }
    .next (armed.respondW .ok 0)
  else
    .next (s.respondW .nak 0)

/-- `STOP` (spec/40_line_capture.md R131). -/
def execStop (s : State) : Result :=
  if s.w.ceArmed = true ∧ s.w.hStep = .idle then
    let stopped : State := { engineHalt s with w := { (engineHalt s).w with irqPending := false } }
    .next (stopped.respondW .ok 0)
  else
    .next (s.respondW .nak 0)

end Sys2Proof.Machine
end

