-- ==== Sys2Proof/Machine/Ring.lean ====
section
/-! DEFINITION. The Durable Ring Buffer (spec/42_ring.md): `PUSH`, `POP`, `LEN` and the synchroniser steps `SYNC_W`,
`SYNC_R`. -/

namespace Sys2Proof.Machine

/-- `PUSH b` (spec/42_ring.md R181): refused without a record while a handler owns the write port, rejected and counted when
the producer sees the ring full, appended otherwise. -/
def execPush (b : Byte) (s : State) : Result :=
  if s.build.policy = .ring ∧ s.w.hStep ≠ .idle then
    .next (s.respondW .nak 0)
  else if s.lenW = s.build.c then
    .next ((raise .ringOverrun 1 s).respondW .nak 0)
  else
    ringAppend s b fun s' => .next (s'.respondW .ok 0)

/-- `POP` (spec/42_ring.md R186). -/
def execPop (s : State) : Result :=
  whenReady s fun s =>
    if s.lenR = 0 then .next (s.respondR .nak 0)
    else ringRemove s fun v s' => .next (s'.respondR .ok v)

/-- `LEN` (spec/42_ring.md R190). -/
def execLen (s : State) : Result :=
  whenReady s fun s => .next (s.respondR .ok (BitVec.ofNat 8 s.lenR))

/-- `SYNC_W`: one sampling edge of the W-domain synchronisers; stage 2 takes the old stage 1, stage 1 the source's present
value (spec/42_ring.md R196). -/
def syncW (s : State) : State :=
  { s with w := { s.w with rgW2 := s.w.rgW1, rgW1 := s.rgray, xrW2 := s.w.xrW1, xrW1 := s.r.xr } }

/-- `SYNC_R`: one sampling edge of the R-domain synchronisers (spec/42_ring.md R197). -/
def syncR (s : State) : State :=
  { s with r := { s.r with wgR2 := s.r.wgR1, wgR1 := s.wgray, xwR2 := s.r.xwR1, xwR1 := s.w.xw } }

end Sys2Proof.Machine
end

