-- ==== Sys2Proof/Machine/Dispatch.lean ====
section
/-! DEFINITION. The dispatch of a command to its meaning, one arm per row of spec/opcode_table.json. -/

namespace Sys2Proof.Machine

def exec (i : Instr) (s : State) : Host.Outcome State Fault Refusal :=
  match i with
  | .nop port => Sys2Proof.Machine.execNop port s
  | .rxbyte b => Sys2Proof.Machine.execRxbyte b s
  | .rxidle => Sys2Proof.Machine.execRxidle s
  | .tick => Sys2Proof.Machine.execTick s
  | .irq inst => Sys2Proof.Machine.execIrq inst s
  | .arm n => Sys2Proof.Machine.execArm n s
  | .stop => Sys2Proof.Machine.execStop s
  | .push b => Sys2Proof.Machine.execPush b s
  | .poll => Sys2Proof.Machine.execPoll s
  | .pop => Sys2Proof.Machine.execPop s
  | .len => Sys2Proof.Machine.execLen s

end Sys2Proof.Machine
end

