-- ==== Sys2Proof/Machine/Events.lean ====
section
/-! DEFINITION. What one step of one agent does: a word taken on a port, an autonomous step, or reset (spec/00_scope.md R19,
spec/30_encoding.md R95, R96, R98, R103, spec/70_reset_and_hazards.md R280). -/

namespace Sys2Proof.Machine

/-- A port takes a word: the command it decodes to is executed, an `ILLEGAL` word is recorded (spec/30_encoding.md R95,
R96). -/
def runWord (p : Port) (c : Cmd) (s : State) : Result :=
  match decode p c with
  | .ok i => exec i s
  | .error _ => .next (illegalWord p s)

/-- The R port takes the oldest waiting word if it is ready; while a poll runs no word is taken (spec/30_encoding.md R98). -/
def takeR (s : State) : Result :=
  if s.r.pStep = .idle then
    match s.rWait with
    | [] => .next s
    | c :: rest => runWord .r c { s with rWait := rest }
  else .next s

/-- A word is offered to the R port: it waits behind the words that already wait, and the port takes the oldest if it is ready
(spec/30_encoding.md R98; notes/assumptions/9.md). -/
def offerR (c : Cmd) (s : State) : Result := takeR { s with rWait := s.rWait ++ [c] }

/-- `RESET`: every register to its reset value, the trace fresh, the memories unspecified, a waiting word or a running poll
dropped without response; the build and the environment's own schedule are not the block's and stay
(spec/70_reset_and_hazards.md R280). -/
def resetStep (s : State) : State :=
  { State.resetOf s.build with agenda := s.agenda, choice := s.choice, epoch := s.epoch + 1 }

/-- The responses last for the step that gave them (notes/assumptions/10.md). -/
def quiet (s : State) : State := { s with wRsp := none, rRsp := none }

/-- The step of one agent (spec/00_scope.md R18, R19). -/
def perform (e : Event) (s : State) : Result :=
  match e with
  | .wWord c => runWord .w c (quiet s)
  | .rWord c => offerR c (quiet s)
  | .rTake => takeR (quiet s)
  | .hstep => hstep (quiet s)
  | .pstep => pstep (quiet s)
  | .syncW => .next (syncW (quiet s))
  | .syncR => .next (syncR (quiet s))
  | .reset => .next (resetStep s)

/-- The next step the environment and the agents take: the one the agenda fixes, or any (`Config.nextEvent`)
(spec/00_scope.md R19; notes/assumptions/7.md). -/
def pendingEvent (s : State) : Event :=
  match s.agenda with
  | e :: _ => e
  | [] => Config.nextEvent s.choice

/-- The state once that step is drawn. -/
def drawEvent (s : State) : State :=
  match s.agenda with
  | _ :: rest => { s with agenda := rest }
  | [] => { s with choice := s.choice + 1 }

/-- The state whose very next step presents word `c` on port `p`. On the R port this takes a port that is ready and no older
word waiting (notes/assumptions/13.md). -/
def placeWord (s : State) (p : Port) (c : Cmd) : State :=
  match p with
  | .w => { s with agenda := .wWord c :: s.agenda }
  | .r => { s with agenda := .rWord c :: s.agenda, rWait := [], r := { s.r with pStep := .idle } }

end Sys2Proof.Machine
end

