-- ==== Sys2Proof/Machine/Step.lean ====
section
/-! DEFINITION. The machine's step: draw the next step of the schedule and perform it (spec/00_scope.md R19). -/

namespace Sys2Proof.Machine

/-- One step of the block: the next agent's step, by the agenda or by any choice, performed atomically
(spec/00_scope.md R13, R18, R19). -/
def step (s : State) : Host.Outcome State Fault Refusal := perform (pendingEvent s) (drawEvent s)

/-- The state whose very next step takes the table's word on the port its top bit tells (spec/30_encoding.md R91;
notes/assumptions/13.md). -/
def State.withFetchWord (s : State) (nbits w : Nat) : State :=
  placeWord s (cmdPort (tableWord nbits w)) (tableWord nbits w)

end Sys2Proof.Machine
end

