-- ==== Sys2Proof/Machine/Pins.lean ====
section
/-! DEFINITION. The block's output pins as functions of the state (spec/30_encoding.md R100, spec/10_state.md R40). The flags
and counters `sr0` to `sr5` are in Machine/Flags.lean. -/

namespace Sys2Proof.Machine

/-- `irq_out` equals `irq_pending` (spec/30_encoding.md R100). -/
def State.irqOut (s : State) : Bool := s.w.irqPending

/-- `w_rsp_code`, while a response is given; no value otherwise (DESIGN CHOICE, notes/assumptions/19.md; safe). -/
def State.wRspCode (s : State) : Option (BitVec 2) := s.wRsp.map fun x => x.code.code

/-- `w_rsp_val`, likewise. -/
def State.wRspVal (s : State) : Option Byte := s.wRsp.map fun x => x.val

/-- `r_ready` is 1 exactly when `p_step = P_IDLE`. -/
def State.rReady (s : State) : Bool := s.r.pStep == .idle

/-- `r_rsp_valid`. -/
def State.rRspValid (s : State) : Bool := s.rRsp.isSome

/-- `r_rsp_code`, while a response is given; no value otherwise (DESIGN CHOICE, notes/assumptions/19.md; safe). -/
def State.rRspCode (s : State) : Option (BitVec 2) := s.rRsp.map fun x => x.code.code

/-- `r_rsp_val`, likewise. -/
def State.rRspVal (s : State) : Option Byte := s.rRsp.map fun x => x.val

/-- `frm_valid` is 1 during `P_DELIVER`. -/
def State.frmValid (s : State) : Bool := s.r.pStep == .deliver

/-- `frm_len = fb_len`. -/
def State.frmLen (s : State) : Byte := s.r.fbLen

/-- `frm_data`: during `P_DELIVER` the application handler reads `FRMB[frm_idx]` (spec/30_encoding.md R100), and `FRMB[i]` is
read only for `i < fb_len` (spec/20_memory.md R66). What the pin shows outside `P_DELIVER`, or for another `frm_idx` during it, the
spec does not say: the model answers no value there (DESIGN CHOICE, notes/assumptions/19.md; safe). -/
def State.frmData (s : State) (frmIdx : Byte) : Option Byte :=
  if s.frmValid = true ∧ frmIdx.toNat < s.r.fbLen.toNat ∧ frmIdx.toNat < s.build.fb then some (s.byteAt .frmb frmIdx.toNat)
  else none

/-- The constant outputs of the build: `CAP`, `C`, `T`, the number of `POLICY`, `INST` (spec/10_state.md R40). -/
def State.constants (s : State) : Nat × Nat × Nat × BitVec 2 × BitVec 4 :=
  (s.build.cap, s.build.c, s.build.t, s.build.policy.code, s.build.inst)

end Sys2Proof.Machine
end

