-- ==== Sys2Proof/Machine/Pseudo.lean ====
section
/-! DEFINITION. The pseudo-instructions, each a sequence of real steps (spec/30_encoding.md R102, spec/42_ring.md R198, R200,
R201, spec/41_boundary_handler.md R159, spec/43_consumer.md R230). -/

namespace Sys2Proof.Machine

/-- Go on from an outcome if it is a next state. -/
def andThen {σ τ : Type} (x : Host.Outcome σ Fault Refusal) (k : σ → Host.Outcome τ Fault Refusal) :
    Host.Outcome τ Fault Refusal :=
  match x with
  | .next s => k s
  | .fault f => .fault f
  | .refused r => .refused r

/-- A fixed sequence of agents' steps, with no other step between. -/
def performAll : List Event → State → Result
  | [], s => .next s
  | e :: rest, s => andThen (perform e s) (performAll rest)

/-- Repeat a step until a condition holds, at most `fuel` times. -/
def repeatUntil (done : State → Bool) (f : State → Result) : Nat → State → Result
  | 0, s => .next s
  | fuel + 1, s => if done s then .next s else andThen (f s) (repeatUntil done f fuel)

/-- `TICKS n` (R102). -/
def ticksEvents (n : Nat) : List Event := List.replicate n (.wWord (encode .tick))

/-- `RX "text"` (R102). -/
def rxEvents (text : List Byte) : List Event := text.map fun b => .wWord (encode (.rxbyte b))

/-- `SETTLE` (spec/42_ring.md R198). -/
def settleEvents : List Event := [.syncW, .syncW, .syncR, .syncR]

/-- `RUNH`: `HSTEP` until `h_step = H_IDLE`; at most `h_count + 3` are needed (spec/41_boundary_handler.md R152, R159). -/
def runH (s : State) : Result :=
  repeatUntil (fun s => s.w.hStep == .idle) (perform .hstep) (s.w.hCount.toNat + 3) s

/-- `RUNP`: `PSTEP` until `p_step = P_IDLE`; at most `p_count + 4` are needed (spec/43_consumer.md R223, R230). -/
def runP (s : State) : Result :=
  repeatUntil (fun s => s.r.pStep == .idle) (perform .pstep) (s.r.pCount.toNat + 4) s

/-- The port answered `OK`. -/
def answeredOk (x : Option Response) : Bool :=
  match x with
  | some y => y.code == .ok
  | none => false

/-- `PUT` with the other agents' steps that fall before each of its `PUSH`es: `PUSH` in order until the first refusal; the number
of bytes accepted (spec/42_ring.md R200). -/
def putAmong : List (List Event × Byte) → State → Host.Outcome (Nat × State) Fault Refusal
  | [], s => .next (0, s)
  | (others, b) :: rest, s =>
    andThen (performAll others s) fun u =>
      andThen (exec (.push b) (quiet u)) fun t =>
        if answeredOk t.wRsp then andThen (putAmong rest t) fun x => .next (x.1 + 1, x.2)
        else .next (0, t)

/-- `PUT b0 b1 ...` with no other step between (spec/42_ring.md R200). -/
def put (bs : List Byte) : State → Host.Outcome (Nat × State) Fault Refusal := putAmong (bs.map fun b => ([], b))

/-- The R port takes the next word offered in its very step: no poll runs and no older word waits (spec/30_encoding.md R98). -/
def portFree (s : State) : Bool := s.r.pStep == .idle && s.rWait.isEmpty

/-- What a word offered to the R port waits for: the running poll's steps, then the words that wait before it, with their polls
(spec/30_encoding.md R98). A poll takes at most `255 + 4` steps (spec/43_consumer.md R223), so the bound is never reached. -/
def awaitPort (s : State) : Result :=
  repeatUntil portFree (fun u => perform (if u.r.pStep = .idle then .rTake else .pstep) u) (260 * (s.rWait.length + 1)) s

/-- One of the consumer's commands: the other steps that fall before it, the wait for the R port, then the command's step
(spec/30_encoding.md R98). -/
def consumerTurn (others : List Event) (i : Instr) (s : State) : Result :=
  andThen (performAll others s) fun u => andThen (awaitPort u) fun v => exec i (quiet v)

/-- `k` times `POP`, with the steps that fall before each, and the values returned, each appended as R201's pseudocode appends it,
without a test of the code (spec/42_ring.md R201). The rule says that the `POP`s are always OK. It does not say what is returned
where one is not, which a `RESET` or the consumer's own drains between can bring about: the model appends the value 0 of the `NAK`
and goes on, so that `k` values are returned (DESIGN CHOICE, notes/assumptions/21.md; unsafe). A `POP` at a free port always
answers, so the case of no response does not arise. -/
def popAmong : Nat → List (List Event) → State → Host.Outcome (List Byte × State) Fault Refusal
  | 0, _, s => .next ([], s)
  | k + 1, others, s =>
    andThen (consumerTurn (others.headD []) .pop s) fun t =>
      match t.rRsp with
      | some x =>
        andThen (popAmong k others.tail t) fun y => .next (x.val :: y.1, y.2)
      | none => .next ([], t)

/-- `GET n` with the steps that fall before its `LEN` and before each `POP`: `LEN`, then `min(n, L)` times `POP`, `L` being what
the `LEN` answered; the bytes returned (spec/42_ring.md R201; where a `POP` answers `NAK`, notes/assumptions/21.md). -/
def getAmong (n : Nat) (others : List (List Event)) (s : State) : Host.Outcome (List Byte × State) Fault Refusal :=
  andThen (consumerTurn (others.headD []) .len s) fun t =>
    match t.rRsp with
    | some x => popAmong (min n x.val.toNat) others.tail t
    | none => .next ([], t)

/-- `GET n` with no other agent's step between (spec/42_ring.md R201). -/
def get (n : Nat) (s : State) : Host.Outcome (List Byte × State) Fault Refusal := getAmong n [] s

end Sys2Proof.Machine
end

