-- ==== Sys2Proof/Safety.lean ====
section
/-! DEFINITION. What counts as a good state and a safe run, in the terms the claims use: the invariants of spec/10_state.md R43
to R46, the ring as an abstract queue (spec/42_ring.md R204), which step touches which memory (spec/20_memory.md R65), frames,
reachability, and the premises of progress claims (spec/70_reset_and_hazards.md R288, R296). -/

namespace Sys2Proof.Machine

/-! ### Frames -/

/-- Every byte of every memory reads as before. -/
def sameMemory (s t : State) : Prop := ∀ sp i, t.byteAt sp i = s.byteAt sp i

/-- Every byte reads as before but those at the listed places. -/
def sameMemoryBut (s t : State) (written : Space → Nat → Prop) : Prop :=
  ∀ sp i, ¬ written sp i → t.byteAt sp i = s.byteAt sp i

/-- The build, the trace and the model's own fields are as before. -/
def sameSurroundings (s t : State) : Prop :=
  t.build = s.build ∧ t.outFrames = s.outFrames ∧ t.rWait = s.rWait ∧ t.agenda = s.agenda ∧ t.choice = s.choice ∧
    t.epoch = s.epoch

/-- The frame of a command on the W port: it answers on the W port; the R registers, the R port's response, the build, the
trace and the model's own fields are as before. -/
def wCommandFrame (s t : State) (code : RspCode) (val : Byte) : Prop :=
  t.wRsp = some ⟨code, val⟩ ∧ t.r = s.r ∧ t.rRsp = s.rRsp ∧ sameSurroundings s t

/-- The frame of a command on the R port: it answers on the R port; the W registers, the W port's response, the build, the
trace and the model's own fields are as before. -/
def rCommandFrame (s t : State) (code : RspCode) (val : Byte) : Prop :=
  t.rRsp = some ⟨code, val⟩ ∧ t.w = s.w ∧ t.wRsp = s.wRsp ∧ sameSurroundings s t

/-- The frame of an autonomous step: no response; the build, the trace and the model's own fields are as before. -/
def autonomousFrame (s t : State) : Prop := t.wRsp = none ∧ t.rRsp = none ∧ sameSurroundings s t

/-! ### The invariants -/

/-- Every memory is in canonical form: indices strictly rising and inside the memory. -/
abbrev memoriesCanonical (s : State) : Prop :=
  Memory.wf (s.build.size .capb) s.capb = true ∧ Memory.wf (s.build.size .ring) s.ring = true ∧
    Memory.wf (s.build.size .xfer) s.xfer = true ∧ Memory.wf (s.build.size .frmb) s.frmb = true

/-- The pointers and their synchronised gray images are `PW` bits wide (spec/10_state.md R30, R31, R33, R34). -/
abbrev pointersInRange (s : State) : Prop :=
  (s.w.wbin.toNat < s.build.modulus ∧ s.w.rgW1.toNat < s.build.modulus ∧ s.w.rgW2.toNat < s.build.modulus) ∧
    s.r.rbin.toNat < s.build.modulus ∧ s.r.wgR1.toNat < s.build.modulus ∧ s.r.wgR2.toNat < s.build.modulus

/-- Around the pointer circle, from the oldest to the newest: what the W domain has seen of `rbin`, what it is about to see,
`rbin`, what the R domain has seen of `wbin`, what it is about to see, `wbin`; all within one ring length. Every step keeps
this, and spec/10_state.md R43 follows from it. -/
abbrev ringOrdered (s : State) : Prop :=
  ptrDiff s.build (g2b s.w.rgW1) (g2b s.w.rgW2) + ptrDiff s.build s.r.rbin (g2b s.w.rgW1) +
    ptrDiff s.build (g2b s.r.wgR2) s.r.rbin + ptrDiff s.build (g2b s.r.wgR1) (g2b s.r.wgR2) +
    ptrDiff s.build s.w.wbin (g2b s.r.wgR1) ≤ s.build.c

/-- The same order for the slot's toggles, a ring of one place: at most one change lies between neighbours
(spec/10_state.md R44). -/
abbrev slotOrdered (s : State) : Prop :=
  (s.w.xrW2 != s.w.xrW1).toNat + (s.w.xrW1 != s.r.xr).toNat + (s.r.xr != s.r.xwR2).toNat +
    (s.r.xwR2 != s.r.xwR1).toNat + (s.r.xwR1 != s.w.xw).toNat ≤ 1

/-- The capture and handler invariants (spec/10_state.md R45 a, b, c, f, and e for the handler's registers, whose bound by
`ce_len` holds while the handler runs, notes/assumptions/16.md; spec/41_boundary_handler.md R151 (e), R154 (b)). -/
abbrev captureOrdered (s : State) : Prop :=
  (s.w.cePtr.toNat ≤ s.w.ceLen.toNat ∧ s.w.ceLen.toNat ≤ s.build.cap) ∧
  (s.w.hIdx.toNat ≤ s.w.hCount.toNat ∧ s.w.hCount.toNat ≤ s.build.cap) ∧
  (s.w.irqPending = true →
    s.w.ceArmed = true ∧ s.w.hStep = .idle ∧ 1 ≤ s.w.cePtr.toNat ∧ s.build.policy ≠ .timeout) ∧
  (s.w.hStep ≠ .idle →
    s.w.ceArmed = false ∧ s.w.irqPending = false ∧ s.build.policy ≠ .timeout ∧ s.w.hCount = s.w.cePtr ∧
      1 ≤ s.w.hCount.toNat) ∧
  (s.w.hStep = .copy → s.build.policy = .idle → s.slotOccW = false)

/-- The consumer's invariants (spec/10_state.md R37, R45 d and e; spec/43_consumer.md R221 (c) to (e), R224 (a)). -/
abbrev consumerOrdered (s : State) : Prop :=
  (s.r.pIdx.toNat ≤ s.r.pCount.toNat ∧ s.r.pCount.toNat ≤ s.build.fb) ∧
  (s.build.policy ≠ .ring → s.r.pCount.toNat ≤ s.build.cap) ∧
  s.w.xferLen.toNat ≤ s.build.cap ∧
  (s.slotOccTrue = true → 1 ≤ s.w.xferLen.toNat) ∧
  (s.r.toReady = true → s.w.ceArmed = false ∧ s.build.policy = .timeout ∧ s.r.pStep ≠ .idle) ∧
  (s.r.pStep ≠ .idle → 1 ≤ s.r.pCount.toNat ∧
    (s.build.policy = .timeout → s.r.toReady = true ∧ s.r.pCount = s.w.cePtr) ∧
    (s.build.policy = .idle → s.slotRdyR = true ∧ s.r.pCount = s.w.xferLen)) ∧
  (s.r.pStep = .copy → s.build.policy = .ring → s.r.pCount.toNat - s.r.pIdx.toNat ≤ s.lenR) ∧
  (s.r.pStep = .idle ∨ s.r.pStep = .copy ∨ s.r.pStep = .reset → s.r.fbLen = 0) ∧
  (s.r.pStep = .deliver ∨ s.r.pStep = .fbclr → s.r.fbLen = s.r.pCount) ∧
  (s.r.pStep = .deliver ∨ s.r.pStep = .fbclr ∨ s.r.pStep = .reset → s.r.pIdx = s.r.pCount)

/-- The block's invariant: it holds at reset and every step keeps it. Each part is decidable. -/
structure State.Inv (s : State) : Prop where
  memories : memoriesCanonical s
  pointers : pointersInRange s
  ring : ringOrdered s
  slot : slotOrdered s
  capture : captureOrdered s
  consumer : consumerOrdered s

/-- The byte at an index has been written since reset. -/
abbrev written (s : State) (sp : Space) (i : Nat) : Prop := (Memory.lookup i (s.mem sp)).isSome = true

/-- Every byte a rule can still read has been written since reset (spec/20_memory.md R66). -/
abbrev State.Written (s : State) : Prop :=
  (∀ i, i < s.w.cePtr.toNat → written s .capb i) ∧
  (∀ k, k < s.lenTrue → written s .ring ((s.r.rbin.toNat + k) % s.build.c)) ∧
  (s.slotOccTrue = true → ∀ i, i < s.w.xferLen.toNat → written s .xfer i) ∧
  (s.w.hStep = .copy → s.build.policy = .idle → ∀ i, i < s.w.hIdx.toNat → written s .xfer i) ∧
  (s.r.pStep ≠ .idle → s.r.pStep ≠ .reset → ∀ i, i < s.r.pIdx.toNat → written s .frmb i)

/-! ### Reachability -/

/-- The states the block can reach from reset, for any build and any interleaving of the agents' steps
(spec/00_scope.md R19). -/
inductive Reachable : State → Prop where
  | reset (b : Build) : Reachable (State.resetOf b)
  | step (e : Event) (s t : State) : Reachable s → perform e s = .next t → Reachable t

/-! ### The ring as a queue -/

/-- The valid unread bytes of the ring, oldest first (spec/10_state.md R43). -/
def State.ringContents (s : State) : List Byte :=
  (List.range s.lenTrue).map fun k => s.byteAt .ring ((s.r.rbin.toNat + k) % s.build.c)

/-- The word a step takes, and the port that takes it (spec/30_encoding.md R98). -/
def takenWord (e : Event) (s : State) : Option (Port × Cmd) :=
  match e with
  | .wWord c => some (.w, c)
  | .rWord c => if s.r.pStep = .idle then (s.rWait ++ [c]).head?.map fun x => (.r, x) else none
  | .rTake => if s.r.pStep = .idle then s.rWait.head?.map fun x => (.r, x) else none
  | .hstep | .pstep | .syncW | .syncR | .reset => none

/-- The command a step executes, if any: what the word it takes decodes to (spec/30_encoding.md R95). -/
def takenCommand (e : Event) (s : State) : Option Instr :=
  (takenWord e s).bind fun x => (decode x.1 x.2).toOption

/-- What a step does to the queue of unread bytes (spec/42_ring.md R181, R186, R204, spec/41_boundary_handler.md R153,
spec/43_consumer.md R224): an accepted byte joins at the back, a drained byte leaves at the front, reset empties it, and every
other step leaves it as it is. -/
def queueAfter (e : Event) (s : State) : List Byte :=
  match takenCommand e s with
  | some (.push b) =>
    if (s.build.policy = .ring ∧ s.w.hStep ≠ .idle) ∨ s.lenW = s.build.c then s.ringContents
    else s.ringContents ++ [b]
  | some .pop => if s.lenR = 0 then s.ringContents else s.ringContents.tail
  | _ =>
    match e with
    | .hstep =>
      if s.build.policy = .ring ∧ s.w.hStep = .copy ∧ s.w.hIdx.toNat < s.w.hCount.toNat ∧ s.lenW < s.build.c then
        s.ringContents ++ [s.byteAt .capb s.w.hIdx.toNat]
      else s.ringContents
    | .pstep =>
      if s.build.policy = .ring ∧ s.r.pStep = .copy ∧ s.r.pIdx.toNat < s.r.pCount.toNat then s.ringContents.tail
      else s.ringContents
    | .reset => []
    | _ => s.ringContents

/-! ### Which step reaches which memory -/

/-- The indices a step may write (spec/20_memory.md R65). -/
def mayWrite (e : Event) (s : State) (sp : Space) (i : Nat) : Prop :=
  match takenCommand e s with
  | some (.rxbyte _) => sp = .capb ∧ i = s.w.cePtr.toNat
  | some (.push _) => sp = .ring ∧ i = s.tail
  | some _ => False
  | none =>
    match e with
    | .hstep =>
      (s.w.hStep = .copy ∧ s.build.policy = .ring ∧ sp = .ring ∧ i = s.tail) ∨
      (s.w.hStep = .copy ∧ s.build.policy = .idle ∧ sp = .xfer ∧ i = s.w.hIdx.toNat) ∨
      (s.w.hStep = .clear ∧ sp = .capb)
    | .pstep =>
      (s.r.pStep = .copy ∧ sp = .frmb ∧ i = s.r.pIdx.toNat) ∨
      (s.r.pStep = .fbclr ∧ sp = .frmb) ∨
      (s.r.pStep = .reset ∧ s.build.policy = .timeout ∧ sp = .capb)
    | .reset => True
    | _ => False

/-! ### What a step is called, and how it moves the sequencers -/

/-- The name of a step in the spec's rules: the mnemonic of the command it executes, else the step's own name; an illegal word,
and a step of a port that takes no word, have none (spec/30_encoding.md R94, R103). -/
def stepName (e : Event) (s : State) : Option String :=
  match takenCommand e s with
  | some i => some i.mnemonic
  | none =>
    match e with
    | .hstep => some "HSTEP"
    | .pstep => some "PSTEP"
    | .syncW => some "SYNC_W"
    | .syncR => some "SYNC_R"
    | .reset => some "RESET"
    | .wWord _ | .rWord _ | .rTake => none

/-- The transition table of `h_step` (spec/44_arithmetic_and_sequencing.md R246). -/
def nextHStep (e : Event) (s : State) : HStep :=
  match s.w.hStep, e with
  | .idle, _ =>
    match takenCommand e s with
    | some (.irq i) =>
      if i = s.build.inst.toNat ∧ s.build.policy ≠ .timeout ∧ s.w.irqPending = true then
        if s.build.policy = .idle ∧ s.slotOccW = true then .clear else .copy
      else .idle
    | _ => .idle
  | .copy, .hstep => if s.w.hIdx.toNat < s.w.hCount.toNat then .copy else .clear
  | .clear, .hstep => .rearm
  | .rearm, .hstep => .idle
  | h, _ => h

/-- The consumer has something to drain (spec/43_consumer.md R220, R221). -/
def pollReady (s : State) : Bool :=
  match s.build.policy with
  | .timeout =>
    s.w.ceArmed && decide (0 < s.w.cePtr.toNat) && decide (s.build.t < (s.w.now - s.w.lastTime).toNat)
  | .idle => s.r.xwR2 != s.r.xr
  | .ring => decide (0 < s.lenR)

/-- The transition table of `p_step` (spec/44_arithmetic_and_sequencing.md R246). -/
def nextPStep (e : Event) (s : State) : PStep :=
  match s.r.pStep, e with
  | .idle, _ => if takenCommand e s = some .poll ∧ pollReady s = true then .copy else .idle
  | .copy, .pstep => if s.r.pIdx.toNat < s.r.pCount.toNat then .copy else .deliver
  | .deliver, .pstep => .fbclr
  | .fbclr, .pstep => .reset
  | .reset, .pstep => .idle
  | p, _ => p

/-- The bytes a ready poll drains: the capture buffer's, the slot's, or what the consumer sees of the ring
(spec/43_consumer.md R220, R221). -/
def pollBytes (s : State) : List Byte :=
  match s.build.policy with
  | .timeout => s.span .capb s.w.cePtr.toNat
  | .idle => s.span .xfer s.w.xferLen.toNat
  | .ring => s.ringContents.take s.lenR

/-! ### Domains and measures -/

/-- The step belongs to the W domain (spec/00_scope.md R18, R19). -/
def isWStep : Event → Bool
  | .wWord _ | .hstep | .syncW => true
  | .rWord _ | .rTake | .pstep | .syncR | .reset => false

/-- The step belongs to the R domain (spec/00_scope.md R18, R19). -/
def isRStep : Event → Bool
  | .rWord _ | .rTake | .pstep | .syncR => true
  | .wWord _ | .hstep | .syncW | .reset => false

/-- How many `HSTEP`s the running handler still needs at most (spec/41_boundary_handler.md R152). -/
def handlerMeasure (s : State) : Nat :=
  match s.w.hStep with
  | .idle => 0
  | .rearm => 1
  | .clear => 2
  | .copy => (s.w.hCount.toNat - s.w.hIdx.toNat) + 3

/-- How many `PSTEP`s the running poll still needs (spec/43_consumer.md R223). -/
def pollMeasure (s : State) : Nat :=
  match s.r.pStep with
  | .idle => 0
  | .reset => 1
  | .fbclr => 2
  | .deliver => 3
  | .copy => (s.r.pCount.toNat - s.r.pIdx.toNat) + 4

/-- `k` steps of one agent, one after another. -/
def iterate (e : Event) : Nat → State → Result
  | 0, s => .next s
  | k + 1, s => andThen (perform e s) (iterate e k)

/-! ### Premises of progress claims -/

/-- Two words differ in exactly one bit (spec/20_memory.md R82). -/
def oneBitApart (x y : Ptr) : Prop := ∃ i, i < 8 ∧ x ^^^ y = (1 : Ptr) <<< i

/-- The first `n` steps of a schedule, from a state. -/
def runSchedule (f : Nat → Event) : Nat → State → Result
  | 0, s => .next s
  | n + 1, s => andThen (runSchedule f n s) (perform (f n))

/-- A schedule is fair (spec/70_reset_and_hazards.md R296 a, b, c): the autonomous steps, the synchronisers and the R port each
come again and again. An event whose agent is not enabled is no step, so fairness to an enabled agent follows. -/
def FairSchedule (f : Nat → Event) : Prop :=
  ∀ n, (∃ m, n ≤ m ∧ f m = .hstep) ∧ (∃ m, n ≤ m ∧ f m = .pstep) ∧ (∃ m, n ≤ m ∧ f m = .syncW) ∧
    (∃ m, n ≤ m ∧ f m = .syncR) ∧ (∃ m, n ≤ m ∧ f m = .rTake)

end Sys2Proof.Machine
end

