-- ==== Sys2Proof/Certificates/Slice0/Obligations.lean ====
section
/-! DEFINITION. The statements about the block, from the numbered rules of spec/. A statement that holds only of states that meet
the block's invariant takes `s.Inv` as a premise; that the invariant holds at reset and is kept by every step are statements of
their own. -/

open Sys2Proof Sys2Proof.Machine

/-! ### Encoding -/

/-- For every well-formed command, decoding its word on its port gives it back (spec/30_encoding.md R91 to R95). -/
def Obligations.DecodeOfEncodeIsIdentity : Prop :=
  ∀ i : Instr, i.wellFormed = true → decode i.port (encode i) = .ok i

/-- Every word that decodes on a port is the word of exactly the command it decodes to, which belongs to that port
(spec/30_encoding.md R94, R95). -/
def Obligations.DecodedWordReencodes : Prop :=
  ∀ (p : Port) (c : Cmd) (i : Instr), decode p c = .ok i → encode i = c ∧ i.port = p ∧ i.wellFormed = true

/-- Which words are commands, told by the fields alone: the operation code and the port select the command, and every other
field must be zero (spec/30_encoding.md R91, R92, R94, R95). -/
def Obligations.DecodeReadsTheFields : Prop :=
  ∀ (p : Port) (c : Cmd), (decode p c).toOption =
    match p, (cmdOp c).toNat, (cmdInst c).toNat, (cmdArg c).toNat with
    | p, 0, 0, 0 => some (.nop p)
    | .w, 1, 0, _ => some (.rxbyte (cmdArg c))
    | .w, 2, 0, 0 => some .rxidle
    | .w, 3, 0, 0 => some .tick
    | .w, 4, i, 0 => some (.irq i)
    | .w, 5, 0, n => some (.arm n)
    | .w, 6, 0, 0 => some .stop
    | .w, 7, 0, _ => some (.push (cmdArg c))
    | .r, 8, 0, 0 => some .poll
    | .r, 9, 0, 0 => some .pop
    | .r, 10, 0, 0 => some .len
    | _, _, _, _ => none

/-- Words written out from the spec's encoding: seven decode to their commands, and one is a command of the other port and decodes
to none (spec/95_test_vectors.md 2.1). The spec calls it only ILLEGAL; the name of the cause, `wrongPort`, is the model's choice
(notes/assumptions/15.md). -/
def Obligations.WrittenWordsDecode : Prop :=
  decode .w 0b0000000000000000 = .ok (.nop .w) ∧ decode .r 0b0000000000000000 = .ok (.nop .r) ∧
  decode .w 0b0001000001001000 = .ok (.rxbyte 0x48) ∧ decode .w 0b0100111100000000 = .ok (.irq 15) ∧
  decode .w 0b0101000010000000 = .ok (.arm 128) ∧ decode .w 0b0111000010101010 = .ok (.push 0xAA) ∧
  decode .r 0b1010000000000000 = .ok .len ∧ decode .w 0b1010000000000000 = .error .wrongPort

/-- An illegal word changes nothing but its port's flag and is answered `(ILL, 0)`; the reserved operation codes are illegal on
both ports (spec/30_encoding.md R96). -/
def Obligations.IllegalWordOnlyRecords : Prop :=
  (∀ (c : Cmd) (e : DecodeError) (s : State), decode .w c = .error e →
    runWord .w c s = .next { s with w := { s.w with illW := true }, wRsp := some ⟨.ill, 0⟩ }) ∧
  (∀ (c : Cmd) (e : DecodeError) (s : State), decode .r c = .error e →
    runWord .r c s = .next { s with r := { s.r with illR := true }, rRsp := some ⟨.ill, 0⟩ }) ∧
  (∀ (p : Port) (c : Cmd), 0xB ≤ (cmdOp c).toNat → ∃ e, decode p c = .error e)

/-! ### The step -/

/-- A step runs the decoded command. The step performs the event the schedule gives: the agenda's first, or, where the agenda is
empty, the free one. A word presented on the W port, a word offered to a ready R port where none waits, and the oldest waiting
word at a ready R port each run the command they decode to, with the last responses cleared (the agenda, the free schedule, the
queue of waiting words and the clearing are the model's choices, notes/assumptions/7.md, 9.md, 10.md). -/
def Obligations.StepRunsTheDecodedCommand : Prop :=
  (∀ (s : State) (c : Cmd) (rest : List Event) (i : Instr), s.agenda = .wWord c :: rest → decode .w c = .ok i →
    step s = exec i { s with agenda := rest, wRsp := none, rRsp := none }) ∧
  (∀ (s : State) (c : Cmd) (rest : List Event) (i : Instr), s.agenda = .rWord c :: rest → decode .r c = .ok i →
    s.r.pStep = .idle → s.rWait = [] →
    step s = exec i { s with agenda := rest, wRsp := none, rRsp := none }) ∧
  (∀ (s : State) (c : Cmd) (ws : List Cmd) (rest : List Event) (i : Instr), s.agenda = .rTake :: rest →
    decode .r c = .ok i → s.r.pStep = .idle → s.rWait = c :: ws →
    step s = exec i { s with agenda := rest, rWait := ws, wRsp := none, rRsp := none }) ∧
  (∀ (s : State) (e : Event) (rest : List Event), s.agenda = e :: rest →
    step s = perform e { s with agenda := rest }) ∧
  (∀ s : State, s.agenda = [] → step s = perform (Config.nextEvent s.choice) { s with choice := s.choice + 1 }) ∧
  (∀ (s : State) (c : Cmd) (i : Instr), decode .w c = .ok i →
    perform (.wWord c) s = exec i { s with wRsp := none, rRsp := none }) ∧
  (∀ (s : State) (c : Cmd) (i : Instr), decode .r c = .ok i → s.r.pStep = .idle → s.rWait = [] →
    perform (.rWord c) s = exec i { s with wRsp := none, rRsp := none })

/-- While a poll runs the R port takes no word: an offered word, legal or not, waits behind the older ones, nothing is executed,
answered or counted, and no R-port command has an effect; when the poll is over the oldest waiting word is taken
(spec/30_encoding.md R98; the queue of waiting words is the model's, notes/assumptions/9.md). -/
def Obligations.RunningPollHoldsTheRPort : Prop :=
  (∀ (s : State) (c : Cmd), s.r.pStep ≠ .idle →
    perform (.rWord c) s = .next { s with rWait := s.rWait ++ [c], wRsp := none, rRsp := none } ∧
    perform .rTake s = .next { s with wRsp := none, rRsp := none }) ∧
  (∀ (s : State) (i : Instr), s.r.pStep ≠ .idle → i.port = .r → exec i s = .next s) ∧
  (∀ (s : State) (c d : Cmd) (ws : List Cmd), s.r.pStep = .idle → s.rWait = c :: ws →
    perform .rTake s = runWord .r c { s with rWait := ws, wRsp := none, rRsp := none } ∧
    perform (.rWord d) s = runWord .r c { s with rWait := ws ++ [d], wRsp := none, rRsp := none })

/-! ### The commands -/

/-- `NOP` answers `(OK, 0)` on its port and changes nothing else (spec/40_line_capture.md R133). -/
def Obligations.NopOnlyAnswers : Prop :=
  (∀ s : State, exec (.nop .w) s = .next { s with wRsp := some ⟨.ok, 0⟩ }) ∧
  (∀ s : State, s.r.pStep = .idle → exec (.nop .r) s = .next { s with rRsp := some ⟨.ok, 0⟩ })

/-- `RXBYTE b`: the byte is stored at `ce_ptr` if the engine is armed and not full, raising the boundary event when it fills the
buffer under a policy that has a handler; otherwise it is dropped and counted; `last_time` is stamped in every case
(spec/40_line_capture.md R121). The premise is the engine's bound of spec/10_state.md R45 (a). -/
def Obligations.RxbyteStoresOrDrops : Prop :=
  ∀ (b : Byte) (s : State), s.w.ceLen.toNat ≤ s.build.cap → ∃ t, exec (.rxbyte b) s = .next t ∧
    if s.w.ceArmed = true ∧ s.w.cePtr.toNat < s.w.ceLen.toNat then
      wCommandFrame s t .ok 0 ∧
      t.w = { s.w with lastTime := s.w.now, cePtr := s.w.cePtr + 1,
                       irqPending := if s.build.policy ≠ .timeout ∧ s.w.cePtr.toNat + 1 = s.w.ceLen.toNat then true
                                     else s.w.irqPending } ∧
      t.byteAt .capb s.w.cePtr.toNat = b ∧ sameMemoryBut s t (fun sp i => sp = .capb ∧ i = s.w.cePtr.toNat)
    else
      wCommandFrame s t .nak 0 ∧ sameMemory s t ∧
      t.w = { s.w with lastTime := s.w.now, ovfCap := true, dropLineCnt := satAdd s.w.dropLineCnt 1 }

/-- `RXIDLE` raises the boundary event if there is a handler, the engine is armed and a byte was captured; otherwise it does
nothing (spec/40_line_capture.md R124). -/
def Obligations.RxidleRaisesTheEvent : Prop :=
  ∀ s : State, ∃ t, exec .rxidle s = .next t ∧ sameMemory s t ∧
    if s.build.policy ≠ .timeout ∧ s.w.ceArmed = true ∧ 0 < s.w.cePtr.toNat then
      wCommandFrame s t .ok 0 ∧ t.w = { s.w with irqPending := true }
    else wCommandFrame s t .nak 0 ∧ t.w = s.w

/-- `TICK` advances the time by one, wrapping at 2^32 (spec/40_line_capture.md R126). -/
def Obligations.TickAdvancesTime : Prop :=
  ∀ s : State, ∃ t, exec .tick s = .next t ∧ wCommandFrame s t .ok 0 ∧ sameMemory s t ∧
    t.w = { s.w with now := t.w.now } ∧ t.w.now.toNat = (s.w.now.toNat + 1) % 2 ^ 32

/-- `IRQ i`: a foreign instance is counted; with nothing to serve nothing happens; otherwise the handler is entered with the
event's byte count, and under `IDLE` an occupied slot rejects the frame whole (spec/41_boundary_handler.md R151). -/
def Obligations.IrqCountsRefusesOrEnters : Prop :=
  ∀ (i : Nat) (s : State), ∃ t, exec (.irq i) s = .next t ∧ sameMemory s t ∧
    if i ≠ s.build.inst.toNat then
      wCommandFrame s t .nak 0 ∧ t.w = { s.w with spur := true, spurCnt := satAdd s.w.spurCnt 1 }
    else if s.build.policy = .timeout ∨ s.w.irqPending = false ∨ s.w.hStep ≠ .idle then
      wCommandFrame s t .nak 0 ∧ t.w = s.w
    else if s.build.policy = .idle ∧ s.w.xw ≠ s.w.xrW2 then
      wCommandFrame s t .ok s.w.cePtr ∧
      t.w = { s.w with ceArmed := false, hCount := s.w.cePtr, hIdx := 0, irqPending := false, ovfSlot := true,
                       dropSlotCnt := satAdd s.w.dropSlotCnt s.w.cePtr.toNat, hStep := .clear }
    else
      wCommandFrame s t .ok s.w.cePtr ∧
      t.w = { s.w with ceArmed := false, hCount := s.w.cePtr, hIdx := 0, irqPending := false, hStep := .copy }

/-- `ARM n` arms the engine for `n` bytes if `n` is 1 to `CAP`, the engine is not armed and no handler or timeout drain runs;
otherwise it does nothing (spec/40_line_capture.md R129). -/
def Obligations.ArmLoadsTheEngine : Prop :=
  ∀ (n : Nat) (s : State), ∃ t, exec (.arm n) s = .next t ∧ sameMemory s t ∧
    if (1 ≤ n ∧ n ≤ s.build.cap) ∧ s.w.ceArmed = false ∧ s.w.hStep = .idle ∧ s.r.toReady = false then
      wCommandFrame s t .ok 0 ∧ t.w.ceLen.toNat = n ∧
      t.w = { s.w with ceLen := t.w.ceLen, cePtr := 0, ceArmed := true, irqPending := false }
    else wCommandFrame s t .nak 0 ∧ t.w = s.w

/-- `STOP` halts an armed engine and withdraws a pending event when no handler runs; otherwise it does nothing
(spec/40_line_capture.md R131). -/
def Obligations.StopHaltsTheEngine : Prop :=
  ∀ s : State, ∃ t, exec .stop s = .next t ∧ sameMemory s t ∧
    if s.w.ceArmed = true ∧ s.w.hStep = .idle then
      wCommandFrame s t .ok 0 ∧ t.w = { s.w with ceArmed := false, irqPending := false }
    else wCommandFrame s t .nak 0 ∧ t.w = s.w

/-- `PUSH b`: refused without a record while a handler owns the write port, rejected and counted when the producer sees the ring
full, otherwise appended at the tail (spec/42_ring.md R181). -/
def Obligations.PushAppendsOrRejects : Prop :=
  ∀ (b : Byte) (s : State), ∃ t, exec (.push b) s = .next t ∧
    if s.build.policy = .ring ∧ s.w.hStep ≠ .idle then wCommandFrame s t .nak 0 ∧ t.w = s.w ∧ sameMemory s t
    else if s.lenW = s.build.c then
      wCommandFrame s t .nak 0 ∧ sameMemory s t ∧
      t.w = { s.w with ovfRing := true, dropRingCnt := satAdd s.w.dropRingCnt 1 }
    else
      wCommandFrame s t .ok 0 ∧ t.w = { s.w with wbin := t.w.wbin } ∧
      t.w.wbin.toNat = (s.w.wbin.toNat + 1) % s.build.modulus ∧
      t.byteAt .ring (s.w.wbin.toNat % s.build.c) = b ∧
      sameMemoryBut s t (fun sp i => sp = .ring ∧ i = s.w.wbin.toNat % s.build.c)

/-- `POP` on a ready port: empty as the consumer sees it, `(NAK, 0)` and nothing else; otherwise the byte at the head is
answered and the read pointer advances (spec/42_ring.md R186). -/
def Obligations.PopRemovesOrAnswersEmpty : Prop :=
  ∀ s : State, s.r.pStep = .idle → ∃ t, exec .pop s = .next t ∧ sameMemory s t ∧
    if s.lenR = 0 then rCommandFrame s t .nak 0 ∧ t.r = s.r
    else
      rCommandFrame s t .ok (s.byteAt .ring (s.r.rbin.toNat % s.build.c)) ∧
      t.r = { s.r with rbin := t.r.rbin } ∧ t.r.rbin.toNat = (s.r.rbin.toNat + 1) % s.build.modulus

/-- `LEN` on a ready port answers the consumer's length and changes nothing (spec/42_ring.md R190). -/
def Obligations.LenAnswersTheConsumerView : Prop :=
  ∀ s : State, s.r.pStep = .idle →
    ∃ v : Byte, v.toNat = s.lenR ∧ exec .len s = .next { s with rRsp := some ⟨.ok, v⟩ }

/-- `POLL` on a ready port: what is ready, how many bytes the drain takes and what is halted, by policy; not ready, `(NAK, 0)`
and nothing else; accepted, no response yet (spec/43_consumer.md R221). -/
def Obligations.PollStartsOrDeclines : Prop :=
  ∀ s : State, s.r.pStep = .idle → ∃ t, exec .poll s = .next t ∧ sameMemory s t ∧ sameSurroundings s t ∧
    t.wRsp = s.wRsp ∧
    match s.build.policy with
    | .timeout =>
      if s.w.ceArmed = true ∧ 0 < s.w.cePtr.toNat ∧ s.build.t < (s.w.now - s.w.lastTime).toNat then
        t.rRsp = s.rRsp ∧ t.w = { s.w with ceArmed := false } ∧
        t.r = { s.r with toReady := true, pCount := s.w.cePtr, pIdx := 0, pStep := .copy }
      else t.rRsp = some ⟨.nak, 0⟩ ∧ t.w = s.w ∧ t.r = s.r
    | .idle =>
      if s.r.xwR2 ≠ s.r.xr then
        t.rRsp = s.rRsp ∧ t.w = s.w ∧ t.r = { s.r with pCount := s.w.xferLen, pIdx := 0, pStep := .copy }
      else t.rRsp = some ⟨.nak, 0⟩ ∧ t.w = s.w ∧ t.r = s.r
    | .ring =>
      if 0 < s.lenR then
        t.rRsp = s.rRsp ∧ t.w = s.w ∧ t.r.pCount.toNat = s.lenR ∧
        t.r = { s.r with pCount := t.r.pCount, pIdx := 0, pStep := .copy }
      else t.rRsp = some ⟨.nak, 0⟩ ∧ t.w = s.w ∧ t.r = s.r

/-! ### The autonomous steps -/

/-- `SYNC_W` and `SYNC_R`: stage 2 takes the old stage 1, stage 1 the other side's gray pointer and toggle as they are; nothing
else changes (spec/42_ring.md R196, R197). -/
def Obligations.SynchronisersMoveBothStages : Prop :=
  (∀ s : State, ∃ t, perform .syncW s = .next t ∧ autonomousFrame s t ∧ sameMemory s t ∧ t.r = s.r ∧
    t.w = { s.w with rgW2 := s.w.rgW1, rgW1 := s.r.rbin ^^^ (s.r.rbin >>> 1), xrW2 := s.w.xrW1, xrW1 := s.r.xr }) ∧
  (∀ s : State, ∃ t, perform .syncR s = .next t ∧ autonomousFrame s t ∧ sameMemory s t ∧ t.w = s.w ∧
    t.r = { s.r with wgR2 := s.r.wgR1, wgR1 := s.w.wbin ^^^ (s.w.wbin >>> 1), xwR2 := s.r.xwR1, xwR1 := s.w.xw })

/-- `HSTEP` in `H_COPY` under `RING`: push one byte of the event, or reject all the rest when the producer sees the ring full, or
end the copy (spec/41_boundary_handler.md R153). The premise is the handler's bound of spec/10_state.md R45. -/
def Obligations.HandlerPushesOneByte : Prop :=
  ∀ s : State, s.build.policy = .ring → s.w.hStep = .copy → s.w.hCount.toNat ≤ s.build.cap →
    ∃ t, perform .hstep s = .next t ∧ autonomousFrame s t ∧ t.r = s.r ∧
      if s.w.hIdx.toNat < s.w.hCount.toNat then
        if s.lenW < s.build.c then
          t.w = { s.w with wbin := t.w.wbin, hIdx := s.w.hIdx + 1 } ∧
          t.w.wbin.toNat = (s.w.wbin.toNat + 1) % s.build.modulus ∧
          t.byteAt .ring (s.w.wbin.toNat % s.build.c) = s.byteAt .capb s.w.hIdx.toNat ∧
          sameMemoryBut s t (fun sp i => sp = .ring ∧ i = s.w.wbin.toNat % s.build.c)
        else
          sameMemory s t ∧
          t.w = { s.w with ovfRing := true, hIdx := s.w.hCount,
                           dropRingCnt := satAdd s.w.dropRingCnt (s.w.hCount.toNat - s.w.hIdx.toNat) }
      else sameMemory s t ∧ t.w = { s.w with hStep := .clear }

/-- `HSTEP` in `H_COPY` under `IDLE`: copy one byte into the slot, or publish the slot (spec/41_boundary_handler.md R154). The
premise is the handler's bound of spec/10_state.md R45. -/
def Obligations.HandlerFillsAndPublishesTheSlot : Prop :=
  ∀ s : State, s.build.policy = .idle → s.w.hStep = .copy → s.w.hCount.toNat ≤ s.build.cap →
    ∃ t, perform .hstep s = .next t ∧ autonomousFrame s t ∧ t.r = s.r ∧
      if s.w.hIdx.toNat < s.w.hCount.toNat then
        t.w = { s.w with hIdx := s.w.hIdx + 1 } ∧
        t.byteAt .xfer s.w.hIdx.toNat = s.byteAt .capb s.w.hIdx.toNat ∧
        sameMemoryBut s t (fun sp i => sp = .xfer ∧ i = s.w.hIdx.toNat)
      else sameMemory s t ∧ t.w = { s.w with xferLen := s.w.hCount, xw := !s.w.xw, hStep := .clear }

/-- `HSTEP` in `H_CLEAR`: every byte of `CAPB` becomes 0x00 (spec/41_boundary_handler.md R156). -/
def Obligations.HandlerClearsTheCaptureBuffer : Prop :=
  ∀ s : State, s.w.hStep = .clear → ∃ t, perform .hstep s = .next t ∧ autonomousFrame s t ∧ t.r = s.r ∧
    t.w = { s.w with hStep := .rearm } ∧ (∀ i, i < s.build.cap → t.byteAt .capb i = 0) ∧
    sameMemoryBut s t (fun sp _ => sp = .capb)

/-- `HSTEP` in `H_REARM`: the engine is armed at offset 0 with its count kept, and the handler is over
(spec/41_boundary_handler.md R158). -/
def Obligations.HandlerRearmsTheEngine : Prop :=
  ∀ s : State, s.w.hStep = .rearm → ∃ t, perform .hstep s = .next t ∧ autonomousFrame s t ∧ t.r = s.r ∧
    sameMemory s t ∧ t.w = { s.w with cePtr := 0, ceArmed := true, hStep := .idle }

/-- `PSTEP` in `P_COPY`: one byte of the policy's source goes to `FRMB[p_idx]`, with a pop under `RING`; or the drain ends
(spec/43_consumer.md R224). The premises are the consumer's bounds of spec/10_state.md R45, R46. -/
def Obligations.PollCopiesOneByte : Prop :=
  ∀ s : State, s.r.pStep = .copy → s.r.pCount.toNat ≤ s.build.fb →
    (s.build.policy ≠ .ring → s.r.pCount.toNat ≤ s.build.cap) →
    ∃ t, perform .pstep s = .next t ∧ autonomousFrame s t ∧ t.w = s.w ∧
      if s.r.pIdx.toNat < s.r.pCount.toNat then
        sameMemoryBut s t (fun sp i => sp = .frmb ∧ i = s.r.pIdx.toNat) ∧
        match s.build.policy with
        | .timeout => t.r = { s.r with pIdx := s.r.pIdx + 1 } ∧
            t.byteAt .frmb s.r.pIdx.toNat = s.byteAt .capb s.r.pIdx.toNat
        | .idle => t.r = { s.r with pIdx := s.r.pIdx + 1 } ∧
            t.byteAt .frmb s.r.pIdx.toNat = s.byteAt .xfer s.r.pIdx.toNat
        | .ring => t.r = { s.r with pIdx := s.r.pIdx + 1, rbin := t.r.rbin } ∧
            t.r.rbin.toNat = (s.r.rbin.toNat + 1) % s.build.modulus ∧
            t.byteAt .frmb s.r.pIdx.toNat = s.byteAt .ring (s.r.rbin.toNat % s.build.c)
      else sameMemory s t ∧ t.r = { s.r with fbLen := s.r.pCount, pStep := .deliver }

/-- `PSTEP` in `P_DELIVER`: the `fb_len` bytes of `FRMB`, in order, join the delivered frames (spec/43_consumer.md R226). The
premise is the bound of spec/10_state.md R37. -/
def Obligations.PollDeliversTheFrame : Prop :=
  ∀ s : State, s.r.pStep = .deliver → s.r.fbLen.toNat ≤ s.build.fb → ∃ t, perform .pstep s = .next t ∧
    t.outFrames = s.outFrames ++ [(List.range s.r.fbLen.toNat).map fun i => s.byteAt .frmb i] ∧
    t.r = { s.r with pStep := .fbclr } ∧ t.w = s.w ∧ sameMemory s t ∧
    autonomousFrame { s with outFrames := t.outFrames } t

/-- `PSTEP` in `P_FBCLR`: every byte of `FRMB` becomes 0x00 (spec/43_consumer.md R227). -/
def Obligations.PollClearsTheFrameBuffer : Prop :=
  ∀ s : State, s.r.pStep = .fbclr → ∃ t, perform .pstep s = .next t ∧ autonomousFrame s t ∧ t.w = s.w ∧
    t.r = { s.r with fbLen := 0, pStep := .reset } ∧ (∀ i, i < max s.build.cap s.build.c → t.byteAt .frmb i = 0) ∧
    sameMemoryBut s t (fun sp _ => sp = .frmb)

/-- `PSTEP` in `P_RESET`: the pending-data condition of the policy is removed, the sequencer goes idle and the `POLL` is answered
with the number of bytes delivered (spec/43_consumer.md R229). -/
def Obligations.PollReleasesAndAnswers : Prop :=
  ∀ s : State, s.r.pStep = .reset → ∃ t, perform .pstep s = .next t ∧ t.rRsp = some ⟨.ok, s.r.pCount⟩ ∧
    t.wRsp = none ∧ sameSurroundings s t ∧
    match s.build.policy with
    | .timeout =>
      t.r = { s.r with pStep := .idle, toReady := false } ∧ t.w = { s.w with cePtr := 0, ceArmed := true } ∧
      (∀ i, i < s.build.cap → t.byteAt .capb i = 0) ∧ sameMemoryBut s t (fun sp _ => sp = .capb)
    | .idle => t.r = { s.r with pStep := .idle, xr := !s.r.xr } ∧ t.w = s.w ∧ sameMemory s t
    | .ring => t.r = { s.r with pStep := .idle } ∧ t.w = s.w ∧ sameMemory s t

/-- `RESET` from any state: every register is 0, the trace is empty, no response is given, the memories hold unspecified bytes,
and every view reads empty, free and idle (spec/70_reset_and_hazards.md R280). The waiting words it drops and the environment's
schedule it keeps are the model's own (notes/assumptions/7.md, 9.md). -/
def Obligations.ResetClearsEveryRegister : Prop :=
  ∀ s : State, ∃ t, perform .reset s = .next t ∧ t.build = s.build ∧
    t.w = { ceArmed := false, cePtr := 0, ceLen := 0, irqPending := false, hStep := .idle, hCount := 0, hIdx := 0,
            now := 0, lastTime := 0, wbin := 0, rgW1 := 0, rgW2 := 0, xw := false, xferLen := 0, xrW1 := false,
            xrW2 := false, ovfRing := false, ovfCap := false, ovfSlot := false, spur := false, illW := false,
            dropRingCnt := 0, dropLineCnt := 0, dropSlotCnt := 0, spurCnt := 0 } ∧
    t.r = { rbin := 0, wgR1 := 0, wgR2 := 0, xr := false, xwR1 := false, xwR2 := false, pStep := .idle, pCount := 0,
            pIdx := 0, fbLen := 0, toReady := false, illR := false } ∧
    t.outFrames = [] ∧ t.wRsp = none ∧ t.rRsp = none ∧ t.rWait = [] ∧ t.agenda = s.agenda ∧ t.choice = s.choice ∧
    (∀ sp i, t.byteAt sp i = Config.unspecifiedByte t.epoch sp i) ∧
    t.lenTrue = 0 ∧ t.lenW = 0 ∧ t.lenR = 0 ∧ t.slotOccTrue = false ∧ t.slotOccW = false ∧ t.slotRdyR = false ∧
    t.bdState = .idle

/-! ### Arithmetic -/

/-- The saturating add: the sum below 2^32, else the largest value, so a counter never falls and a saturated one stays
(spec/00_scope.md R12, spec/44_arithmetic_and_sequencing.md R244). -/
def Obligations.SaturatingAddNeverWraps : Prop :=
  ∀ (c : Word32) (k : Nat), (satAdd c k).toNat = min (c.toNat + k) (2 ^ 32 - 1) ∧ c.toNat ≤ (satAdd c k).toNat ∧
    (c.toNat = 2 ^ 32 - 1 → satAdd c k = c)

/-- The gray code laws for every pointer width: the two functions are inverse and stay inside the width, neighbours differ in
exactly one bit (the wrap included), zero is zero, and adding `C` inverts the top two bits, so that the gray-only tests for
empty and full agree with the binary ones (spec/44_arithmetic_and_sequencing.md R242). -/
def Obligations.GrayCodeLaws : Prop :=
  ∀ b : Build, b2g 0 = 0 ∧
    (∀ p : Ptr, p.toNat < b.modulus →
      g2b (b2g p) = p ∧ b2g (g2b p) = p ∧ (b2g p).toNat < b.modulus ∧ (g2b p).toNat < b.modulus ∧
      oneBitApart (b2g p) (b2g (ptrNext b p)) ∧
      b2g (BitVec.ofNat 8 ((p.toNat + b.c) % b.modulus)) = b2g p ^^^ ((3 : Ptr) <<< (b.pw - 2))) ∧
    (∀ p g : Ptr, p.toNat < b.modulus → g.toNat < b.modulus →
      (ptrDiff b (g2b g) p = 0 ↔ g = b2g p) ∧
      (ptrDiff b p (g2b g) = b.c ↔ b2g p = g ^^^ ((3 : Ptr) <<< (b.pw - 2))))

/-! ### Invariants -/

/-- The invariant, and that every readable byte has been written, hold after reset of every build (spec/10_state.md R43 to R46, R48,
spec/20_memory.md R66). Parts of the invariant are the model's choice: the memories' canonical form (notes/assumptions/5.md), the
pointers' 8-bit form (3.md), and `h_count` bounded by `CAP`, and by `ce_len` only while a handler runs (16.md). -/
def Obligations.InvHoldsAtReset : Prop :=
  (∀ b : Build, (State.resetOf b).Inv ∧ (State.resetOf b).Written) ∧ State.reset.Inv ∧ State.reset.Written

/-- Every step of every agent keeps the invariant: the pointers' order around the circle, the slot's toggles, the capture, handler
and consumer bounds (spec/10_state.md R43 to R46). Parts of the invariant are the model's choice: the memories' canonical form
(notes/assumptions/5.md), the pointers' 8-bit form (3.md), and `h_count` bounded by `CAP`, and by `ce_len` only while a handler
runs (16.md; `HandlerCountFitsTheArming` says what else of R45 (e) the rules keep). -/
def Obligations.EveryStepKeepsInv : Prop :=
  (∀ (e : Event) (s t : State), s.Inv → perform e s = .next t → t.Inv) ∧
  (∀ s t : State, s.Inv → step s = .next t → t.Inv)

/-- No step of the block faults or stops: from every state that meets the invariant every agent's step completes, and so does the
machine's step; every index it forms is in range (spec/60_exceptions.md R257, spec/10_state.md R46). -/
def Obligations.NoStepStops : Prop :=
  ∀ s : State, s.Inv → (∀ e, ∃ t, perform e s = .next t) ∧ (∀ i, ∃ t, exec i s = .next t) ∧ ∃ t, step s = .next t

/-- In every reachable state of every build and interleaving `0 ≤ len_r ≤ len_true ≤ len_w ≤ C`, because it holds in every state
with the invariant (spec/10_state.md R43). -/
def Obligations.ReachableViewsBracketTheLength : Prop :=
  (∀ s : State, s.Inv → s.lenR ≤ s.lenTrue ∧ s.lenTrue ≤ s.lenW ∧ s.lenW ≤ s.build.c) ∧
  (∀ s : State, Reachable s → s.lenR ≤ s.lenTrue ∧ s.lenTrue ≤ s.lenW ∧ s.lenW ≤ s.build.c ∧
    s.ringContents.length = s.lenTrue)

/-- The slot's handover: ready implies occupied, free to the producer implies free, and while the consumer sees the slot ready
neither its bytes nor its length change until the consumer inverts its toggle, reset apart (spec/10_state.md R44). -/
def Obligations.SlotHandoverIsSafe : Prop :=
  ∀ s : State, s.Inv →
    (s.slotRdyR = true → s.slotOccTrue = true) ∧ (s.slotOccW = false → s.slotOccTrue = false) ∧
    ∀ (e : Event) (t : State), e ≠ .reset → s.slotRdyR = true → perform e s = .next t → t.r.xr = s.r.xr →
      t.w.xferLen = s.w.xferLen ∧ ∀ i, i < s.w.xferLen.toNat → t.byteAt .xfer i = s.byteAt .xfer i

/-- Every byte a rule can still read has been written since reset, and every step keeps this (spec/20_memory.md R66). -/
def Obligations.EveryStepKeepsWritten : Prop :=
  ∀ (e : Event) (s t : State), s.Inv → s.Written → perform e s = .next t → t.Written

/-- The unspecified reset contents of the memories never reach a register, a response, a written byte, a delivered frame or the pin
`frm_data`: replacing them all changes no step but by themselves, and no value of the pin (spec/20_memory.md R66,
spec/70_reset_and_hazards.md R282; where the pin shows no value is the model's choice, notes/assumptions/19.md). -/
def Obligations.UnspecifiedBytesNeverEscape : Prop :=
  ∀ (s : State) (k : Nat), s.Inv → s.Written →
    (∀ e : Event, e ≠ .reset → ∃ t, perform e s = .next t ∧ perform e { s with epoch := k } = .next { t with epoch := k }) ∧
    ∀ i : Byte, ({ s with epoch := k } : State).frmData i = s.frmData i

/-! ### The ring as a queue -/

/-- Every step acts on the valid unread bytes as on a queue: an accepted byte joins at the back, a drained byte leaves at the
front, nothing is lost, duplicated or reordered (spec/42_ring.md R204). -/
def Obligations.RingRefinesAQueue : Prop :=
  ∀ (e : Event) (s t : State), s.Inv → perform e s = .next t → t.ringContents = queueAfter e s

/-- After `SETTLE` every synchroniser holds its source and all views agree (spec/42_ring.md R198). -/
def Obligations.SettledViewsAgree : Prop :=
  ∀ s : State, ∃ t, performAll settleEvents s = .next t ∧
    t.w.rgW2 = b2g t.r.rbin ∧ t.r.wgR2 = b2g t.w.wbin ∧ t.w.xrW2 = t.r.xr ∧ t.r.xwR2 = t.w.xw ∧
    t.lenW = t.lenTrue ∧ t.lenR = t.lenTrue ∧ t.slotOccW = t.slotOccTrue ∧ t.slotRdyR = t.slotOccTrue

/-- `PUT` with nothing between accepts exactly the bytes that fit the producer's view, in order, and counts one refusal if some did
not fit. With steps of the R domain and of `SYNC_W` between its `PUSH`es, as many as there may be, the accepted bytes are still a
prefix of the offered ones and join the ring in order behind the bytes that were there, from whose front the R domain may
meanwhile have taken some; a refusal is still counted once (spec/42_ring.md R200). -/
def Obligations.PutAcceptsAPrefix : Prop :=
  (∀ (bs : List Byte) (s : State), s.Inv → (s.build.policy = .ring → s.w.hStep = .idle) →
    ∃ t, put bs s = .next (min bs.length (s.build.c - s.lenW), t) ∧
      t.ringContents = s.ringContents ++ bs.take (s.build.c - s.lenW) ∧
      t.w.dropRingCnt = (if bs.length ≤ s.build.c - s.lenW then s.w.dropRingCnt else satAdd s.w.dropRingCnt 1)) ∧
  (∀ (xs : List (List Event × Byte)) (s : State), s.Inv → (s.build.policy = .ring → s.w.hStep = .idle) →
    (∀ x ∈ xs, ∀ e ∈ x.1, isRStep e = true ∨ e = .syncW) →
    ∃ n k t, putAmong xs s = .next (n, t) ∧ min xs.length (s.build.c - s.lenW) ≤ n ∧ n ≤ xs.length ∧
      k ≤ s.ringContents.length + n ∧ t.ringContents = (s.ringContents ++ (xs.map Prod.snd).take n).drop k ∧
      t.w.dropRingCnt = (if n = xs.length then s.w.dropRingCnt else satAdd s.w.dropRingCnt 1))

/-- `GET n` at a free port with nothing between returns the oldest `min(n, len_r)` bytes and removes them; with nothing visible it
changes no register and no byte. At a port that is not free it waits until the port is, and then does the same. With steps of the W
domain and of `SYNC_R` before its `LEN` and between its `POP`s, it returns the oldest bytes of the ring as its `LEN` found it, as many
as the `LEN` saw and at most `n`; the other bytes stay in their order, those pushed later behind them, and bytes that become visible
later are left (spec/42_ring.md R201, spec/30_encoding.md R98; the order of several waiting words is the model's choice,
notes/assumptions/9.md). -/
def Obligations.GetReturnsTheFront : Prop :=
  (∀ (n : Nat) (s : State), s.Inv → portFree s = true →
    ∃ t, get n s = .next (s.ringContents.take (min n s.lenR), t) ∧
      t.ringContents = s.ringContents.drop (min n s.lenR) ∧ t.lenR = s.lenR - min n s.lenR ∧
      t.w = s.w ∧ t.r = { s.r with rbin := t.r.rbin } ∧ sameMemory s t ∧ (s.lenR = 0 → t.r = s.r)) ∧
  (∀ (n : Nat) (s : State), s.Inv → portFree s = false →
    ∃ u, awaitPort s = .next u ∧ u.Inv ∧ portFree u = true ∧ get n s = get n u) ∧
  (∀ (n : Nat) (others : List (List Event)) (s : State), s.Inv → portFree s = true →
    (∀ es ∈ others, ∀ e ∈ es, isWStep e = true ∨ e = .syncR) →
    ∃ out u t added, getAmong n others s = .next (out, t) ∧ performAll (others.headD []) s = .next u ∧
      out.length = min n u.lenR ∧ out = u.ringContents.take (min n u.lenR) ∧
      t.ringContents = u.ringContents.drop (min n u.lenR) ++ added)

/-! ### Whole runs -/

/-- Under `RING`, an accepted interrupt whose `n` bytes fit the producer's view is served in exactly `n + 3` handler steps: the
captured bytes join the ring in order, `CAPB` is cleared and the engine is armed again (spec/41_boundary_handler.md R153,
R159, R161). -/
def Obligations.HandlerRunMovesTheFrame : Prop :=
  ∀ s : State, s.Inv → s.build.policy = .ring → s.w.irqPending = true → s.lenW + s.w.cePtr.toNat ≤ s.build.c →
    ∃ s1 u t, exec (.irq s.build.inst.toNat) s = .next s1 ∧
      iterate .hstep (s.w.cePtr.toNat + 2) s1 = .next u ∧ u.w.hStep = .rearm ∧
      iterate .hstep (s.w.cePtr.toNat + 3) s1 = .next t ∧ t.w.hStep = .idle ∧
      t.ringContents = s.ringContents ++ s.span .capb s.w.cePtr.toNat ∧
      t.w.ceArmed = true ∧ t.w.cePtr = 0 ∧ t.w.ceLen = s.w.ceLen ∧ t.w.dropRingCnt = s.w.dropRingCnt ∧
      (∀ i, i < s.build.cap → t.byteAt .capb i = 0) ∧ t.r = s.r

/-- Under `RING`, an accepted interrupt of which only the first `k < n` bytes fit is served in exactly `k + 4` handler steps: those
`k` bytes join the ring, the whole rest is rejected and counted, and the engine is armed again (spec/41_boundary_handler.md
R153, R159, R161, spec/60_exceptions.md R251). -/
def Obligations.HandlerRunRejectsTheRest : Prop :=
  ∀ s : State, s.Inv → s.build.policy = .ring → s.w.irqPending = true → s.build.c < s.lenW + s.w.cePtr.toNat →
    ∃ s1 u t, exec (.irq s.build.inst.toNat) s = .next s1 ∧
      iterate .hstep (s.build.c - s.lenW + 3) s1 = .next u ∧ u.w.hStep = .rearm ∧
      iterate .hstep (s.build.c - s.lenW + 4) s1 = .next t ∧ t.w.hStep = .idle ∧
      t.ringContents = s.ringContents ++ (s.span .capb s.w.cePtr.toNat).take (s.build.c - s.lenW) ∧
      t.w.ovfRing = true ∧
      t.w.dropRingCnt = satAdd s.w.dropRingCnt (s.w.cePtr.toNat - (s.build.c - s.lenW)) ∧
      t.w.ceArmed = true ∧ t.w.cePtr = 0 ∧ t.r = s.r

/-- Under `IDLE`, an accepted interrupt is served in `n + 3` handler steps that publish the captured bytes in the slot, or, when
the producer sees the slot occupied, in 2 steps that leave the slot untouched; the engine is armed again either way
(spec/41_boundary_handler.md R154, R159, R161). -/
def Obligations.HandlerRunPublishesTheSlot : Prop :=
  ∀ s : State, s.Inv → s.build.policy = .idle → s.w.irqPending = true →
    ∃ s1 u t, exec (.irq s.build.inst.toNat) s = .next s1 ∧ u.w.hStep = .rearm ∧ t.w.hStep = .idle ∧
      t.w.ceArmed = true ∧ t.w.cePtr = 0 ∧ t.r = s.r ∧
      if s.slotOccW = true then
        iterate .hstep 1 s1 = .next u ∧ iterate .hstep 2 s1 = .next t ∧
        t.w.xw = s.w.xw ∧ t.w.xferLen = s.w.xferLen ∧ ∀ i, t.byteAt .xfer i = s.byteAt .xfer i
      else
        iterate .hstep (s.w.cePtr.toNat + 2) s1 = .next u ∧ iterate .hstep (s.w.cePtr.toNat + 3) s1 = .next t ∧
        t.w.xw = !s.w.xw ∧ t.w.xferLen = s.w.cePtr ∧
        t.span .xfer s.w.cePtr.toNat = s.span .capb s.w.cePtr.toNat

/-- A ready poll delivers, in exactly `n + 4` poll steps, the `n` bytes it found: the capture buffer's, the slot's, or the front
of the ring as the consumer saw it; then it answers `(OK, n)` with the FrameBuffer clear (spec/43_consumer.md R220 to R230). -/
def Obligations.PollRunDeliversTheBytes : Prop :=
  ∀ s : State, s.Inv → s.r.pStep = .idle → pollReady s = true →
    ∃ s1 u t, exec .poll s = .next s1 ∧ s1.r.pCount.toNat = (pollBytes s).length ∧
      iterate .pstep ((pollBytes s).length + 3) s1 = .next u ∧ u.r.pStep = .reset ∧
      iterate .pstep ((pollBytes s).length + 4) s1 = .next t ∧ t.r.pStep = .idle ∧
      t.outFrames = s.outFrames ++ [pollBytes s] ∧ t.rRsp = some ⟨.ok, s1.r.pCount⟩ ∧ t.r.fbLen = 0 ∧
      (∀ i, i < s.build.fb → t.byteAt .frmb i = 0) ∧
      t.ringContents = (if s.build.policy = .ring then s.ringContents.drop s.lenR else s.ringContents) ∧
      (s.build.policy = .timeout → t.w.ceArmed = true ∧ t.w.cePtr = 0 ∧ t.r.toReady = false)

/-- A running handler and a running poll always come to their end: each `HSTEP` lowers the number of handler steps still needed,
each `PSTEP` takes one from the number of poll steps still needed, no other step changes either (reset apart), an accepted
interrupt starts at most at `h_count + 3` and an accepted `POLL` at `p_count + 4` (spec/41_boundary_handler.md R152,
spec/43_consumer.md R223). -/
def Obligations.SequencersCountDown : Prop :=
  ∀ s : State, s.Inv →
    (s.w.hStep ≠ .idle → ∃ t, perform .hstep s = .next t ∧ handlerMeasure t < handlerMeasure s) ∧
    (∀ (e : Event) (t : State), s.w.hStep ≠ .idle → e ≠ .hstep → e ≠ .reset → perform e s = .next t →
      handlerMeasure t = handlerMeasure s) ∧
    (∀ (i : Nat) (t : State), s.w.hStep = .idle → exec (.irq i) s = .next t →
      handlerMeasure t ≤ t.w.hCount.toNat + 3) ∧
    (s.r.pStep ≠ .idle → ∃ t, perform .pstep s = .next t ∧ pollMeasure t + 1 = pollMeasure s) ∧
    (∀ (e : Event) (t : State), s.r.pStep ≠ .idle → e ≠ .pstep → e ≠ .reset → perform e s = .next t →
      pollMeasure t = pollMeasure s) ∧
    (s.r.pStep = .idle → pollReady s = true → ∃ t, exec .poll s = .next t ∧ pollMeasure t = t.r.pCount.toNat + 4)

/-- Under a fair schedule without reset a running handler reaches its return, with the engine armed at offset 0
(spec/70_reset_and_hazards.md R287, R296, spec/41_boundary_handler.md R161). -/
def Obligations.FairScheduleEndsTheHandler : Prop :=
  ∀ (f : Nat → Event) (s : State), FairSchedule f → (∀ n, f n ≠ .reset) → s.Inv → s.w.hStep ≠ .idle →
    ∃ n t, runSchedule f n s = .next t ∧ t.w.hStep = .idle ∧ t.w.ceArmed = true ∧ t.w.cePtr = 0

/-! ### Whole-machine rules -/

/-- The transition tables of the two sequencers are complete, reset apart: no other step moves them
(spec/44_arithmetic_and_sequencing.md R246). -/
def Obligations.SequencersFollowTheTables : Prop :=
  ∀ (e : Event) (s t : State), s.Inv → e ≠ .reset → perform e s = .next t →
    t.w.hStep = nextHStep e s ∧ t.r.pStep = nextPStep e s

/-- Only the steps the register table names write a register of the W domain, its flags and counters included, reset apart
(spec/10_state.md R48, R39). -/
def Obligations.WRegistersHaveTheirWriters : Prop :=
  ∀ (e : Event) (s t : State), e ≠ .reset → perform e s = .next t →
    (t.w.ceArmed ≠ s.w.ceArmed → stepName e s ∈ [some "ARM", some "STOP", some "IRQ", some "HSTEP", some "POLL", some "PSTEP"]) ∧
    (t.w.ceArmed ≠ s.w.ceArmed → stepName e s ∈ [some "POLL", some "PSTEP"] → s.build.policy = .timeout) ∧
    (t.w.cePtr ≠ s.w.cePtr → stepName e s ∈ [some "RXBYTE", some "ARM", some "HSTEP", some "PSTEP"]) ∧
    (t.w.cePtr ≠ s.w.cePtr → stepName e s = some "PSTEP" → s.build.policy = .timeout) ∧
    (t.w.ceLen ≠ s.w.ceLen → stepName e s = some "ARM") ∧
    (t.w.irqPending ≠ s.w.irqPending → stepName e s ∈ [some "RXBYTE", some "RXIDLE", some "IRQ", some "ARM", some "STOP"]) ∧
    (t.w.hStep ≠ s.w.hStep → stepName e s ∈ [some "IRQ", some "HSTEP"]) ∧
    (t.w.hCount ≠ s.w.hCount → stepName e s = some "IRQ") ∧
    (t.w.hIdx ≠ s.w.hIdx → stepName e s ∈ [some "IRQ", some "HSTEP"]) ∧
    (t.w.now ≠ s.w.now → stepName e s = some "TICK") ∧
    (t.w.lastTime ≠ s.w.lastTime → stepName e s = some "RXBYTE") ∧
    (t.w.wbin ≠ s.w.wbin → stepName e s = some "PUSH" ∨ (stepName e s = some "HSTEP" ∧ s.build.policy = .ring)) ∧
    (t.w.rgW1 ≠ s.w.rgW1 ∨ t.w.rgW2 ≠ s.w.rgW2 ∨ t.w.xrW1 ≠ s.w.xrW1 ∨ t.w.xrW2 ≠ s.w.xrW2 → stepName e s = some "SYNC_W") ∧
    (t.w.xw ≠ s.w.xw ∨ t.w.xferLen ≠ s.w.xferLen → stepName e s = some "HSTEP" ∧ s.build.policy = .idle) ∧
    (t.w.ovfRing ≠ s.w.ovfRing ∨ t.w.dropRingCnt ≠ s.w.dropRingCnt →
      stepName e s = some "PUSH" ∨ (stepName e s = some "HSTEP" ∧ s.build.policy = .ring)) ∧
    (t.w.ovfCap ≠ s.w.ovfCap ∨ t.w.dropLineCnt ≠ s.w.dropLineCnt → stepName e s = some "RXBYTE") ∧
    (t.w.ovfSlot ≠ s.w.ovfSlot ∨ t.w.dropSlotCnt ≠ s.w.dropSlotCnt → stepName e s = some "IRQ" ∧ s.build.policy = .idle) ∧
    (t.w.spur ≠ s.w.spur ∨ t.w.spurCnt ≠ s.w.spurCnt → stepName e s = some "IRQ") ∧
    (t.w.illW ≠ s.w.illW → takenCommand e s = none ∧ ∃ c, takenWord e s = some (.w, c))

/-- Only the steps the register table names write a register of the R domain, its flag included, reset apart
(spec/10_state.md R48, R39). -/
def Obligations.RRegistersHaveTheirWriters : Prop :=
  ∀ (e : Event) (s t : State), e ≠ .reset → perform e s = .next t →
    (t.r.rbin ≠ s.r.rbin → stepName e s = some "POP" ∨ (stepName e s = some "PSTEP" ∧ s.build.policy = .ring)) ∧
    (t.r.wgR1 ≠ s.r.wgR1 ∨ t.r.wgR2 ≠ s.r.wgR2 ∨ t.r.xwR1 ≠ s.r.xwR1 ∨ t.r.xwR2 ≠ s.r.xwR2 → stepName e s = some "SYNC_R") ∧
    (t.r.xr ≠ s.r.xr → stepName e s = some "PSTEP" ∧ s.build.policy = .idle) ∧
    (t.r.pStep ≠ s.r.pStep ∨ t.r.pIdx ≠ s.r.pIdx → stepName e s ∈ [some "POLL", some "PSTEP"]) ∧
    (t.r.pCount ≠ s.r.pCount → stepName e s = some "POLL") ∧
    (t.r.fbLen ≠ s.r.fbLen → stepName e s = some "PSTEP") ∧
    (t.r.toReady ≠ s.r.toReady → stepName e s ∈ [some "POLL", some "PSTEP"] ∧ s.build.policy = .timeout) ∧
    (t.r.illR ≠ s.r.illR → takenCommand e s = none ∧ ∃ c, takenWord e s = some (.r, c))

/-- A step writes only the cells its row of the table of memory accesses names (spec/20_memory.md R65). -/
def Obligations.StepsWriteOnlyTheirCells : Prop :=
  ∀ (e : Event) (s t : State), perform e s = .next t → sameMemoryBut s t (mayWrite e s)

/-- The flags are sticky and the counters never fall, reset apart; a counter moves only with its flag set
(spec/10_state.md R39, spec/60_exceptions.md R257). -/
def Obligations.ErrorRecordsOnlyGrow : Prop :=
  ∀ (e : Event) (s t : State), e ≠ .reset → perform e s = .next t →
    (s.w.ovfRing = true → t.w.ovfRing = true) ∧ (s.w.ovfCap = true → t.w.ovfCap = true) ∧
    (s.w.ovfSlot = true → t.w.ovfSlot = true) ∧ (s.w.spur = true → t.w.spur = true) ∧
    (s.w.illW = true → t.w.illW = true) ∧ (s.r.illR = true → t.r.illR = true) ∧
    (s.w.dropRingCnt.toNat ≤ t.w.dropRingCnt.toNat ∧ (t.w.dropRingCnt ≠ s.w.dropRingCnt → t.w.ovfRing = true)) ∧
    (s.w.dropLineCnt.toNat ≤ t.w.dropLineCnt.toNat ∧ (t.w.dropLineCnt ≠ s.w.dropLineCnt → t.w.ovfCap = true)) ∧
    (s.w.dropSlotCnt.toNat ≤ t.w.dropSlotCnt.toNat ∧ (t.w.dropSlotCnt ≠ s.w.dropSlotCnt → t.w.ovfSlot = true)) ∧
    (s.w.spurCnt.toNat ≤ t.w.spurCnt.toNat ∧ (t.w.spurCnt ≠ s.w.spurCnt → t.w.spur = true))

/-- Each drop is recorded for its own cause only: the line's counter moves only on an `RXBYTE` that finds the engine halted or the
buffer full, the slot's only on an accepted `IRQ` under `IDLE` that finds the slot occupied, the ring's only where the producer
sees the ring full, the spurious one only on a foreign instance (spec/60_exceptions.md R251 to R254). -/
def Obligations.DropsHaveTheirCause : Prop :=
  ∀ (e : Event) (s t : State), s.Inv → e ≠ .reset → perform e s = .next t →
    (t.w.dropLineCnt ≠ s.w.dropLineCnt →
      stepName e s = some "RXBYTE" ∧ (s.w.ceArmed = false ∨ s.w.cePtr = s.w.ceLen)) ∧
    (t.w.dropSlotCnt ≠ s.w.dropSlotCnt →
      takenCommand e s = some (.irq s.build.inst.toNat) ∧ s.build.policy = .idle ∧ s.w.irqPending = true ∧ s.w.hStep = .idle ∧
        s.slotOccW = true) ∧
    (t.w.dropRingCnt ≠ s.w.dropRingCnt →
      (stepName e s = some "PUSH" ∨ (stepName e s = some "HSTEP" ∧ s.build.policy = .ring)) ∧ s.lenW = s.build.c) ∧
    (t.w.spurCnt ≠ s.w.spurCnt → ∃ i, takenCommand e s = some (.irq i) ∧ i ≠ s.build.inst.toNat)

/-- The build's constants never change, by any step (spec/00_scope.md R8, spec/10_state.md R40). -/
def Obligations.BuildNeverChanges : Prop :=
  (∀ (e : Event) (s t : State), perform e s = .next t → t.build = s.build) ∧
  (∀ s t : State, step s = .next t → t.build = s.build)

/-- A pointer never advances by more than one per step, so that its gray image changes in at most one bit, reset apart
(spec/20_memory.md R82). -/
def Obligations.PointersMoveByOne : Prop :=
  ∀ (e : Event) (s t : State), s.Inv → e ≠ .reset → perform e s = .next t →
    (t.w.wbin = s.w.wbin ∨ (t.w.wbin = ptrNext s.build s.w.wbin ∧ oneBitApart s.wgray t.wgray)) ∧
    (t.r.rbin = s.r.rbin ∨ (t.r.rbin = ptrNext s.build s.r.rbin ∧ oneBitApart s.rgray t.rgray))

/-- Boundaries have their causes, reset apart. The boundary interrupt is raised only by `RXIDLE` on an armed engine with a byte
captured or by the `RXBYTE` that fills the buffer, never under `TIMEOUT`, and withdrawn only by the accepting `IRQ`, `ARM` and
`STOP` (spec/60_exceptions.md R260). The timeout boundary is declared only by a `POLL` that finds the engine armed, a byte
captured and the elapsed time above `T`, and withdrawn only by the last step of that poll's drain (spec/43_consumer.md R222, R229,
spec/10_state.md R38). -/
def Obligations.BoundariesHaveTheirCauses : Prop :=
  ∀ (e : Event) (s t : State), e ≠ .reset → perform e s = .next t →
    (s.w.irqPending = false → t.w.irqPending = true →
      s.build.policy ≠ .timeout ∧ s.w.ceArmed = true ∧
        ((takenCommand e s = some .rxidle ∧ 0 < s.w.cePtr.toNat) ∨
          (stepName e s = some "RXBYTE" ∧ s.w.cePtr.toNat + 1 = s.w.ceLen.toNat))) ∧
    (s.w.irqPending = true → t.w.irqPending = false →
      (takenCommand e s = some (.irq s.build.inst.toNat) ∧ s.w.hStep = .idle ∧ t.w.hStep ≠ .idle) ∨
        stepName e s = some "ARM" ∨ stepName e s = some "STOP") ∧
    (s.r.toReady = false → t.r.toReady = true →
      takenCommand e s = some .poll ∧ s.build.policy = .timeout ∧ s.w.ceArmed = true ∧ 0 < s.w.cePtr.toNat ∧
        s.build.t < (s.w.now - s.w.lastTime).toNat) ∧
    (s.r.toReady = true → t.r.toReady = false → e = .pstep ∧ s.r.pStep = .reset ∧ s.build.policy = .timeout)

/-- Every boundary handling ends armed: the step that ends a handler, and the step that ends a timeout drain, leaves the engine
armed at offset 0, reset apart (spec/41_boundary_handler.md R161, spec/60_exceptions.md R256). -/
def Obligations.EverySequenceEndsArmed : Prop :=
  ∀ (e : Event) (s t : State), e ≠ .reset → perform e s = .next t →
    (s.w.hStep ≠ .idle → t.w.hStep = .idle → t.w.ceArmed = true ∧ t.w.cePtr = 0 ∧ t.w.ceLen = s.w.ceLen) ∧
    (s.r.toReady = true → t.r.toReady = false → t.w.ceArmed = true ∧ t.w.cePtr = 0 ∧ t.w.ceLen = s.w.ceLen)

/-- Ownership. A W-domain step other than `SYNC_W` neither reads nor writes a register of the R domain, but for `ARM`'s look at
`to_ready`; an R-domain step other than `SYNC_R`, under `IDLE` and `RING`, neither reads nor writes a register of the W domain,
but for the slot's length (spec/20_memory.md R73, spec/60_exceptions.md R266, R269, spec/40_line_capture.md R129). -/
def Obligations.DomainsKeepToTheirSides : Prop :=
  (∀ (e : Event) (s t : State) (r' : RRegs), isWStep e = true → e ≠ .syncW → r'.toReady = s.r.toReady →
    perform e s = .next t → perform e { s with r := r' } = .next { t with r := r' } ∧ t.r = s.r) ∧
  (∀ (e : Event) (s t : State) (w' : WRegs), isRStep e = true → e ≠ .syncR → s.build.policy ≠ .timeout →
    w'.xferLen = s.w.xferLen → perform e s = .next t →
    perform e { s with w := w' } = .next { t with w := w' } ∧ t.w = s.w)

/-- The idle signal makes the boundary state `Ready` in the same step, and after reset it is `Idle`
(spec/40_line_capture.md R125, spec/10_state.md R42). -/
def Obligations.IdleSignalMakesReady : Prop :=
  (∀ s : State, s.build.policy ≠ .timeout → s.w.ceArmed = true → 0 < s.w.cePtr.toNat →
    ∃ t, exec .rxidle s = .next t ∧ t.bdState = .ready) ∧
  (∀ b : Build, (State.resetOf b).bdState = .idle)

/-! ### The handler's count -/

/-- The counts of spec/10_state.md R45 (e), as far as the commands' own rules keep them: `h_idx ≤ h_count`, `p_idx ≤ p_count ≤ FB`
and, while a handler runs, `h_count ≤ ce_len` hold in every state with the invariant; and once `h_count ≤ ce_len` holds, every step
keeps it but an accepted `ARM n` with `n` below the `h_count` that the last handler left behind (spec/40_line_capture.md R129,
spec/41_boundary_handler.md R151; reading R45 (e) so is the model's, notes/assumptions/16.md). -/
def Obligations.HandlerCountFitsTheArming : Prop :=
  ∀ s : State, s.Inv →
    (s.w.hIdx.toNat ≤ s.w.hCount.toNat ∧ s.r.pIdx.toNat ≤ s.r.pCount.toNat ∧ s.r.pCount.toNat ≤ s.build.fb) ∧
    (s.w.hStep ≠ .idle → s.w.hCount.toNat ≤ s.w.ceLen.toNat) ∧
    ∀ (e : Event) (t : State), perform e s = .next t → s.w.hCount.toNat ≤ s.w.ceLen.toNat →
      t.w.hCount.toNat ≤ t.w.ceLen.toNat ∨
      ∃ n, takenCommand e s = some (.arm n) ∧ s.w.hStep = .idle ∧ t.w.hCount = s.w.hCount ∧ t.w.ceLen.toNat = n ∧
        n < s.w.hCount.toNat
end

