-- ==== Sys2Proof/Laws/State.lean ====
section
/-! SUPPORT. What each named update of the state does to each of its parts: one lemma per part and update, so that no later
proof unfolds a record update. -/

namespace Sys2Proof.Machine

variable (s : State)
@[simp] theorem respondW_build (c : RspCode) (v : Byte) : (s.respondW c v).build = s.build := rfl
@[simp] theorem respondW_w (c : RspCode) (v : Byte) : (s.respondW c v).w = s.w := rfl
@[simp] theorem respondW_r (c : RspCode) (v : Byte) : (s.respondW c v).r = s.r := rfl
@[simp] theorem respondW_capb (c : RspCode) (v : Byte) : (s.respondW c v).capb = s.capb := rfl
@[simp] theorem respondW_ring (c : RspCode) (v : Byte) : (s.respondW c v).ring = s.ring := rfl
@[simp] theorem respondW_xfer (c : RspCode) (v : Byte) : (s.respondW c v).xfer = s.xfer := rfl
@[simp] theorem respondW_frmb (c : RspCode) (v : Byte) : (s.respondW c v).frmb = s.frmb := rfl
@[simp] theorem respondW_outFrames (c : RspCode) (v : Byte) : (s.respondW c v).outFrames = s.outFrames := rfl
@[simp] theorem respondW_wRsp (c : RspCode) (v : Byte) : (s.respondW c v).wRsp = some ⟨c, v⟩ := rfl
@[simp] theorem respondW_rRsp (c : RspCode) (v : Byte) : (s.respondW c v).rRsp = s.rRsp := rfl
@[simp] theorem respondW_rWait (c : RspCode) (v : Byte) : (s.respondW c v).rWait = s.rWait := rfl
@[simp] theorem respondW_agenda (c : RspCode) (v : Byte) : (s.respondW c v).agenda = s.agenda := rfl
@[simp] theorem respondW_choice (c : RspCode) (v : Byte) : (s.respondW c v).choice = s.choice := rfl
@[simp] theorem respondW_epoch (c : RspCode) (v : Byte) : (s.respondW c v).epoch = s.epoch := rfl

@[simp] theorem respondR_build (c : RspCode) (v : Byte) : (s.respondR c v).build = s.build := rfl
@[simp] theorem respondR_w (c : RspCode) (v : Byte) : (s.respondR c v).w = s.w := rfl
@[simp] theorem respondR_r (c : RspCode) (v : Byte) : (s.respondR c v).r = s.r := rfl
@[simp] theorem respondR_capb (c : RspCode) (v : Byte) : (s.respondR c v).capb = s.capb := rfl
@[simp] theorem respondR_ring (c : RspCode) (v : Byte) : (s.respondR c v).ring = s.ring := rfl
@[simp] theorem respondR_xfer (c : RspCode) (v : Byte) : (s.respondR c v).xfer = s.xfer := rfl
@[simp] theorem respondR_frmb (c : RspCode) (v : Byte) : (s.respondR c v).frmb = s.frmb := rfl
@[simp] theorem respondR_outFrames (c : RspCode) (v : Byte) : (s.respondR c v).outFrames = s.outFrames := rfl
@[simp] theorem respondR_wRsp (c : RspCode) (v : Byte) : (s.respondR c v).wRsp = s.wRsp := rfl
@[simp] theorem respondR_rRsp (c : RspCode) (v : Byte) : (s.respondR c v).rRsp = some ⟨c, v⟩ := rfl
@[simp] theorem respondR_rWait (c : RspCode) (v : Byte) : (s.respondR c v).rWait = s.rWait := rfl
@[simp] theorem respondR_agenda (c : RspCode) (v : Byte) : (s.respondR c v).agenda = s.agenda := rfl
@[simp] theorem respondR_choice (c : RspCode) (v : Byte) : (s.respondR c v).choice = s.choice := rfl
@[simp] theorem respondR_epoch (c : RspCode) (v : Byte) : (s.respondR c v).epoch = s.epoch := rfl

@[simp] theorem quiet_build : (quiet s).build = s.build := rfl
@[simp] theorem quiet_w : (quiet s).w = s.w := rfl
@[simp] theorem quiet_r : (quiet s).r = s.r := rfl
@[simp] theorem quiet_capb : (quiet s).capb = s.capb := rfl
@[simp] theorem quiet_ring : (quiet s).ring = s.ring := rfl
@[simp] theorem quiet_xfer : (quiet s).xfer = s.xfer := rfl
@[simp] theorem quiet_frmb : (quiet s).frmb = s.frmb := rfl
@[simp] theorem quiet_outFrames : (quiet s).outFrames = s.outFrames := rfl
@[simp] theorem quiet_wRsp : (quiet s).wRsp = none := rfl
@[simp] theorem quiet_rRsp : (quiet s).rRsp = none := rfl
@[simp] theorem quiet_rWait : (quiet s).rWait = s.rWait := rfl
@[simp] theorem quiet_agenda : (quiet s).agenda = s.agenda := rfl
@[simp] theorem quiet_choice : (quiet s).choice = s.choice := rfl
@[simp] theorem quiet_epoch : (quiet s).epoch = s.epoch := rfl

@[simp] theorem stampLine_build : (stampLine s).build = s.build := rfl
@[simp] theorem stampLine_w : (stampLine s).w = { s.w with lastTime := s.w.now } := rfl
@[simp] theorem stampLine_r : (stampLine s).r = s.r := rfl
@[simp] theorem stampLine_capb : (stampLine s).capb = s.capb := rfl
@[simp] theorem stampLine_ring : (stampLine s).ring = s.ring := rfl
@[simp] theorem stampLine_xfer : (stampLine s).xfer = s.xfer := rfl
@[simp] theorem stampLine_frmb : (stampLine s).frmb = s.frmb := rfl
@[simp] theorem stampLine_outFrames : (stampLine s).outFrames = s.outFrames := rfl
@[simp] theorem stampLine_wRsp : (stampLine s).wRsp = s.wRsp := rfl
@[simp] theorem stampLine_rRsp : (stampLine s).rRsp = s.rRsp := rfl
@[simp] theorem stampLine_rWait : (stampLine s).rWait = s.rWait := rfl
@[simp] theorem stampLine_agenda : (stampLine s).agenda = s.agenda := rfl
@[simp] theorem stampLine_choice : (stampLine s).choice = s.choice := rfl
@[simp] theorem stampLine_epoch : (stampLine s).epoch = s.epoch := rfl

@[simp] theorem engineHalt_build : (engineHalt s).build = s.build := rfl
@[simp] theorem engineHalt_w : (engineHalt s).w = { s.w with ceArmed := false } := rfl
@[simp] theorem engineHalt_r : (engineHalt s).r = s.r := rfl
@[simp] theorem engineHalt_capb : (engineHalt s).capb = s.capb := rfl
@[simp] theorem engineHalt_ring : (engineHalt s).ring = s.ring := rfl
@[simp] theorem engineHalt_xfer : (engineHalt s).xfer = s.xfer := rfl
@[simp] theorem engineHalt_frmb : (engineHalt s).frmb = s.frmb := rfl
@[simp] theorem engineHalt_outFrames : (engineHalt s).outFrames = s.outFrames := rfl
@[simp] theorem engineHalt_wRsp : (engineHalt s).wRsp = s.wRsp := rfl
@[simp] theorem engineHalt_rRsp : (engineHalt s).rRsp = s.rRsp := rfl
@[simp] theorem engineHalt_rWait : (engineHalt s).rWait = s.rWait := rfl
@[simp] theorem engineHalt_agenda : (engineHalt s).agenda = s.agenda := rfl
@[simp] theorem engineHalt_choice : (engineHalt s).choice = s.choice := rfl
@[simp] theorem engineHalt_epoch : (engineHalt s).epoch = s.epoch := rfl

@[simp] theorem engineRearm_build : (engineRearm s).build = s.build := rfl
@[simp] theorem engineRearm_w : (engineRearm s).w = { s.w with cePtr := 0, ceArmed := true } := rfl
@[simp] theorem engineRearm_r : (engineRearm s).r = s.r := rfl
@[simp] theorem engineRearm_capb : (engineRearm s).capb = s.capb := rfl
@[simp] theorem engineRearm_ring : (engineRearm s).ring = s.ring := rfl
@[simp] theorem engineRearm_xfer : (engineRearm s).xfer = s.xfer := rfl
@[simp] theorem engineRearm_frmb : (engineRearm s).frmb = s.frmb := rfl
@[simp] theorem engineRearm_outFrames : (engineRearm s).outFrames = s.outFrames := rfl
@[simp] theorem engineRearm_wRsp : (engineRearm s).wRsp = s.wRsp := rfl
@[simp] theorem engineRearm_rRsp : (engineRearm s).rRsp = s.rRsp := rfl
@[simp] theorem engineRearm_rWait : (engineRearm s).rWait = s.rWait := rfl
@[simp] theorem engineRearm_agenda : (engineRearm s).agenda = s.agenda := rfl
@[simp] theorem engineRearm_choice : (engineRearm s).choice = s.choice := rfl
@[simp] theorem engineRearm_epoch : (engineRearm s).epoch = s.epoch := rfl

@[simp] theorem boundaryReturn_build : (boundaryReturn s).build = s.build := rfl
@[simp] theorem boundaryReturn_w : (boundaryReturn s).w = { s.w with cePtr := 0, ceArmed := true, hStep := .idle } := rfl
@[simp] theorem boundaryReturn_r : (boundaryReturn s).r = s.r := rfl
@[simp] theorem boundaryReturn_capb : (boundaryReturn s).capb = s.capb := rfl
@[simp] theorem boundaryReturn_ring : (boundaryReturn s).ring = s.ring := rfl
@[simp] theorem boundaryReturn_xfer : (boundaryReturn s).xfer = s.xfer := rfl
@[simp] theorem boundaryReturn_frmb : (boundaryReturn s).frmb = s.frmb := rfl
@[simp] theorem boundaryReturn_outFrames : (boundaryReturn s).outFrames = s.outFrames := rfl
@[simp] theorem boundaryReturn_wRsp : (boundaryReturn s).wRsp = s.wRsp := rfl
@[simp] theorem boundaryReturn_rRsp : (boundaryReturn s).rRsp = s.rRsp := rfl
@[simp] theorem boundaryReturn_rWait : (boundaryReturn s).rWait = s.rWait := rfl
@[simp] theorem boundaryReturn_agenda : (boundaryReturn s).agenda = s.agenda := rfl
@[simp] theorem boundaryReturn_choice : (boundaryReturn s).choice = s.choice := rfl
@[simp] theorem boundaryReturn_epoch : (boundaryReturn s).epoch = s.epoch := rfl

@[simp] theorem pollStart_build (n : Byte) : (pollStart s n).build = s.build := rfl
@[simp] theorem pollStart_w (n : Byte) : (pollStart s n).w = s.w := rfl
@[simp] theorem pollStart_r (n : Byte) : (pollStart s n).r = { s.r with pCount := n, pIdx := 0, pStep := .copy } := rfl
@[simp] theorem pollStart_capb (n : Byte) : (pollStart s n).capb = s.capb := rfl
@[simp] theorem pollStart_ring (n : Byte) : (pollStart s n).ring = s.ring := rfl
@[simp] theorem pollStart_xfer (n : Byte) : (pollStart s n).xfer = s.xfer := rfl
@[simp] theorem pollStart_frmb (n : Byte) : (pollStart s n).frmb = s.frmb := rfl
@[simp] theorem pollStart_outFrames (n : Byte) : (pollStart s n).outFrames = s.outFrames := rfl
@[simp] theorem pollStart_wRsp (n : Byte) : (pollStart s n).wRsp = s.wRsp := rfl
@[simp] theorem pollStart_rRsp (n : Byte) : (pollStart s n).rRsp = s.rRsp := rfl
@[simp] theorem pollStart_rWait (n : Byte) : (pollStart s n).rWait = s.rWait := rfl
@[simp] theorem pollStart_agenda (n : Byte) : (pollStart s n).agenda = s.agenda := rfl
@[simp] theorem pollStart_choice (n : Byte) : (pollStart s n).choice = s.choice := rfl
@[simp] theorem pollStart_epoch (n : Byte) : (pollStart s n).epoch = s.epoch := rfl

@[simp] theorem syncW_build : (syncW s).build = s.build := rfl
@[simp] theorem syncW_w : (syncW s).w = { s.w with rgW2 := s.w.rgW1, rgW1 := b2g s.r.rbin, xrW2 := s.w.xrW1, xrW1 := s.r.xr } := rfl
@[simp] theorem syncW_r : (syncW s).r = s.r := rfl
@[simp] theorem syncW_capb : (syncW s).capb = s.capb := rfl
@[simp] theorem syncW_ring : (syncW s).ring = s.ring := rfl
@[simp] theorem syncW_xfer : (syncW s).xfer = s.xfer := rfl
@[simp] theorem syncW_frmb : (syncW s).frmb = s.frmb := rfl
@[simp] theorem syncW_outFrames : (syncW s).outFrames = s.outFrames := rfl
@[simp] theorem syncW_wRsp : (syncW s).wRsp = s.wRsp := rfl
@[simp] theorem syncW_rRsp : (syncW s).rRsp = s.rRsp := rfl
@[simp] theorem syncW_rWait : (syncW s).rWait = s.rWait := rfl
@[simp] theorem syncW_agenda : (syncW s).agenda = s.agenda := rfl
@[simp] theorem syncW_choice : (syncW s).choice = s.choice := rfl
@[simp] theorem syncW_epoch : (syncW s).epoch = s.epoch := rfl

@[simp] theorem syncR_build : (syncR s).build = s.build := rfl
@[simp] theorem syncR_w : (syncR s).w = s.w := rfl
@[simp] theorem syncR_r : (syncR s).r = { s.r with wgR2 := s.r.wgR1, wgR1 := b2g s.w.wbin, xwR2 := s.r.xwR1, xwR1 := s.w.xw } := rfl
@[simp] theorem syncR_capb : (syncR s).capb = s.capb := rfl
@[simp] theorem syncR_ring : (syncR s).ring = s.ring := rfl
@[simp] theorem syncR_xfer : (syncR s).xfer = s.xfer := rfl
@[simp] theorem syncR_frmb : (syncR s).frmb = s.frmb := rfl
@[simp] theorem syncR_outFrames : (syncR s).outFrames = s.outFrames := rfl
@[simp] theorem syncR_wRsp : (syncR s).wRsp = s.wRsp := rfl
@[simp] theorem syncR_rRsp : (syncR s).rRsp = s.rRsp := rfl
@[simp] theorem syncR_rWait : (syncR s).rWait = s.rWait := rfl
@[simp] theorem syncR_agenda : (syncR s).agenda = s.agenda := rfl
@[simp] theorem syncR_choice : (syncR s).choice = s.choice := rfl
@[simp] theorem syncR_epoch : (syncR s).epoch = s.epoch := rfl

@[simp] theorem resetStep_build : (resetStep s).build = s.build := rfl
@[simp] theorem resetStep_w : (resetStep s).w = {} := rfl
@[simp] theorem resetStep_r : (resetStep s).r = {} := rfl
@[simp] theorem resetStep_capb : (resetStep s).capb = [] := rfl
@[simp] theorem resetStep_ring : (resetStep s).ring = [] := rfl
@[simp] theorem resetStep_xfer : (resetStep s).xfer = [] := rfl
@[simp] theorem resetStep_frmb : (resetStep s).frmb = [] := rfl
@[simp] theorem resetStep_outFrames : (resetStep s).outFrames = [] := rfl
@[simp] theorem resetStep_wRsp : (resetStep s).wRsp = none := rfl
@[simp] theorem resetStep_rRsp : (resetStep s).rRsp = none := rfl
@[simp] theorem resetStep_rWait : (resetStep s).rWait = [] := rfl
@[simp] theorem resetStep_agenda : (resetStep s).agenda = s.agenda := rfl
@[simp] theorem resetStep_choice : (resetStep s).choice = s.choice := rfl
@[simp] theorem resetStep_epoch : (resetStep s).epoch = s.epoch + 1 := rfl

@[simp] theorem setMem_build (sp : Space) (m : Memory) : (s.setMem sp m).build = s.build := by cases sp <;> rfl
@[simp] theorem setMem_w (sp : Space) (m : Memory) : (s.setMem sp m).w = s.w := by cases sp <;> rfl
@[simp] theorem setMem_r (sp : Space) (m : Memory) : (s.setMem sp m).r = s.r := by cases sp <;> rfl
@[simp] theorem setMem_outFrames (sp : Space) (m : Memory) : (s.setMem sp m).outFrames = s.outFrames := by cases sp <;> rfl
@[simp] theorem setMem_wRsp (sp : Space) (m : Memory) : (s.setMem sp m).wRsp = s.wRsp := by cases sp <;> rfl
@[simp] theorem setMem_rRsp (sp : Space) (m : Memory) : (s.setMem sp m).rRsp = s.rRsp := by cases sp <;> rfl
@[simp] theorem setMem_rWait (sp : Space) (m : Memory) : (s.setMem sp m).rWait = s.rWait := by cases sp <;> rfl
@[simp] theorem setMem_agenda (sp : Space) (m : Memory) : (s.setMem sp m).agenda = s.agenda := by cases sp <;> rfl
@[simp] theorem setMem_choice (sp : Space) (m : Memory) : (s.setMem sp m).choice = s.choice := by cases sp <;> rfl
@[simp] theorem setMem_epoch (sp : Space) (m : Memory) : (s.setMem sp m).epoch = s.epoch := by cases sp <;> rfl

@[simp] theorem memFill_build (sp : Space) (v : Byte) : (s.memFill sp v).build = s.build := by cases sp <;> rfl
@[simp] theorem memFill_w (sp : Space) (v : Byte) : (s.memFill sp v).w = s.w := by cases sp <;> rfl
@[simp] theorem memFill_r (sp : Space) (v : Byte) : (s.memFill sp v).r = s.r := by cases sp <;> rfl
@[simp] theorem memFill_outFrames (sp : Space) (v : Byte) : (s.memFill sp v).outFrames = s.outFrames := by cases sp <;> rfl
@[simp] theorem memFill_wRsp (sp : Space) (v : Byte) : (s.memFill sp v).wRsp = s.wRsp := by cases sp <;> rfl
@[simp] theorem memFill_rRsp (sp : Space) (v : Byte) : (s.memFill sp v).rRsp = s.rRsp := by cases sp <;> rfl
@[simp] theorem memFill_rWait (sp : Space) (v : Byte) : (s.memFill sp v).rWait = s.rWait := by cases sp <;> rfl
@[simp] theorem memFill_agenda (sp : Space) (v : Byte) : (s.memFill sp v).agenda = s.agenda := by cases sp <;> rfl
@[simp] theorem memFill_choice (sp : Space) (v : Byte) : (s.memFill sp v).choice = s.choice := by cases sp <;> rfl
@[simp] theorem memFill_epoch (sp : Space) (v : Byte) : (s.memFill sp v).epoch = s.epoch := by cases sp <;> rfl

@[simp] theorem setMem_capb_capb (m : Memory) : (s.setMem .capb m).capb = m := rfl
@[simp] theorem setMem_capb_ring (m : Memory) : (s.setMem .capb m).ring = s.ring := rfl
@[simp] theorem setMem_capb_xfer (m : Memory) : (s.setMem .capb m).xfer = s.xfer := rfl
@[simp] theorem setMem_capb_frmb (m : Memory) : (s.setMem .capb m).frmb = s.frmb := rfl
@[simp] theorem setMem_ring_capb (m : Memory) : (s.setMem .ring m).capb = s.capb := rfl
@[simp] theorem setMem_ring_ring (m : Memory) : (s.setMem .ring m).ring = m := rfl
@[simp] theorem setMem_ring_xfer (m : Memory) : (s.setMem .ring m).xfer = s.xfer := rfl
@[simp] theorem setMem_ring_frmb (m : Memory) : (s.setMem .ring m).frmb = s.frmb := rfl
@[simp] theorem setMem_xfer_capb (m : Memory) : (s.setMem .xfer m).capb = s.capb := rfl
@[simp] theorem setMem_xfer_ring (m : Memory) : (s.setMem .xfer m).ring = s.ring := rfl
@[simp] theorem setMem_xfer_xfer (m : Memory) : (s.setMem .xfer m).xfer = m := rfl
@[simp] theorem setMem_xfer_frmb (m : Memory) : (s.setMem .xfer m).frmb = s.frmb := rfl
@[simp] theorem setMem_frmb_capb (m : Memory) : (s.setMem .frmb m).capb = s.capb := rfl
@[simp] theorem setMem_frmb_ring (m : Memory) : (s.setMem .frmb m).ring = s.ring := rfl
@[simp] theorem setMem_frmb_xfer (m : Memory) : (s.setMem .frmb m).xfer = s.xfer := rfl
@[simp] theorem setMem_frmb_frmb (m : Memory) : (s.setMem .frmb m).frmb = m := rfl

@[simp] theorem mem_capb : s.mem .capb = s.capb := rfl
@[simp] theorem mem_ring : s.mem .ring = s.ring := rfl
@[simp] theorem mem_xfer : s.mem .xfer = s.xfer := rfl
@[simp] theorem mem_frmb : s.mem .frmb = s.frmb := rfl

@[simp] theorem mem_setMem_self (sp : Space) (m : Memory) : (s.setMem sp m).mem sp = m := by cases sp <;> rfl

theorem mem_setMem_of_ne (sp sp' : Space) (m : Memory) (h : sp' ≠ sp) : (s.setMem sp m).mem sp' = s.mem sp' := by
  cases sp <;> cases sp' <;> first | rfl | exact absurd rfl h

@[simp] theorem raise_build (e : BlockError) (k : Nat) : (raise e k s).build = s.build := by cases e <;> rfl
@[simp] theorem raise_capb (e : BlockError) (k : Nat) : (raise e k s).capb = s.capb := by cases e <;> rfl
@[simp] theorem raise_ring (e : BlockError) (k : Nat) : (raise e k s).ring = s.ring := by cases e <;> rfl
@[simp] theorem raise_xfer (e : BlockError) (k : Nat) : (raise e k s).xfer = s.xfer := by cases e <;> rfl
@[simp] theorem raise_frmb (e : BlockError) (k : Nat) : (raise e k s).frmb = s.frmb := by cases e <;> rfl
@[simp] theorem raise_outFrames (e : BlockError) (k : Nat) : (raise e k s).outFrames = s.outFrames := by cases e <;> rfl
@[simp] theorem raise_wRsp (e : BlockError) (k : Nat) : (raise e k s).wRsp = s.wRsp := by cases e <;> rfl
@[simp] theorem raise_rRsp (e : BlockError) (k : Nat) : (raise e k s).rRsp = s.rRsp := by cases e <;> rfl
@[simp] theorem raise_rWait (e : BlockError) (k : Nat) : (raise e k s).rWait = s.rWait := by cases e <;> rfl
@[simp] theorem raise_agenda (e : BlockError) (k : Nat) : (raise e k s).agenda = s.agenda := by cases e <;> rfl
@[simp] theorem raise_choice (e : BlockError) (k : Nat) : (raise e k s).choice = s.choice := by cases e <;> rfl
@[simp] theorem raise_epoch (e : BlockError) (k : Nat) : (raise e k s).epoch = s.epoch := by cases e <;> rfl

@[simp] theorem raise_ringOverrun_w (k : Nat) : (raise .ringOverrun k s).w = { s.w with ovfRing := true, dropRingCnt := satAdd s.w.dropRingCnt k } := rfl
@[simp] theorem raise_ringOverrun_r (k : Nat) : (raise .ringOverrun k s).r = s.r := rfl
@[simp] theorem raise_lineOverrun_w (k : Nat) : (raise .lineOverrun k s).w = { s.w with ovfCap := true, dropLineCnt := satAdd s.w.dropLineCnt k } := rfl
@[simp] theorem raise_lineOverrun_r (k : Nat) : (raise .lineOverrun k s).r = s.r := rfl
@[simp] theorem raise_slotOverrun_w (k : Nat) : (raise .slotOverrun k s).w = { s.w with ovfSlot := true, dropSlotCnt := satAdd s.w.dropSlotCnt k } := rfl
@[simp] theorem raise_slotOverrun_r (k : Nat) : (raise .slotOverrun k s).r = s.r := rfl
@[simp] theorem raise_spurious_w (k : Nat) : (raise .spurious k s).w = { s.w with spur := true, spurCnt := satAdd s.w.spurCnt k } := rfl
@[simp] theorem raise_spurious_r (k : Nat) : (raise .spurious k s).r = s.r := rfl
@[simp] theorem raise_illegalW_w (k : Nat) : (raise .illegalW k s).w = { s.w with illW := true } := rfl
@[simp] theorem raise_illegalW_r (k : Nat) : (raise .illegalW k s).r = s.r := rfl
@[simp] theorem raise_illegalR_w (k : Nat) : (raise .illegalR k s).w = s.w := rfl
@[simp] theorem raise_illegalR_r (k : Nat) : (raise .illegalR k s).r = { s.r with illR := true } := rfl

@[simp] theorem boundaryEntry_build : (boundaryEntry s).build = s.build := by unfold boundaryEntry; split <;> rfl
@[simp] theorem boundaryEntry_r : (boundaryEntry s).r = s.r := by unfold boundaryEntry; split <;> rfl
@[simp] theorem boundaryEntry_capb : (boundaryEntry s).capb = s.capb := by unfold boundaryEntry; split <;> rfl
@[simp] theorem boundaryEntry_ring : (boundaryEntry s).ring = s.ring := by unfold boundaryEntry; split <;> rfl
@[simp] theorem boundaryEntry_xfer : (boundaryEntry s).xfer = s.xfer := by unfold boundaryEntry; split <;> rfl
@[simp] theorem boundaryEntry_frmb : (boundaryEntry s).frmb = s.frmb := by unfold boundaryEntry; split <;> rfl
@[simp] theorem boundaryEntry_outFrames : (boundaryEntry s).outFrames = s.outFrames := by unfold boundaryEntry; split <;> rfl
@[simp] theorem boundaryEntry_wRsp : (boundaryEntry s).wRsp = s.wRsp := by unfold boundaryEntry; split <;> rfl
@[simp] theorem boundaryEntry_rRsp : (boundaryEntry s).rRsp = s.rRsp := by unfold boundaryEntry; split <;> rfl
@[simp] theorem boundaryEntry_rWait : (boundaryEntry s).rWait = s.rWait := by unfold boundaryEntry; split <;> rfl
@[simp] theorem boundaryEntry_agenda : (boundaryEntry s).agenda = s.agenda := by unfold boundaryEntry; split <;> rfl
@[simp] theorem boundaryEntry_choice : (boundaryEntry s).choice = s.choice := by unfold boundaryEntry; split <;> rfl
@[simp] theorem boundaryEntry_epoch : (boundaryEntry s).epoch = s.epoch := by unfold boundaryEntry; split <;> rfl

@[simp] theorem illegalWord_build (p : Port) : (illegalWord p s).build = s.build := by cases p <;> rfl
@[simp] theorem illegalWord_capb (p : Port) : (illegalWord p s).capb = s.capb := by cases p <;> rfl
@[simp] theorem illegalWord_ring (p : Port) : (illegalWord p s).ring = s.ring := by cases p <;> rfl
@[simp] theorem illegalWord_xfer (p : Port) : (illegalWord p s).xfer = s.xfer := by cases p <;> rfl
@[simp] theorem illegalWord_frmb (p : Port) : (illegalWord p s).frmb = s.frmb := by cases p <;> rfl
@[simp] theorem illegalWord_outFrames (p : Port) : (illegalWord p s).outFrames = s.outFrames := by cases p <;> rfl
@[simp] theorem illegalWord_rWait (p : Port) : (illegalWord p s).rWait = s.rWait := by cases p <;> rfl
@[simp] theorem illegalWord_agenda (p : Port) : (illegalWord p s).agenda = s.agenda := by cases p <;> rfl
@[simp] theorem illegalWord_choice (p : Port) : (illegalWord p s).choice = s.choice := by cases p <;> rfl
@[simp] theorem illegalWord_epoch (p : Port) : (illegalWord p s).epoch = s.epoch := by cases p <;> rfl

@[simp] theorem drawEvent_build : (drawEvent s).build = s.build := by unfold drawEvent; split <;> rfl
@[simp] theorem drawEvent_w : (drawEvent s).w = s.w := by unfold drawEvent; split <;> rfl
@[simp] theorem drawEvent_r : (drawEvent s).r = s.r := by unfold drawEvent; split <;> rfl
@[simp] theorem drawEvent_capb : (drawEvent s).capb = s.capb := by unfold drawEvent; split <;> rfl
@[simp] theorem drawEvent_ring : (drawEvent s).ring = s.ring := by unfold drawEvent; split <;> rfl
@[simp] theorem drawEvent_xfer : (drawEvent s).xfer = s.xfer := by unfold drawEvent; split <;> rfl
@[simp] theorem drawEvent_frmb : (drawEvent s).frmb = s.frmb := by unfold drawEvent; split <;> rfl
@[simp] theorem drawEvent_outFrames : (drawEvent s).outFrames = s.outFrames := by unfold drawEvent; split <;> rfl
@[simp] theorem drawEvent_wRsp : (drawEvent s).wRsp = s.wRsp := by unfold drawEvent; split <;> rfl
@[simp] theorem drawEvent_rRsp : (drawEvent s).rRsp = s.rRsp := by unfold drawEvent; split <;> rfl
@[simp] theorem drawEvent_rWait : (drawEvent s).rWait = s.rWait := by unfold drawEvent; split <;> rfl
@[simp] theorem drawEvent_epoch : (drawEvent s).epoch = s.epoch := by unfold drawEvent; split <;> rfl

@[simp] theorem pollRelease_build : (pollRelease s).build = s.build := by unfold pollRelease; split <;> rfl
@[simp] theorem pollRelease_ring : (pollRelease s).ring = s.ring := by unfold pollRelease; split <;> rfl
@[simp] theorem pollRelease_xfer : (pollRelease s).xfer = s.xfer := by unfold pollRelease; split <;> rfl
@[simp] theorem pollRelease_frmb : (pollRelease s).frmb = s.frmb := by unfold pollRelease; split <;> rfl
@[simp] theorem pollRelease_outFrames : (pollRelease s).outFrames = s.outFrames := by unfold pollRelease; split <;> rfl
@[simp] theorem pollRelease_wRsp : (pollRelease s).wRsp = s.wRsp := by unfold pollRelease; split <;> rfl
@[simp] theorem pollRelease_rRsp : (pollRelease s).rRsp = s.rRsp := by unfold pollRelease; split <;> rfl
@[simp] theorem pollRelease_rWait : (pollRelease s).rWait = s.rWait := by unfold pollRelease; split <;> rfl
@[simp] theorem pollRelease_agenda : (pollRelease s).agenda = s.agenda := by unfold pollRelease; split <;> rfl
@[simp] theorem pollRelease_choice : (pollRelease s).choice = s.choice := by unfold pollRelease; split <;> rfl
@[simp] theorem pollRelease_epoch : (pollRelease s).epoch = s.epoch := by unfold pollRelease; split <;> rfl

/-- An update that keeps a memory and the reset count keeps the bytes read from it. -/
theorem byteAt_congr {s t : State} {sp : Space} (hm : t.mem sp = s.mem sp) (he : t.epoch = s.epoch) (i : Nat) :
    t.byteAt sp i = s.byteAt sp i := by
  simp only [State.byteAt, hm, he]

end Sys2Proof.Machine
end

