-- ==== Sys2Proof/Laws/Memory.lean ====
section
/-! SUPPORT. The memories: read after write, and every memory operation keeps the canonical form. -/

namespace Sys2Proof.Machine

/-! ### Lookup -/

@[simp] theorem Memory.lookup_nil (i : Nat) : Memory.lookup i [] = none := rfl

theorem Memory.lookup_insert_self (i : Nat) (v : Byte) : ∀ m : Memory, Memory.lookup i (Memory.insert i v m) = some v
  | [] => by simp [Memory.insert, Memory.lookup]
  | (a, x) :: rest => by
    unfold Memory.insert
    split
    · simp [Memory.lookup]
    · split
      · simp [Memory.lookup]
      · rename_i h
        simp [Memory.lookup, h, Memory.lookup_insert_self i v rest]

theorem Memory.lookup_insert_of_ne (i j : Nat) (v : Byte) (h : j ≠ i) :
    ∀ m : Memory, Memory.lookup j (Memory.insert i v m) = Memory.lookup j m
  | [] => by simp [Memory.insert, Memory.lookup, h.symm]
  | (a, x) :: rest => by
    unfold Memory.insert
    split
    · simp [Memory.lookup, h.symm]
    · split
      · rename_i ha; subst ha; simp [Memory.lookup, h.symm]
      · simp [Memory.lookup, Memory.lookup_insert_of_ne i j v h rest]

/-! ### The canonical form -/

@[simp] theorem Memory.wf_nil (n : Nat) : Memory.wf n [] = true := rfl

/-- The first index of a canonical memory is inside it. -/
theorem Memory.wf_head_lt (n a : Nat) (v : Byte) : ∀ rest : Memory, Memory.wf n ((a, v) :: rest) = true → a < n
  | [] => by simp [Memory.wf]
  | (b, w) :: tl => by
    intro h
    simp only [Memory.wf, Bool.and_eq_true, decide_eq_true_eq] at h
    exact lt_trans h.1 (Memory.wf_head_lt n b w tl h.2)

theorem Memory.wf_cons (n a : Nat) (v : Byte) (rest : Memory) :
    Memory.wf n ((a, v) :: rest) = true ↔
      a < n ∧ Memory.wf n rest = true ∧ ∀ b w tl, rest = (b, w) :: tl → a < b := by
  cases rest with
  | nil => simp [Memory.wf]
  | cons p tl =>
    obtain ⟨b, w⟩ := p
    constructor
    · intro h
      simp only [Memory.wf, Bool.and_eq_true, decide_eq_true_eq] at h
      refine ⟨?_, h.2, ?_⟩
      · cases tl with
        | nil => simp only [Memory.wf, decide_eq_true_eq] at h; omega
        | cons q tl' =>
          obtain ⟨c, z⟩ := q
          exact lt_trans h.1 (Memory.wf_head_lt n b w _ h.2)
      · intro b' w' tl' e
        obtain ⟨⟨rfl, rfl⟩, rfl⟩ := by simpa using e
        exact h.1
    · rintro ⟨_, hw, hb⟩
      simp only [Memory.wf, Bool.and_eq_true, decide_eq_true_eq]
      exact ⟨hb b w tl rfl, hw⟩

/-- The first index after an insertion is the inserted one or the old first one. -/
theorem Memory.insert_head (i : Nat) (v : Byte) (m : Memory) (b : Nat) (w : Byte) (tl : Memory)
    (h : Memory.insert i v m = (b, w) :: tl) : b = i ∨ ∃ w' tl', m = (b, w') :: tl' := by
  cases m with
  | nil => simp only [Memory.insert, List.cons.injEq, Prod.mk.injEq] at h; exact .inl h.1.1.symm
  | cons p rest =>
    obtain ⟨a, x⟩ := p
    unfold Memory.insert at h
    split at h
    · simp only [List.cons.injEq, Prod.mk.injEq] at h; exact .inl h.1.1.symm
    · split at h
      · simp only [List.cons.injEq, Prod.mk.injEq] at h; exact .inl h.1.1.symm
      · simp only [List.cons.injEq, Prod.mk.injEq] at h; exact .inr ⟨x, rest, by rw [h.1.1]⟩

/-- A write inside the memory keeps the canonical form. -/
theorem Memory.wf_insert (n i : Nat) (v : Byte) (hi : i < n) :
    ∀ m : Memory, Memory.wf n m = true → Memory.wf n (Memory.insert i v m) = true
  | [], _ => by simp [Memory.insert, Memory.wf, hi]
  | (a, x) :: rest, h => by
    obtain ⟨ha, hr, hh⟩ := (Memory.wf_cons n a x rest).1 h
    unfold Memory.insert
    split
    · rename_i hia
      simp only [Memory.wf, Bool.and_eq_true, decide_eq_true_eq]
      exact ⟨hia, h⟩
    · rename_i hia
      split
      · rename_i hae
        subst hae
        exact (Memory.wf_cons n a v rest).2 ⟨hi, hr, hh⟩
      · rename_i hae
        refine (Memory.wf_cons n a x _).2 ⟨ha, Memory.wf_insert n i v hi rest hr, ?_⟩
        intro b w tl e
        rcases Memory.insert_head i v rest b w tl e with rfl | ⟨w', tl', e'⟩
        · omega
        · exact hh b w' tl' e'

/-- A list of indices rising by one from `k`, all below `n`, is canonical. -/
theorem Memory.wf_range' (n : Nat) (v : Byte) :
    ∀ len k, k + len ≤ n → Memory.wf n ((List.range' k len).map fun i => (i, v)) = true
  | 0, _, _ => by simp
  | len + 1, k, h => by
    rw [List.range'_succ, List.map_cons]
    refine (Memory.wf_cons n k v _).2 ⟨by omega, Memory.wf_range' n v len (k + 1) (by omega), ?_⟩
    intro b w tl e
    cases len with
    | zero => simp at e
    | succ m =>
      rw [List.range'_succ, List.map_cons] at e
      simp only [List.cons.injEq, Prod.mk.injEq] at e
      omega

/-- A filled memory is canonical. -/
theorem Memory.wf_filled (n : Nat) (v : Byte) : Memory.wf n (Memory.filled n v) = true := by
  unfold Memory.filled
  rw [List.range_eq_range']
  exact Memory.wf_range' n v n 0 (by omega)

theorem Memory.lookup_range' (v : Byte) (i : Nat) :
    ∀ len k, k ≤ i → i < k + len → Memory.lookup i ((List.range' k len).map fun j => (j, v)) = some v
  | 0, _, _, _ => by omega
  | len + 1, k, hk, hi => by
    rw [List.range'_succ, List.map_cons]
    unfold Memory.lookup
    split
    · rfl
    · exact Memory.lookup_range' v i len (k + 1) (by omega) (by omega)

/-- A filled memory holds the fill byte everywhere. -/
theorem Memory.lookup_filled (n : Nat) (v : Byte) (i : Nat) (hi : i < n) :
    Memory.lookup i (Memory.filled n v) = some v := by
  unfold Memory.filled
  rw [List.range_eq_range']
  exact Memory.lookup_range' v i n 0 (by omega) (by omega)

/-! ### Reading the state's memories -/

theorem byteAt_insert_self (s : State) (sp : Space) (i : Nat) (v : Byte) :
    (s.setMem sp ((s.mem sp).insert i v)).byteAt sp i = v := by
  simp only [State.byteAt, mem_setMem_self, Memory.lookup_insert_self, Option.getD_some]

theorem byteAt_insert_of_ne (s : State) (sp sp' : Space) (i j : Nat) (v : Byte) (h : ¬ (sp' = sp ∧ j = i)) :
    (s.setMem sp ((s.mem sp).insert i v)).byteAt sp' j = s.byteAt sp' j := by
  by_cases hs : sp' = sp
  · subst hs
    have hj : j ≠ i := fun e => h ⟨rfl, e⟩
    simp only [State.byteAt, mem_setMem_self, Memory.lookup_insert_of_ne i j v hj, setMem_epoch]
  · exact byteAt_congr (mem_setMem_of_ne s sp sp' _ hs) (setMem_epoch s sp _) j

theorem byteAt_memFill (s : State) (sp : Space) (v : Byte) (i : Nat) (hi : i < s.build.size sp) :
    (s.memFill sp v).byteAt sp i = v := by
  simp only [State.byteAt, State.memFill, mem_setMem_self, Memory.lookup_filled _ _ _ hi, Option.getD_some]

theorem byteAt_memFill_of_ne (s : State) (sp sp' : Space) (v : Byte) (h : sp' ≠ sp) (i : Nat) :
    (s.memFill sp v).byteAt sp' i = s.byteAt sp' i :=
  byteAt_congr (mem_setMem_of_ne s sp sp' _ h) (setMem_epoch s sp _) i

/-- The memories are canonical after reset: nothing is listed. -/
theorem resetOf_canonical (b : Build) (sp : Space) : Memory.wf (b.size sp) ((State.resetOf b).mem sp) = true := by
  cases sp <;> rfl

end Sys2Proof.Machine
end

