-- ==== Sys2Proof/Laws/Ops.lean ====
section
/-! SUPPORT. The shared operations: for each, once, everything it can do when it answers a next state. -/

namespace Sys2Proof.Machine

/-! ### Reads and writes -/

theorem readThen_of_lt (s : State) (sp : Space) (i : Nat) (k : Byte → Result) (h : i < s.build.size sp) :
    readThen s sp i k = k (s.byteAt sp i) := if_pos h

theorem writeThen_of_lt (s : State) (sp : Space) (i : Nat) (v : Byte) (k : State → Result)
    (h : i < s.build.size sp) : writeThen s sp i v k = k (s.setMem sp ((s.mem sp).insert i v)) := if_pos h

/-- A read that goes on read an index that exists, and went on with the byte there. -/
theorem readThen_cases {s : State} {sp : Space} {i : Nat} {k : Byte → Result} {t : State}
    (h : readThen s sp i k = .next t) : i < s.build.size sp ∧ k (s.byteAt sp i) = .next t := by
  unfold readThen at h
  split at h
  · exact ⟨‹_›, h⟩
  · cases h

/-- A write that goes on wrote an index that exists, and went on with the memory so changed. -/
theorem writeThen_cases {s : State} {sp : Space} {i : Nat} {v : Byte} {k : State → Result} {t : State}
    (h : writeThen s sp i v k = .next t) :
    i < s.build.size sp ∧ k (s.setMem sp ((s.mem sp).insert i v)) = .next t := by
  unfold writeThen at h
  split at h
  · exact ⟨‹_›, h⟩
  · cases h

/-- The R port's guard: either the command runs, or it is not taken and nothing changes. -/
theorem whenReady_cases {s : State} {k : State → Result} {t : State} (h : whenReady s k = .next t) :
    (s.r.pStep = .idle ∧ k s = .next t) ∨ (s.r.pStep ≠ .idle ∧ t = s) := by
  unfold whenReady at h
  split at h
  · exact .inl ⟨‹_›, h⟩
  · cases h; exact .inr ⟨‹_›, rfl⟩

theorem whenReady_of_idle (s : State) (k : State → Result) (h : s.r.pStep = .idle) : whenReady s k = k s := if_pos h

/-! ### The ring's ends -/

theorem Build.c_pos (b : Build) : 0 < b.c := Nat.two_pow_pos b.aw

theorem tail_lt (s : State) : s.tail < s.build.size .ring := Nat.mod_lt _ (Build.c_pos s.build)

theorem head_lt (s : State) : s.head < s.build.size .ring := Nat.mod_lt _ (Build.c_pos s.build)

/-- Appending never stops: the index is below `C` by its width (spec/10_state.md R46). -/
theorem ringAppend_eq (s : State) (v : Byte) (k : State → Result) :
    ringAppend s v k =
      k { s with ring := s.ring.insert s.tail v, w := { s.w with wbin := ptrNext s.build s.w.wbin } } :=
  if_pos (tail_lt s)

/-- Removing never stops (spec/10_state.md R46). -/
theorem ringRemove_eq (s : State) (k : Byte → State → Result) :
    ringRemove s k = k (s.byteAt .ring s.head) { s with r := { s.r with rbin := ptrNext s.build s.r.rbin } } :=
  if_pos (head_lt s)

/-- What the poll's source gives: under `RING` the head with a pop, else the byte at `p_idx` and no change. -/
theorem pollSource_cases {s : State} {k : Byte → State → Result} {t : State} (h : pollSource s k = .next t) :
    (s.build.policy = .ring ∧
      k (s.byteAt .ring s.head) { s with r := { s.r with rbin := ptrNext s.build s.r.rbin } } = .next t) ∨
    (s.build.policy = .timeout ∧ s.r.pIdx.toNat < s.build.cap ∧ k (s.byteAt .capb s.r.pIdx.toNat) s = .next t) ∨
    (s.build.policy = .idle ∧ s.r.pIdx.toNat < s.build.cap ∧ k (s.byteAt .xfer s.r.pIdx.toNat) s = .next t) := by
  unfold pollSource at h
  split at h
  · rename_i hp
    obtain ⟨hi, hk⟩ := readThen_cases h
    exact .inr (.inl ⟨hp, hi, hk⟩)
  · rename_i hp
    obtain ⟨hi, hk⟩ := readThen_cases h
    exact .inr (.inr ⟨hp, hi, hk⟩)
  · rename_i hp
    rw [ringRemove_eq] at h
    exact .inl ⟨hp, h⟩

/-! ### Outcomes in sequence -/

@[simp] theorem andThen_next {σ τ : Type} (s : σ) (k : σ → Host.Outcome τ Fault Refusal) :
    andThen (.next s) k = k s := rfl

theorem andThen_cases {σ τ : Type} {x : Host.Outcome σ Fault Refusal} {k : σ → Host.Outcome τ Fault Refusal} {t : τ}
    (h : andThen x k = .next t) : ∃ s, x = .next s ∧ k s = .next t := by
  cases x with
  | next s => exact ⟨s, rfl, h⟩
  | fault f => cases h
  | refused r => cases h

/-- A sequence of steps that completes completes its first step and then the rest. -/
theorem performAll_cases {e : Event} {es : List Event} {s t : State} (h : performAll (e :: es) s = .next t) :
    ∃ u, perform e s = .next u ∧ performAll es u = .next t := andThen_cases h

/-- A free port is not waited for (spec/30_encoding.md R98). -/
theorem awaitPort_of_free {s : State} (h : portFree s = true) : awaitPort s = .next s := by
  have hn : 260 * (s.rWait.length + 1) = (260 * s.rWait.length + 259) + 1 := by omega
  unfold awaitPort
  rw [hn, repeatUntil, if_pos h]

/-- A free port has no poll running and no word waiting. -/
theorem portFree_iff (s : State) : portFree s = true ↔ s.r.pStep = .idle ∧ s.rWait = [] := by
  simp [portFree]

/-- At a free port with nothing before it, a command of the consumer is executed at once. -/
theorem consumerTurn_of_free {s : State} (i : Instr) (h : portFree s = true) :
    consumerTurn [] i s = exec i (quiet s) := by
  simp [consumerTurn, performAll, awaitPort_of_free h]

/-- A repeated step that ends, ends where its condition holds or where its bound is used up. -/
theorem repeatUntil_succ_cases {done : State → Bool} {f : State → Result} {k : Nat} {s t : State}
    (h : repeatUntil done f (k + 1) s = .next t) :
    (done s = true ∧ t = s) ∨ (done s = false ∧ ∃ u, f s = .next u ∧ repeatUntil done f k u = .next t) := by
  unfold repeatUntil at h
  split at h
  · cases h; exact .inl ⟨‹_›, rfl⟩
  · exact .inr ⟨Bool.eq_false_iff.mpr ‹¬ done s = true›, andThen_cases h⟩

/-! ### The frame pins -/

/-- The pin `frm_data` shows a byte only during `P_DELIVER` and below `fb_len`, and then that byte of `FRMB`
(spec/30_encoding.md R100, spec/20_memory.md R66). -/
theorem frmData_cases {s : State} {i v : Byte} (h : s.frmData i = some v) :
    s.r.pStep = .deliver ∧ i.toNat < s.r.fbLen.toNat ∧ v = s.byteAt .frmb i.toNat := by
  unfold State.frmData at h
  split at h
  · rename_i hc
    exact ⟨by simpa [State.frmValid] using hc.1, hc.2.1, (Option.some.inj h).symm⟩
  · cases h

/-! ### The entry to the handler -/

/-- The accepted interrupt's state, by case: an occupied slot rejects the frame whole, else the copy starts
(spec/41_boundary_handler.md R151). -/
theorem boundaryEntry_cases (s : State) :
    (s.build.policy = .idle ∧ s.slotOccW = true ∧
      boundaryEntry s = { s with w := { s.w with
        ceArmed := false, hCount := s.w.cePtr, hIdx := 0, irqPending := false, ovfSlot := true,
        dropSlotCnt := satAdd s.w.dropSlotCnt s.w.cePtr.toNat, hStep := .clear } }) ∨
    (¬ (s.build.policy = .idle ∧ s.slotOccW = true) ∧
      boundaryEntry s = { s with w := { s.w with
        ceArmed := false, hCount := s.w.cePtr, hIdx := 0, irqPending := false, hStep := .copy } }) := by
  by_cases h : s.build.policy = .idle ∧ s.slotOccW = true
  · exact .inl ⟨h.1, h.2, by unfold boundaryEntry; rw [if_pos h]; rfl⟩
  · exact .inr ⟨h, by unfold boundaryEntry; rw [if_neg h]; rfl⟩

/-! ### Taking a word -/

/-- A port that takes a word executes the command it decodes to, or records an illegal word (spec/30_encoding.md R95, R96). -/
theorem runWord_cases {p : Port} {c : Cmd} {s t : State} (h : runWord p c s = .next t) :
    (∃ i, decode p c = .ok i ∧ exec i s = .next t) ∨ (∃ e, decode p c = .error e ∧ t = illegalWord p s) := by
  unfold runWord at h
  split at h
  · exact .inl ⟨_, ‹_›, h⟩
  · cases h; exact .inr ⟨_, ‹_›, rfl⟩

/-- The R port takes nothing while a poll runs or when no word waits; else it takes the oldest word
(spec/30_encoding.md R98). -/
theorem takeR_cases {s t : State} (h : takeR s = .next t) :
    (s.r.pStep ≠ .idle ∧ t = s) ∨ (s.r.pStep = .idle ∧ s.rWait = [] ∧ t = s) ∨
    (∃ c rest, s.r.pStep = .idle ∧ s.rWait = c :: rest ∧ runWord .r c { s with rWait := rest } = .next t) := by
  unfold takeR at h
  split at h
  · split at h
    · cases h; exact .inr (.inl ⟨‹_›, ‹_›, rfl⟩)
    · exact .inr (.inr ⟨_, _, ‹_›, ‹_›, h⟩)
  · cases h; exact .inl ⟨‹_›, rfl⟩

/-! ### The canonical form is kept -/

/-- A write inside a memory keeps all four canonical. -/
theorem canonical_setMem_insert (s : State) (sp : Space) (i : Nat) (v : Byte) (hi : i < s.build.size sp)
    (h : memoriesCanonical s) : memoriesCanonical (s.setMem sp ((s.mem sp).insert i v)) := by
  obtain ⟨h1, h2, h3, h4⟩ := h
  cases sp
  · exact ⟨Memory.wf_insert _ i v hi _ h1, h2, h3, h4⟩
  · exact ⟨h1, Memory.wf_insert _ i v hi _ h2, h3, h4⟩
  · exact ⟨h1, h2, Memory.wf_insert _ i v hi _ h3, h4⟩
  · exact ⟨h1, h2, h3, Memory.wf_insert _ i v hi _ h4⟩

/-- Filling a memory keeps all four canonical. -/
theorem canonical_memFill (s : State) (sp : Space) (v : Byte) (h : memoriesCanonical s) :
    memoriesCanonical (s.memFill sp v) := by
  obtain ⟨h1, h2, h3, h4⟩ := h
  cases sp
  · exact ⟨Memory.wf_filled _ v, h2, h3, h4⟩
  · exact ⟨h1, Memory.wf_filled _ v, h3, h4⟩
  · exact ⟨h1, h2, Memory.wf_filled _ v, h4⟩
  · exact ⟨h1, h2, h3, Memory.wf_filled _ v⟩

end Sys2Proof.Machine
end

