-- ==== Sys2Proof/Laws/PerInstr.lean ====
section
/-! SUPPORT. One statement about every command, one lemma per constructor: the word of a command matches the pattern of its row
of the opcode map (spec/30_encoding.md R94). -/

namespace Sys2Proof.Laws.RowMatch

/-- The match and mask of a command's row (spec/30_encoding.md R94). -/
def rowOf : Instr → Cmd × Cmd
  | .nop _ => (0x0000, 0xFFFF)
  | .rxbyte _ => (0x1000, 0xFF00)
  | .rxidle => (0x2000, 0xFFFF)
  | .tick => (0x3000, 0xFFFF)
  | .irq _ => (0x4000, 0xF0FF)
  | .arm _ => (0x5000, 0xFF00)
  | .stop => (0x6000, 0xFFFF)
  | .push _ => (0x7000, 0xFF00)
  | .poll => (0x8000, 0xFFFF)
  | .pop => (0x9000, 0xFFFF)
  | .len => (0xA000, 0xFFFF)

/-- The word of a command matches its own row. -/
def Statement (i : Instr) : Prop := i.wellFormed = true → encode i &&& (rowOf i).2 = (rowOf i).1

/-- The high byte of a word of format B is its operation code and a zero instance field. -/
theorem highByte_of_arg (op : BitVec 4) (b : Byte) : cmdWord op 0 b &&& 0xFF00 = cmdWord op 0 0 := by
  have hmask : (0xFF00 : Cmd) = (0xFF : BitVec 8) ++ (0 : Byte) := by decide
  have hones : (0xFF : BitVec 8) = BitVec.allOnes 8 := by decide
  unfold cmdWord
  rw [hmask, BitVec.and_append, hones, BitVec.and_allOnes]
  simp

theorem nop (p : Port) : Statement (.nop p) := fun _ => by cases p <;> decide
theorem rxbyte (b : Byte) : Statement (.rxbyte b) := fun _ => (highByte_of_arg 1 b).trans (show cmdWord 1 0 0 = 0x1000 by decide)
theorem rxidle : Statement .rxidle := fun _ => by decide
theorem tick : Statement .tick := fun _ => by decide
theorem irq (i : Nat) : Statement (.irq i) := fun h => by
  have hi : i < 16 := by simpa [Instr.wellFormed] using h
  interval_cases i <;> decide
theorem arm (n : Nat) : Statement (.arm n) := fun _ => (highByte_of_arg 5 _).trans (show cmdWord 5 0 0 = 0x5000 by decide)
theorem stop : Statement .stop := fun _ => by decide
theorem push (b : Byte) : Statement (.push b) := fun _ => (highByte_of_arg 7 b).trans (show cmdWord 7 0 0 = 0x7000 by decide)
theorem poll : Statement .poll := fun _ => by decide
theorem pop : Statement .pop := fun _ => by decide
theorem len : Statement .len := fun _ => by decide

end Sys2Proof.Laws.RowMatch
end

