-- ==== Sys2Proof/Laws/Pointer.lean ====
section
/-! SUPPORT. Pointer arithmetic modulo `2^PW` (spec/44_arithmetic_and_sequencing.md R241). -/

namespace Sys2Proof.Machine

theorem Build.modulus_eq (b : Build) : b.modulus = 2 * b.c := by
  unfold Build.modulus Build.pw Build.c
  rw [Nat.pow_succ, Nat.mul_comm]

theorem Build.c_bounds (b : Build) : 2 ≤ b.c ∧ b.c ≤ 128 := by
  have h1 := Nat.pow_le_pow_right (n := 2) (by decide) b.aw_pos
  have h2 := Nat.pow_le_pow_right (n := 2) (by decide) b.aw_le
  exact ⟨h1, h2⟩

theorem Build.modulus_bounds (b : Build) : 4 ≤ b.modulus ∧ b.modulus ≤ 256 := by
  have := Build.modulus_eq b
  have := Build.c_bounds b
  omega

theorem ptrDiff_lt (b : Build) (x y : Ptr) : ptrDiff b x y < b.modulus :=
  Nat.mod_lt _ (by have := Build.modulus_bounds b; omega)

theorem ptrNext_toNat (b : Build) (p : Ptr) : (ptrNext b p).toNat = (p.toNat + 1) % b.modulus := by
  have hm := Build.modulus_bounds b
  have := Nat.mod_lt (p.toNat + 1) (show 0 < b.modulus by omega)
  unfold ptrNext
  rw [BitVec.toNat_ofNat, Nat.mod_eq_of_lt (by omega)]

theorem ptrNext_lt (b : Build) (p : Ptr) : (ptrNext b p).toNat < b.modulus := by
  rw [ptrNext_toNat]
  exact Nat.mod_lt _ (by have := Build.modulus_bounds b; omega)

/-- The difference of two pointers in range, without the modulus. -/
theorem ptrDiff_of_lt (b : Build) (x y : Ptr) (hx : x.toNat < b.modulus) (hy : y.toNat < b.modulus) :
    ptrDiff b x y = if y.toNat ≤ x.toNat then x.toNat - y.toNat else x.toNat + b.modulus - y.toNat := by
  unfold ptrDiff
  rw [Nat.mod_eq_of_lt hy]
  split
  · have e : x.toNat + (b.modulus - y.toNat) = (x.toNat - y.toNat) + b.modulus := by omega
    rw [e, Nat.add_mod_right, Nat.mod_eq_of_lt (by omega)]
  · rw [Nat.mod_eq_of_lt (by omega)]
    omega

/-- The successor of a pointer in range, without the modulus. -/
theorem ptrNext_of_lt (b : Build) (p : Ptr) (hp : p.toNat < b.modulus) :
    (ptrNext b p).toNat = if p.toNat + 1 = b.modulus then 0 else p.toNat + 1 := by
  rw [ptrNext_toNat]
  split
  · rename_i h; rw [h, Nat.mod_self]
  · exact Nat.mod_eq_of_lt (by omega)

theorem ptrDiff_self (b : Build) (x : Ptr) (hx : x.toNat < b.modulus) : ptrDiff b x x = 0 := by
  rw [ptrDiff_of_lt b x x hx hx, if_pos (Nat.le_refl _), Nat.sub_self]

end Sys2Proof.Machine
end

