-- ==== Sys2Proof/Machine/Asm.lean ====
section
/-! DEFINITION. The textual syntax of spec/30_encoding.md R101: one step per line, a mnemonic in capitals and at most one
operand, an optional comment and an optional expected response. Lines are lists of characters, so that they can be evaluated. -/

namespace Sys2Proof.Machine

/-- A parsed line: the step, and the response the line expects (spec/30_encoding.md R101). -/
structure AsmLine where
  event : Option Event
  expect : Option Response
  deriving DecidableEq, Repr

/-- The value of a digit in a base up to 16. -/
def digitValue (base : Nat) (c : Char) : Option Nat :=
  let n := c.toNat
  let v :=
    if 48 ≤ n ∧ n ≤ 57 then some (n - 48)
    else if 97 ≤ n ∧ n ≤ 102 then some (n - 87)
    else if 65 ≤ n ∧ n ≤ 70 then some (n - 55)
    else none
  v.filter fun d => d < base

/-- A number in a base, after the digits already read. -/
def parseDigits (base : Nat) : Nat → List Char → Option Nat
  | acc, [] => some acc
  | acc, c :: rest => (digitValue base c).bind fun d => parseDigits base (acc * base + d) rest

/-- An operand: decimal, `0x` hexadecimal, or a character in single quotes (spec/30_encoding.md R101). -/
def parseOperand : List Char → Option Nat
  | ['\'', c, '\''] => if c.toNat < 128 then some c.toNat else none
  | '0' :: 'x' :: d :: rest => parseDigits 16 0 (d :: rest)
  | d :: rest => parseDigits 10 0 (d :: rest)
  | [] => none

/-- The text before a comment; a quoted character is no comment sign. -/
def stripComment : List Char → List Char
  | [] => []
  | '\'' :: c :: '\'' :: rest => '\'' :: c :: '\'' :: stripComment rest
  | ';' :: _ => []
  | c :: rest => c :: stripComment rest

/-- The text before and after `->`. -/
def splitArrow : List Char → List Char × Option (List Char)
  | [] => ([], none)
  | '\'' :: c :: '\'' :: rest => let x := splitArrow rest; ('\'' :: c :: '\'' :: x.1, x.2)
  | '-' :: '>' :: rest => ([], some rest)
  | c :: rest => let x := splitArrow rest; (c :: x.1, x.2)

/-- The words of a line, with the word being read; a quoted blank is part of its word. -/
def wordsFrom : List Char → List Char → List (List Char)
  | cur, [] => if cur.isEmpty then [] else [cur]
  | cur, '\'' :: c :: '\'' :: rest => wordsFrom (cur ++ ['\'', c, '\'']) rest
  | cur, c :: rest =>
    if c = ' ' ∨ c = '\t' then (if cur.isEmpty then [] else [cur]) ++ wordsFrom [] rest
    else wordsFrom (cur ++ [c]) rest

/-- A number that fits a byte. -/
def byteOperand (x : List Char) : Option Byte :=
  ((parseOperand x).filter fun n => n < 256).map fun n => BitVec.ofNat 8 n

/-- The command of a mnemonic and its operand; `NOP` is taken on the given port (spec/30_encoding.md R101). -/
def parseCommand (nopPort : Port) : List (List Char) → Option Instr
  | [['N', 'O', 'P']] => some (.nop nopPort)
  | [['R', 'X', 'B', 'Y', 'T', 'E'], x] => (byteOperand x).map .rxbyte
  | [['R', 'X', 'I', 'D', 'L', 'E']] => some .rxidle
  | [['T', 'I', 'C', 'K']] => some .tick
  | [['I', 'R', 'Q'], x] => ((parseOperand x).map .irq).filter Instr.wellFormed
  | [['A', 'R', 'M'], x] => ((parseOperand x).map .arm).filter Instr.wellFormed
  | [['S', 'T', 'O', 'P']] => some .stop
  | [['P', 'U', 'S', 'H'], x] => (byteOperand x).map .push
  | [['P', 'O', 'L', 'L']] => some .poll
  | [['P', 'O', 'P']] => some .pop
  | [['L', 'E', 'N']] => some .len
  | _ => none

/-- A command presented on its own port. -/
def commandEvent (i : Instr) : Event :=
  match i.port with
  | .w => .wWord (encode i)
  | .r => .rWord (encode i)

/-- A step of a line: an autonomous step by its name, or a command (spec/30_encoding.md R101). -/
def parseStep (nopPort : Port) : List (List Char) → Option Event
  | [['H', 'S', 'T', 'E', 'P']] => some .hstep
  | [['P', 'S', 'T', 'E', 'P']] => some .pstep
  | [['S', 'Y', 'N', 'C', '_', 'W']] => some .syncW
  | [['S', 'Y', 'N', 'C', '_', 'R']] => some .syncR
  | [['R', 'E', 'S', 'E', 'T']] => some .reset
  | x => (parseCommand nopPort x).map commandEvent

/-- The name of a response code. -/
def parseCode : List Char → Option RspCode
  | ['O', 'K'] => some .ok
  | ['N', 'A', 'K'] => some .nak
  | ['I', 'L', 'L'] => some .ill
  | _ => none

/-- The expected response after `->`; a value left out is 0. -/
def parseExpect : List (List Char) → Option Response
  | [c] => (parseCode c).map fun k => ⟨k, 0⟩
  | [c, v] => (parseCode c).bind fun k => (byteOperand v).map fun n => ⟨k, n⟩
  | _ => none

/-- A line of a program; `none` where it is not in the syntax (spec/30_encoding.md R101). -/
def parseLine (nopPort : Port) (line : List Char) : Option AsmLine :=
  let x := splitArrow (stripComment line)
  let expect : Option (Option Response) :=
    match x.2 with
    | none => some none
    | some e => (parseExpect (wordsFrom [] e)).map some
  match wordsFrom [] x.1 with
  | [] => if x.2.isNone then some ⟨none, none⟩ else none
  | ws => expect.bind fun e => (parseStep nopPort ws).map fun ev => ⟨some ev, e⟩

/-- A command in the textual syntax, with its operand in decimal (spec/30_encoding.md R101). -/
def instrText (i : Instr) : String :=
  match i with
  | .rxbyte b => i.mnemonic ++ " " ++ toString b.toNat
  | .irq n => i.mnemonic ++ " " ++ toString n
  | .arm n => i.mnemonic ++ " " ++ toString n
  | .push b => i.mnemonic ++ " " ++ toString b.toNat
  | .nop _ | .rxidle | .tick | .stop | .poll | .pop | .len => i.mnemonic

end Sys2Proof.Machine
end

