-- ==== Sys2Proof/Tests/Slice0.lean ====
section
/-! SUPPORT. Tests. The expected values are those of spec/95_test_vectors.md (V-…), spec/30_encoding.md and the examples of the
rules; then one witness for each statement with hypotheses, clause by clause. -/

namespace Sys2Proof.Tests

open Sys2Proof Sys2Proof.Machine

/-! ### Helpers -/

/-- The reference parameters, with `INST = 1`. -/
def wide (p : Policy) : Build := { policy := p, cap := 128, aw := 7, t := 100, inst := 1 }

/-- A small build: `CAP = 6`, `C = 8`, `INST = 1`. -/
def small (p : Policy) : Build := { policy := p, cap := 6, aw := 3, t := 100, inst := 1 }

/-- A small state. -/
def st (b : Build) (w : WRegs) (r : RRegs) : State := { build := b, w := w, r := r }

/-- The outcome is a next state with a property. -/
def after (x : Result) (p : State → Bool) : Bool :=
  match x with
  | .next t => p t
  | .fault _ => false
  | .refused _ => false

/-- What `decode` answers, as plain data. -/
def decodes (p : Port) (c : Cmd) : Option Instr := (decode p c).toOption

def hello : Memory := [(0, 0x48), (1, 0x65), (2, 0x6C), (3, 0x6C), (4, 0x6F)]

/-! ### Well-formed commands: each check has a term it refuses -/

theorem test_irq_instance_too_wide : (Instr.irq 16).wellFormed = false ∧ (Instr.irq 15).wellFormed = true := by decide
theorem test_arm_count_too_wide : (Instr.arm 256).wellFormed = false ∧ (Instr.arm 255).wellFormed = true := by decide

/-- Parameters at and past the ends of their ranges (spec/00_scope.md R6 to R10, spec/93_implementation_defined.md S8). -/
theorem test_build_ranges :
    (Build.ofParams .ring 128 128 4294967294 15).isSome = true ∧ (Build.ofParams .ring 1 2 0 0).isSome = true ∧
      Build.ofParams .ring 129 128 100 1 = none ∧ Build.ofParams .ring 0 128 100 1 = none ∧
      Build.ofParams .ring 128 96 100 1 = none ∧ Build.ofParams .ring 128 256 100 1 = none ∧
      Build.ofParams .ring 128 128 4294967295 1 = none ∧ Build.ofParams .ring 128 128 100 16 = none := by decide

/-! ### Decoding: words written out from spec/30_encoding.md R94; V-D1 to V-D32 -/

theorem test_decode_nop : decodes .w 0b0000000000000000 = some (.nop .w) ∧ decodes .r 0b0000000000000000 = some (.nop .r) := by
  decide
theorem test_decode_rxbyte : decodes .w 0b0001000001001000 = some (.rxbyte 72) ∧ decodes .w 0b0001000011111111 = some (.rxbyte 255) := by
  decide
theorem test_decode_rxidle : decodes .w 0b0010000000000000 = some .rxidle ∧ decodes .w 0b0010000000000001 = none := by decide
theorem test_decode_tick : decodes .w 0b0011000000000000 = some .tick ∧ decodes .w 0b0011000100000000 = none := by decide
theorem test_decode_irq : decodes .w 0b0100000100000000 = some (.irq 1) ∧ decodes .w 0b0100111100000000 = some (.irq 15) ∧
    decodes .w 0b0100000000000000 = some (.irq 0) ∧ decodes .w 0b0100000100000001 = none := by decide
theorem test_decode_arm : decodes .w 0b0101000010000000 = some (.arm 128) ∧ decodes .w 0b0101000000000000 = some (.arm 0) ∧
    decodes .w 0b0101000011111111 = some (.arm 255) ∧ decodes .w 0b0101000110000000 = none := by decide
theorem test_decode_stop : decodes .w 0b0110000000000000 = some .stop := by decide
theorem test_decode_push : decodes .w 0b0111000010101010 = some (.push 170) ∧ decodes .r 0b0111000000000000 = none := by decide
theorem test_decode_poll : decodes .r 0b1000000000000000 = some .poll ∧ decodes .w 0b1000000000000000 = none ∧
    decodes .r 0b1000000000000001 = none := by decide
theorem test_decode_pop : decodes .r 0b1001000000000000 = some .pop ∧ decodes .r 0b1001000100000000 = none := by decide
theorem test_decode_len : decodes .r 0b1010000000000000 = some .len ∧ decodes .w 0b1010000000000000 = none := by decide

/-- Each cause of an illegal word by its name: V-D28, V-D31, V-D6, V-D27, V-D5. -/
theorem test_decode_names_the_cause :
    decode .w 0xB000 = .error .reservedOp ∧ decode .r 0xFFFF = .error .reservedOp ∧ decode .r 0x1048 = .error .wrongPort ∧
      decode .w 0xA000 = .error .wrongPort ∧ decode .w 0x1148 = .error .nonZeroField := ⟨rfl, rfl, rfl, rfl, rfl⟩

/-- Words of spec/opcode_table.json as the host gives them, and a reserved one. -/
theorem test_decodeTableWord : decodeTableWord 16 0x0000 = some (.nop .w) ∧ decodeTableWord 16 0x5080 = some (.arm 128) ∧
    decodeTableWord 16 0x9000 = some .pop ∧ decodeTableWord 16 0xC000 = none := by decide

/-- A word of each port is run by the very next step from reset (V-L2, V-G2). -/
theorem test_withFetchWord_runs_the_word :
    after (step (State.reset.withFetchWord 16 0x5080)) (fun t => t.w.ceArmed && t.w.ceLen == 128 && t.wRsp == some ⟨.ok, 0⟩) = true ∧
      after (step (State.reset.withFetchWord 16 0xA000)) (fun t => t.rRsp == some ⟨.ok, 0⟩) = true := by decide

/-! ### The textual syntax (spec/30_encoding.md R101) -/

/-- The example lines of R101: an operand, an expected response, a comment, an autonomous step, a quoted character. -/
theorem test_parseLine :
    parseLine .w ['A', 'R', 'M', ' ', '1', '2', '8'] = some ⟨some (.wWord 0x5080), none⟩ ∧
      parseLine .w ['P', 'O', 'P', ' ', '-', '>', ' ', 'O', 'K', ' ', '0', 'x', '4', '8', ' ', ';', 'c'] =
        some ⟨some (.rWord 0x9000), some ⟨.ok, 0x48⟩⟩ ∧
      parseLine .w ['S', 'Y', 'N', 'C', '_', 'W'] = some ⟨some .syncW, none⟩ ∧
      parseLine .w ['P', 'U', 'S', 'H', ' ', '\'', ';', '\''] = some ⟨some (.wWord 0x703B), none⟩ ∧
      parseLine .w ['I', 'R', 'Q', ' ', '1', '6'] = none := by decide

/-! ### The line and the Capture Engine (spec/95_test_vectors.md 2.2) -/

/-- V-L4, and V-L1: an unarmed engine drops the byte. -/
theorem test_rxbyte_stores_or_drops :
    after (exec (.rxbyte 0x6F) (st (wide .ring) { ceArmed := true, ceLen := 128, cePtr := 4, now := 7, lastTime := 3 } {}))
      (fun t => t.wRsp == some ⟨.ok, 0⟩ && t.w.cePtr == 5 && t.w.lastTime == 7 && !t.w.irqPending && t.byteAt .capb 4 == 0x6F) = true ∧
    after (exec (.rxbyte 0x48) (State.resetOf (wide .ring)))
      (fun t => t.wRsp == some ⟨.nak, 0⟩ && t.w.ovfCap && t.w.dropLineCnt == 1 && t.capb == []) = true := by decide

/-- V-L5: the byte that fills the buffer raises the event; V-L7: not under TIMEOUT. -/
theorem test_rxbyte_filling_the_buffer :
    after (exec (.rxbyte 0x0A) (st (wide .idle) { ceArmed := true, ceLen := 4, cePtr := 3 } {}))
      (fun t => t.w.cePtr == 4 && t.w.irqPending) = true ∧
    after (exec (.rxbyte 0x0A) (st (wide .timeout) { ceArmed := true, ceLen := 4, cePtr := 3 } {}))
      (fun t => t.w.cePtr == 4 && !t.w.irqPending) = true := by decide

/-- V-L10, V-L12, V-L13, V-L14. -/
theorem test_rxidle :
    after (exec .rxidle (st (wide .idle) { ceArmed := true, ceLen := 128, cePtr := 5 } {}))
      (fun t => t.wRsp == some ⟨.ok, 0⟩ && t.w.irqPending && t.bdState == .ready) = true ∧
    after (exec .rxidle (st (wide .idle) { ceArmed := true, ceLen := 128 } {})) (fun t => t.wRsp == some ⟨.nak, 0⟩) = true ∧
    after (exec .rxidle (st (wide .timeout) { ceArmed := true, ceLen := 128, cePtr := 5 } {}))
      (fun t => t.wRsp == some ⟨.nak, 0⟩ && !t.w.irqPending) = true ∧
    after (exec .rxidle (st (wide .ring) { ceLen := 128, cePtr := 5 } {})) (fun t => t.wRsp == some ⟨.nak, 0⟩) = true := by decide

/-- V-L15, V-L16. -/
theorem test_tick_wraps :
    after (exec .tick (st (wide .ring) { now := 41 } {})) (fun t => t.w.now == 42 && t.wRsp == some ⟨.ok, 0⟩) = true ∧
    after (exec .tick (st (wide .ring) { now := 0xFFFFFFFF } {})) (fun t => t.w.now == 0) = true := by decide

/-- V-L25 (the captured bytes are discarded), V-L17, V-L18. -/
theorem test_arm_counts :
    after (exec (.arm 64) (st (wide .ring) { ceLen := 128, cePtr := 3 } {}))
      (fun t => t.w == { ceArmed := true, ceLen := 64 } && t.wRsp == some ⟨.ok, 0⟩) = true ∧
    after (exec (.arm 0) (State.resetOf (wide .ring))) (fun t => t.wRsp == some ⟨.nak, 0⟩ && t.w == {}) = true ∧
    after (exec (.arm 129) (State.resetOf (wide .ring))) (fun t => t.wRsp == some ⟨.nak, 0⟩ && t.w == {}) = true := by decide

/-- V-L20, V-L21, V-L22: refused while armed, while a handler runs, while a timeout drain runs. -/
theorem test_arm_refused :
    after (exec (.arm 8) (st (wide .ring) { ceArmed := true, ceLen := 16 } {})) (fun t => t.wRsp == some ⟨.nak, 0⟩) = true ∧
    after (exec (.arm 128) (st (wide .ring) { hStep := .clear } {})) (fun t => t.wRsp == some ⟨.nak, 0⟩) = true ∧
    after (exec (.arm 128) (st (wide .timeout) { cePtr := 5 } { toReady := true, pStep := .copy, pCount := 5 }))
      (fun t => t.wRsp == some ⟨.nak, 0⟩) = true := by decide

/-- V-L23, V-L24, V-L26. -/
theorem test_stop :
    after (exec .stop (st (wide .ring) { ceArmed := true, ceLen := 128, cePtr := 3, irqPending := true } {}))
      (fun t => t.w == { ceLen := 128, cePtr := 3 } && t.wRsp == some ⟨.ok, 0⟩) = true ∧
    after (exec .stop (st (wide .ring) { ceLen := 128, cePtr := 3 } {})) (fun t => t.wRsp == some ⟨.nak, 0⟩) = true ∧
    after (exec .stop (st (wide .ring) { hStep := .rearm } {})) (fun t => t.wRsp == some ⟨.nak, 0⟩) = true := by decide

/-- V-L27 on both ports. -/
theorem test_nop :
    after (exec (.nop .w) (st (wide .ring) { now := 9 } {})) (fun t => t.wRsp == some ⟨.ok, 0⟩ && t.w == { now := 9 }) = true ∧
    after (exec (.nop .r) (st (wide .ring) { now := 9 } {})) (fun t => t.rRsp == some ⟨.ok, 0⟩ && t.w == { now := 9 }) = true := by
  decide

/-! ### The boundary handler (spec/95_test_vectors.md 2.3) -/

/-- V-H1, V-H2, V-H9, V-H10, V-H11. -/
theorem test_irq_ring :
    after (exec (.irq 1) (st (wide .ring) { ceArmed := true, ceLen := 128, cePtr := 5, irqPending := true } {}))
      (fun t => t.wRsp == some ⟨.ok, 5⟩ && t.w == { ceLen := 128, cePtr := 5, hStep := .copy, hCount := 5 }) = true ∧
    after (exec (.irq 2) (st (wide .ring) { ceArmed := true, ceLen := 128, cePtr := 5, irqPending := true } {}))
      (fun t => t.wRsp == some ⟨.nak, 0⟩ && t.w.irqPending && t.w.ceArmed && t.w.spur && t.w.spurCnt == 1) = true ∧
    after (exec (.irq 1) (st (wide .ring) { ceArmed := true, cePtr := 5 } {})) (fun t => t.wRsp == some ⟨.nak, 0⟩ && !t.w.spur) = true ∧
    after (exec (.irq 1) (st (wide .timeout) { ceArmed := true, cePtr := 5 } {})) (fun t => t.wRsp == some ⟨.nak, 0⟩) = true ∧
    after (exec (.irq 1) (st (wide .ring) { hStep := .copy, hIdx := 1 } {})) (fun t => t.wRsp == some ⟨.nak, 0⟩) = true := by decide

/-- V-H7: the slot is occupied, the frame is rejected whole; V-E1: a saturated counter stays. -/
theorem test_irq_slot_overrun_and_saturation :
    after (exec (.irq 1) (st (wide .idle) { ceArmed := true, cePtr := 2, irqPending := true, xw := true } {}))
      (fun t => t.wRsp == some ⟨.ok, 2⟩ && t.w.hStep == .clear && t.w.ovfSlot && t.w.dropSlotCnt == 2 && !t.w.ceArmed) = true ∧
    after (exec (.irq 3) (st (wide .ring) { spur := true, spurCnt := 0xFFFFFFFF } {})) (fun t => t.w.spurCnt == 0xFFFFFFFF) = true := by
  decide

/-- V-H3 and V-H6: a byte is pushed; the rest is rejected at once when the ring is full. -/
theorem test_hstep_copy_ring :
    after (perform .hstep { st (wide .ring) { hStep := .copy, hCount := 5 } {} with capb := hello })
      (fun t => t.w.hIdx == 1 && t.w.wbin == 1 && t.byteAt .ring 0 == 0x48 && t.wRsp == none) = true ∧
    after (perform .hstep (st (small .ring) { hStep := .copy, hCount := 5, hIdx := 2, wbin := 8 } {}))
      (fun t => t.w.hIdx == 5 && t.w.ovfRing && t.w.dropRingCnt == 3 && t.w.wbin == 8 && t.w.hStep == .copy) = true := by decide

/-- V-H14 and V-H15: a byte goes to the slot; the slot is published after the last one. -/
theorem test_hstep_copy_idle :
    after (perform .hstep { st (wide .idle) { hStep := .copy, hCount := 3 } {} with capb := hello })
      (fun t => t.w.hIdx == 1 && t.byteAt .xfer 0 == 0x48 && !t.w.xw) = true ∧
    after (perform .hstep (st (wide .idle) { hStep := .copy, hCount := 3, hIdx := 3 } {}))
      (fun t => t.w.xw && t.w.xferLen == 3 && t.w.hStep == .clear) = true := by decide

/-- V-H4, V-H5, V-H8: the copy ends, `CAPB` is cleared, the engine is armed again. -/
theorem test_hstep_clear_and_rearm :
    after (perform .hstep (st (small .ring) { hStep := .copy, hCount := 5, hIdx := 5, cePtr := 5 } {})) (fun t => t.w.hStep == .clear) = true ∧
    after (perform .hstep { st (small .ring) { hStep := .clear, cePtr := 5 } {} with capb := hello })
      (fun t => t.w.hStep == .rearm && (List.range 6).all (fun i => t.byteAt .capb i == 0)) = true ∧
    after (perform .hstep (st (small .ring) { hStep := .rearm, cePtr := 5, ceLen := 6 } {}))
      (fun t => t.w == { ceArmed := true, ceLen := 6 }) = true := by decide

/-! ### The ring (spec/95_test_vectors.md 2.4) -/

/-- V-G5 (the pointer passes from 0x7F to 0x80), V-G10 (it wraps to 0). -/
theorem test_push_wraps :
    after (exec (.push 0xAA) (st (wide .idle) { wbin := 0x7F } {})) (fun t => t.w.wbin == 0x80 && t.byteAt .ring 127 == 0xAA) = true ∧
    after (exec (.push 0x22) (st (wide .idle) { wbin := 0xFF, rgW2 := 0x81 } {}))
      (fun t => t.w.wbin == 0 && t.byteAt .ring 127 == 0x22 && t.wRsp == some ⟨.ok, 0⟩) = true := by decide

/-- V-G6, V-G14, V-G15: full, refused by a running handler, saturated. -/
theorem test_push_refused :
    after (exec (.push 0xBB) (st (wide .idle) { wbin := 0x80 } {}))
      (fun t => t.wRsp == some ⟨.nak, 0⟩ && t.w.ovfRing && t.w.dropRingCnt == 1 && t.w.wbin == 0x80) = true ∧
    after (exec (.push 0x33) (st (wide .ring) { hStep := .copy } {})) (fun t => t.wRsp == some ⟨.nak, 0⟩ && !t.w.ovfRing) = true ∧
    after (exec (.push 1) (st (wide .idle) { wbin := 0x80, dropRingCnt := 0xFFFFFFFF } {}))
      (fun t => t.w.dropRingCnt == 0xFFFFFFFF) = true := by decide

/-- V-G11, V-G12 (the read pointer wraps), V-G3 (empty as the consumer sees it). -/
theorem test_pop :
    after (exec .pop { st (wide .idle) { wbin := 0 } { rbin := 0xFE, wgR2 := 0x80 } with ring := [(126, 0x11)] })
      (fun t => t.rRsp == some ⟨.ok, 17⟩ && t.r.rbin == 0xFF) = true ∧
    after (exec .pop { st (wide .idle) { wbin := 0 } { rbin := 0xFF, wgR2 := 0 } with ring := [(127, 0x22)] })
      (fun t => t.rRsp == some ⟨.ok, 34⟩ && t.r.rbin == 0) = true ∧
    after (exec .pop { st (wide .idle) { wbin := 1 } {} with ring := [(0, 0x41)] })
      (fun t => t.rRsp == some ⟨.nak, 0⟩ && t.r == {}) = true := by decide

/-- The example of R190, and a full ring (R190 a). -/
theorem test_len :
    after (exec .len (st (wide .idle) {} { rbin := 5, wgR2 := 0x0D })) (fun t => t.rRsp == some ⟨.ok, 4⟩) = true ∧
    after (exec .len (st (wide .idle) {} { wgR2 := 0xC0 })) (fun t => t.rRsp == some ⟨.ok, 128⟩) = true := by decide

/-- The examples of R196 and R197. -/
theorem test_synchronisers :
    after (perform .syncW (st (wide .ring) { rgW1 := 0x03, xrW1 := true } { rbin := 3 }))
      (fun t => t.w.rgW2 == 0x03 && t.w.rgW1 == 0x02 && t.w.xrW2 && !t.w.xrW1) = true ∧
    after (perform .syncR (st (wide .ring) { wbin := 5, xw := true } {}))
      (fun t => t.r.wgR1 == 0x07 && t.r.wgR2 == 0 && t.r.xwR1 && !t.r.xwR2) = true := by decide

/-- The spot values of spec/95_test_vectors.md 2.4. -/
theorem test_gray_values :
    [0x00, 0x01, 0x02, 0x03, 0x04, 0x05, 0x7E, 0x7F, 0x80, 0x81, 0xFE, 0xFF].map b2g =
      [0x00, 0x01, 0x03, 0x02, 0x06, 0x07, 0x41, 0x40, 0xC0, 0xC1, 0x81, 0x80] := by decide

/-! ### The Consumer Task (spec/95_test_vectors.md 2.5) -/

/-- V-T3 and V-T4 (strictly above `T`), V-T5 (across the wrap), V-T6, V-T7. -/
theorem test_poll_timeout :
    after (exec .poll (st (wide .timeout) { ceArmed := true, cePtr := 5, lastTime := 40, now := 140 } {}))
      (fun t => t.rRsp == some ⟨.nak, 0⟩ && t.w.ceArmed && t.r == {}) = true ∧
    after (exec .poll (st (wide .timeout) { ceArmed := true, cePtr := 5, lastTime := 40, now := 141 } {}))
      (fun t => t.rRsp == none && !t.w.ceArmed && t.r == { toReady := true, pCount := 5, pStep := .copy }) = true ∧
    after (exec .poll (st (wide .timeout) { ceArmed := true, cePtr := 5, lastTime := 0xFFFFFF9C, now := 20 } {}))
      (fun t => t.r.toReady) = true ∧
    after (exec .poll (st (wide .timeout) { ceArmed := true, lastTime := 40, now := 500 } {})) (fun t => t.rRsp == some ⟨.nak, 0⟩) = true ∧
    after (exec .poll (st (wide .timeout) { cePtr := 5, now := 500 } {})) (fun t => t.rRsp == some ⟨.nak, 0⟩) = true := by decide

/-- V-P4, V-P2, V-P6, V-P3. -/
theorem test_poll_slot_and_ring :
    after (exec .poll (st (wide .idle) { xw := true, xferLen := 3 } { xwR2 := true })) (fun t => t.r.pCount == 3 && t.r.pStep == .copy && t.rRsp == none) = true ∧
    after (exec .poll (State.resetOf (wide .idle))) (fun t => t.rRsp == some ⟨.nak, 0⟩) = true ∧
    after (exec .poll (st (wide .ring) { wbin := 5 } { wgR2 := 7 })) (fun t => t.r.pCount == 5 && t.r.pStep == .copy) = true ∧
    after (exec .poll (st (wide .ring) { wbin := 1 } {})) (fun t => t.rRsp == some ⟨.nak, 0⟩) = true := by decide

/-- V-T4a, V-P7, and the copy from the slot. -/
theorem test_pstep_copy :
    after (perform .pstep { st (wide .timeout) { cePtr := 5 } { pStep := .copy, pCount := 5, toReady := true } with capb := hello })
      (fun t => t.r.pIdx == 1 && t.byteAt .frmb 0 == 0x48) = true ∧
    after (perform .pstep { st (wide .ring) { wbin := 5 } { pStep := .copy, pCount := 5, wgR2 := 7 } with ring := hello })
      (fun t => t.r.rbin == 1 && t.r.pIdx == 1 && t.byteAt .frmb 0 == 0x48) = true ∧
    after (perform .pstep { st (wide .idle) { xferLen := 5 } { pStep := .copy, pCount := 5, pIdx := 4 } with xfer := hello })
      (fun t => t.r.pIdx == 5 && t.byteAt .frmb 4 == 0x6F) = true := by decide

/-- V-T4b, V-T4c, V-T4d. -/
theorem test_pstep_deliver_and_clear :
    after (perform .pstep (st (small .ring) {} { pStep := .copy, pCount := 5, pIdx := 5 })) (fun t => t.r.pStep == .deliver && t.r.fbLen == 5) = true ∧
    after (perform .pstep { st (small .ring) {} { pStep := .deliver, fbLen := 5 } with frmb := hello })
      (fun t => t.r.pStep == .fbclr && t.outFrames == [[0x48, 0x65, 0x6C, 0x6C, 0x6F]]) = true ∧
    after (perform .pstep { st (small .ring) {} { pStep := .fbclr, fbLen := 5 } with frmb := hello })
      (fun t => t.r.pStep == .reset && t.r.fbLen == 0 && (List.range 8).all (fun i => t.byteAt .frmb i == 0)) = true := by decide

/-- V-T4e, V-P5, and the reset step under RING. -/
theorem test_pstep_reset :
    after (perform .pstep { st (small .timeout) { ceLen := 6, cePtr := 5 } { pStep := .reset, pCount := 5, toReady := true } with capb := hello })
      (fun t => t.rRsp == some ⟨.ok, 5⟩ && t.w == { ceLen := 6, ceArmed := true } && !t.r.toReady && t.byteAt .capb 0 == 0) = true ∧
    after (perform .pstep (st (small .idle) { xw := true } { pStep := .reset, pCount := 3 }))
      (fun t => t.rRsp == some ⟨.ok, 3⟩ && t.r.xr && t.r.pStep == .idle) = true ∧
    after (perform .pstep (st (small .ring) {} { pStep := .reset, pCount := 5 })) (fun t => t.rRsp == some ⟨.ok, 5⟩ && !t.r.xr) = true := by
  decide

/-- `PUT` and `GET` with a step between (R200: `SYNC_W` makes room visible; R201 (b): bytes that `SYNC_R` makes visible after the
`LEN` are left). -/
theorem test_put_and_get_among_other_steps :
    (match put [0x11] (st (small .idle) { wbin := 8, rgW1 := 1 } { rbin := 1 }) with
      | .next x => x.1 == 0 && x.2.w.ovfRing
      | _ => false) = true ∧
    (match putAmong [([.syncW], 0x11)] (st (small .idle) { wbin := 8, rgW1 := 1 } { rbin := 1 }) with
      | .next x => x.1 == 1 && x.2.w.wbin == 9
      | _ => false) = true ∧
    (match getAmong 9 [[], [.syncR]] { st (small .idle) { wbin := 5 } { wgR1 := 7, wgR2 := 1 } with ring := hello } with
      | .next x => x.1 == [0x48] && x.2.lenR == 4
      | _ => false) = true := by decide

/-- Log 21: a `RESET` between makes the second `POP` answer `NAK`; its value 0 is returned. -/
theorem test_get_with_a_reset_between :
    (match getAmong 2 [[], [], [.reset]] { st (small .idle) { wbin := 2 } { wgR1 := 3, wgR2 := 3 } with ring := hello } with
      | .next x => x.1 == [0x48, 0]
      | _ => false) = true := by decide

/-- R98: a `GET` given while a poll runs waits for its end; then it finds the ring drained. -/
theorem test_get_waits_for_the_poll :
    (match get 9 { st (small .ring) { wbin := 2 } { wgR2 := 3, pStep := .reset, rbin := 1, pCount := 1 } with ring := hello } with
      | .next x => x.1 == [0x65] && x.2.r.pStep == .idle
      | _ => false) = true := by decide

/-- The pin `frm_data` (R100, R66): the bytes of the frame during `P_DELIVER`, and no value past it or in another state. -/
theorem test_frm_data :
    ({ st (small .ring) {} { pStep := .deliver, fbLen := 5 } with frmb := hello } : State).frmData 4 = some 0x6F ∧
      ({ st (small .ring) {} { pStep := .deliver, fbLen := 5 } with frmb := hello } : State).frmData 5 = none ∧
      ({ st (small .ring) {} { pStep := .fbclr, fbLen := 5 } with frmb := hello } : State).frmData 4 = none := by decide

/-! ### Ports, illegal words, reset (spec/95_test_vectors.md 2.5, 2.6) -/

/-- V-P9: a word offered during a poll is not taken; it waits. -/
theorem test_port_held_during_a_poll :
    after (perform (.rWord 0xFFFF) (st (wide .ring) { wbin := 5 } { wgR2 := 7, pStep := .copy, pCount := 5 }))
      (fun t => t.rRsp == none && !t.r.illR && t.rWait == [0xFFFF]) = true ∧
    after (perform .rTake { st (wide .ring) {} {} with rWait := [0xFFFF, 0xA000] })
      (fun t => t.rRsp == some ⟨.ill, 0⟩ && t.r.illR && t.rWait == [0xA000]) = true := by decide

/-- V-E2, V-E3. -/
theorem test_illegal_words :
    after (perform (.wWord 0xC123) State.reset) (fun t => t.wRsp == some ⟨.ill, 0⟩ && t.w == { illW := true } && t.sr0 == 16) = true ∧
    after (perform (.rWord 0x1048) State.reset) (fun t => t.rRsp == some ⟨.ill, 0⟩ && t.r == { illR := true } && t.sr1 == 1) = true := by
  decide

/-- The start state of V-R1. -/
def busy : State :=
  { st (wide .ring) {} { rbin := 0x30, wgR2 := 0x29 } with
    w := { ceArmed := true, cePtr := 9, ceLen := 128, irqPending := true, wbin := 0x33, now := 1234, lastTime := 1200,
           ovfCap := true, dropLineCnt := 4, spur := true, spurCnt := 2 } }

/-- V-R1. -/
theorem test_reset_step :
    after (perform .reset busy) (fun t => t.w == {} && t.r == {} && t.capb == [] && t.build == wide .ring) = true := by decide

/-- The memories of the reset state are in canonical form. -/
theorem test_reset_memories : memoriesCanonical State.reset := by decide

/-! ### Witnesses: a concrete state and operands that meet the hypotheses of each statement -/

theorem witness_DecodeOfEncodeIsIdentity : (Instr.irq 15).wellFormed = true ∧ (Instr.arm 255).wellFormed = true := by decide

theorem witness_DecodedWordReencodes : decode .w 0x4F00 = .ok (.irq 15) ∧ decode .r 0x8000 = .ok .poll := ⟨rfl, rfl⟩

theorem witness_IllegalWordOnlyRecords : decode .w 0xB000 = .error .reservedOp ∧ decode .r 0x7000 = .error .wrongPort ∧
    0xB ≤ (cmdOp 0xB000).toNat ∧ 0xB ≤ (cmdOp 0xF000).toNat := ⟨rfl, rfl, by decide, by decide⟩

theorem witness_StepRunsTheDecodedCommand :
    (({ State.reset with agenda := [.wWord 0x3000] } : State).agenda = .wWord 0x3000 :: [] ∧ decode .w 0x3000 = .ok .tick) ∧
    (({ State.reset with agenda := [.rWord 0xA000] } : State).agenda = .rWord 0xA000 :: [] ∧ decode .r 0xA000 = .ok .len ∧
      State.reset.r.pStep = .idle ∧ State.reset.rWait = []) ∧
    (({ State.reset with agenda := [.rTake], rWait := [0x9000] } : State).agenda = .rTake :: [] ∧ decode .r 0x9000 = .ok .pop ∧
      ({ State.reset with agenda := [.rTake], rWait := [0x9000] } : State).rWait = 0x9000 :: []) ∧
    State.reset.agenda = [] := ⟨⟨rfl, rfl⟩, ⟨rfl, rfl, rfl, rfl⟩, ⟨rfl, rfl, rfl⟩, rfl⟩

theorem witness_RunningPollHoldsTheRPort :
    (st (wide .ring) {} { pStep := .copy }).r.pStep ≠ .idle ∧ Instr.port .pop = .r ∧ Instr.port (.nop .r) = .r ∧
    (({ State.reset with rWait := [0x9000, 0xA000] } : State).r.pStep = .idle ∧
      ({ State.reset with rWait := [0x9000, 0xA000] } : State).rWait = 0x9000 :: [0xA000]) := by decide

/-- `NopOnlyAnswers`, `PopRemovesOrAnswersEmpty`, `LenAnswersTheConsumerView`, `PollStartsOrDeclines`: a ready port, with an empty
and with a full ring. -/
theorem witness_ready_port : State.reset.r.pStep = .idle ∧ State.reset.lenR = 0 ∧
    (st (wide .ring) {} { wgR2 := 0xC0 }).r.pStep = .idle ∧ (st (wide .ring) {} { wgR2 := 0xC0 }).lenR = 128 := by decide

/-- `RxbyteStoresOrDrops`: the engine's bound at reset, and at its greatest count. -/
theorem witness_RxbyteStoresOrDrops : State.reset.w.ceLen.toNat ≤ State.reset.build.cap ∧
    (st (wide .ring) { ceLen := 128 } {}).w.ceLen.toNat ≤ (wide .ring).cap := by decide

/-- `HandlerPushesOneByte`: one byte left with room, a full ring, and the end of the copy. -/
theorem witness_HandlerPushesOneByte :
    ((small .ring).policy = .ring ∧ (st (small .ring) { hStep := .copy, hCount := 6, hIdx := 5, wbin := 7 } {}).w.hStep = .copy ∧
      (st (small .ring) { hStep := .copy, hCount := 6, hIdx := 5, wbin := 7 } {}).w.hCount.toNat ≤ (small .ring).cap) ∧
    (st (small .ring) { hStep := .copy, hCount := 6, hIdx := 5, wbin := 7 } {}).lenW < (small .ring).c ∧
    ¬ (st (small .ring) { hStep := .copy, hCount := 6, hIdx := 5, wbin := 8 } {}).lenW < (small .ring).c := by decide

/-- `HandlerFillsAndPublishesTheSlot`: the last byte, and the end of the copy. -/
theorem witness_HandlerFillsAndPublishesTheSlot :
    (small .idle).policy = .idle ∧ (st (small .idle) { hStep := .copy, hCount := 6, hIdx := 5 } {}).w.hStep = .copy ∧
    (st (small .idle) { hStep := .copy, hCount := 6, hIdx := 6 } {}).w.hCount.toNat ≤ (small .idle).cap := by decide

/-- `HandlerClearsTheCaptureBuffer`, `HandlerRearmsTheEngine`, `PollDeliversTheFrame`, `PollClearsTheFrameBuffer`,
`PollReleasesAndAnswers`. -/
theorem witness_sequencer_steps :
    (st (small .ring) { hStep := .clear } {}).w.hStep = .clear ∧ (st (small .ring) { hStep := .rearm } {}).w.hStep = .rearm ∧
    ((st (small .ring) {} { pStep := .deliver, fbLen := 8 }).r.pStep = .deliver ∧
      (st (small .ring) {} { pStep := .deliver, fbLen := 8 }).r.fbLen.toNat ≤ (small .ring).fb) ∧
    (st (small .ring) {} { pStep := .fbclr }).r.pStep = .fbclr ∧ (st (small .timeout) {} { pStep := .reset }).r.pStep = .reset ∧
    (st (small .idle) {} { pStep := .reset }).r.pStep = .reset ∧ (st (small .ring) {} { pStep := .reset }).r.pStep = .reset := by decide

/-- `PollCopiesOneByte` under each policy, at the greatest count. -/
theorem witness_PollCopiesOneByte :
    ((st (small .ring) {} { pStep := .copy, pCount := 8, pIdx := 7 }).r.pStep = .copy ∧
      (st (small .ring) {} { pStep := .copy, pCount := 8, pIdx := 7 }).r.pCount.toNat ≤ (small .ring).fb ∧
      ((small .ring).policy ≠ .ring → 8 ≤ (small .ring).cap)) ∧
    ((st (small .idle) {} { pStep := .copy, pCount := 6, pIdx := 5 }).r.pCount.toNat ≤ (small .idle).fb ∧
      ((small .idle).policy ≠ .ring → (st (small .idle) {} { pStep := .copy, pCount := 6, pIdx := 5 }).r.pCount.toNat ≤ (small .idle).cap)) ∧
    ((small .timeout).policy ≠ .ring →
      (st (small .timeout) {} { pStep := .copy, pCount := 6, pIdx := 5 }).r.pCount.toNat ≤ (small .timeout).cap) := by decide

/-- `GrayCodeLaws`: the greatest pointer of the smallest and of the greatest width. -/
theorem witness_GrayCodeLaws :
    (0x03 : Ptr).toNat < ({ policy := .ring, cap := 1, aw := 1, t := 0, inst := 0 } : Build).modulus ∧
      (0xFF : Ptr).toNat < (wide .ring).modulus := by decide

/-! States that meet the invariant, for the statements that take it as a premise. -/

/-- A frame of three bytes waits for the handler, two bytes are in the ring, no poll runs. -/
def pendingRing : State :=
  { st (small .ring) { ceArmed := true, cePtr := 3, ceLen := 6, irqPending := true, wbin := 2 } { wgR1 := 3, wgR2 := 3 } with
    capb := [(0, 0x48), (1, 0x65), (2, 0x6C)], ring := [(0, 0x41), (1, 0x42)] }

/-- The same frame where only one byte fits. -/
def pendingFull : State :=
  { st (small .ring) { ceArmed := true, cePtr := 3, ceLen := 6, irqPending := true, wbin := 7 } {} with
    capb := [(0, 0x48), (1, 0x65), (2, 0x6C)],
    ring := [(0, 1), (1, 2), (2, 3), (3, 4), (4, 5), (5, 6), (6, 7)] }

/-- The same frame under IDLE, with the slot free. -/
def pendingIdle : State :=
  { st (small .idle) { ceArmed := true, cePtr := 3, ceLen := 6, irqPending := true } {} with capb := [(0, 0x48), (1, 0x65), (2, 0x6C)] }

/-- The same frame under IDLE, with the slot occupied and seen by the consumer. -/
def pendingOccupied : State :=
  { st (small .idle) { ceArmed := true, cePtr := 3, ceLen := 6, irqPending := true, xw := true, xferLen := 2 }
      { xwR1 := true, xwR2 := true } with
    capb := [(0, 0x48), (1, 0x65), (2, 0x6C)], xfer := [(0, 0x41), (1, 0x42)] }

/-- The line has been silent for longer than `T` under TIMEOUT. -/
def silentLine : State :=
  { st (small .timeout) { ceArmed := true, cePtr := 2, ceLen := 6, now := 101 } {} with capb := [(0, 0x48), (1, 0x65)] }

/-- A handler has pushed one of two bytes, and a poll has copied one of two. -/
def bothRunning : State :=
  { st (small .ring) { cePtr := 2, ceLen := 6, hStep := .copy, hCount := 2, hIdx := 1, wbin := 3 }
      { rbin := 1, wgR1 := 3, wgR2 := 3, pStep := .copy, pCount := 2, pIdx := 1 } with
    capb := [(0, 0x48), (1, 0x65)], ring := [(0, 0x41), (1, 0x42), (2, 0x48)], frmb := [(0, 0x41)] }

/-- A timeout drain runs. -/
def draining : State :=
  { st (small .timeout) { cePtr := 2, ceLen := 6, now := 101 } { pStep := .copy, pCount := 2, toReady := true } with
    capb := [(0, 0x48), (1, 0x65)] }

theorem witness_inv_pendingRing : pendingRing.Inv ∧ pendingRing.Written :=
  ⟨⟨by decide, by decide, by decide, by decide, by decide, by decide⟩, by decide⟩
theorem witness_inv_pendingFull : pendingFull.Inv ∧ pendingFull.Written :=
  ⟨⟨by decide, by decide, by decide, by decide, by decide, by decide⟩, by decide⟩
theorem witness_inv_pendingIdle : pendingIdle.Inv ∧ pendingIdle.Written :=
  ⟨⟨by decide, by decide, by decide, by decide, by decide, by decide⟩, by decide⟩
theorem witness_inv_pendingOccupied : pendingOccupied.Inv ∧ pendingOccupied.Written :=
  ⟨⟨by decide, by decide, by decide, by decide, by decide, by decide⟩, by decide⟩
theorem witness_inv_silentLine : silentLine.Inv ∧ silentLine.Written :=
  ⟨⟨by decide, by decide, by decide, by decide, by decide, by decide⟩, by decide⟩
theorem witness_inv_bothRunning : bothRunning.Inv ∧ bothRunning.Written :=
  ⟨⟨by decide, by decide, by decide, by decide, by decide, by decide⟩, by decide⟩
theorem witness_inv_draining : draining.Inv ∧ draining.Written :=
  ⟨⟨by decide, by decide, by decide, by decide, by decide, by decide⟩, by decide⟩

/-- `EveryStepKeepsInv`, `EveryStepKeepsWritten`, `SequencersFollowTheTables`, `RingRefinesAQueue`, `PointersMoveByOne`: a state
with the invariant (above) whose next steps of either kind complete. -/
theorem witness_EveryStepKeepsInv :
    (∃ t, perform .hstep bothRunning = .next t) ∧ (∃ t, perform .pstep bothRunning = .next t) ∧
    ∃ t, step { bothRunning with agenda := [.pstep] } = .next t := ⟨⟨_, rfl⟩, ⟨_, rfl⟩, ⟨_, rfl⟩⟩

/-- `RingRefinesAQueue`: a byte joins and a byte leaves. -/
theorem witness_RingRefinesAQueue :
    queueAfter (.wWord 0x7055) pendingRing = [0x41, 0x42, 0x55] ∧ queueAfter .pstep bothRunning = [0x48] ∧
      queueAfter .hstep bothRunning = [0x42, 0x48, 0x65] := by decide

/-- `UnspecifiedBytesNeverEscape`: steps other than reset, in a state with the invariant and every readable byte written. -/
theorem witness_UnspecifiedBytesNeverEscape : bothRunning.Inv ∧ bothRunning.Written ∧ Event.pstep ≠ .reset ∧ Event.hstep ≠ .reset :=
  ⟨witness_inv_bothRunning.1, witness_inv_bothRunning.2, by decide, by decide⟩

/-- `ReachableViewsBracketTheLength`: a reachable state where the views differ; states with the invariant are above. -/
theorem witness_ReachableViewsBracketTheLength : ∃ t, Reachable t ∧ t.lenTrue = 1 ∧ t.lenR = 0 :=
  ⟨_, .step (.wWord 0x7041) _ _ (.reset (small .ring)) rfl, by decide, by decide⟩

/-- A handler has served two bytes of an engine armed for two, and `STOP` has halted it. -/
def servedTwo : State := st (small .ring) { ceLen := 2, hCount := 2, hIdx := 2 } {}

/-- `HandlerCountFitsTheArming`: a running handler; a count that fits; the step that ends it (R129: `ARM 1` writes `ce_len` only). -/
theorem witness_HandlerCountFitsTheArming : servedTwo.Inv ∧ bothRunning.w.hStep ≠ .idle ∧
    servedTwo.w.hCount.toNat ≤ servedTwo.w.ceLen.toNat ∧ (∃ t, perform (.wWord 0x3000) servedTwo = .next t) ∧
    after (perform (.wWord 0x5001) servedTwo) (fun t => t.w.hCount == 2 && t.w.ceLen == 1) = true :=
  ⟨⟨by decide, by decide, by decide, by decide, by decide, by decide⟩, by decide, by decide, ⟨_, rfl⟩, by decide⟩

/-- `SlotHandoverIsSafe`: a slot the consumer sees as ready, and a W step that leaves the toggle. -/
theorem witness_SlotHandoverIsSafe : pendingOccupied.slotRdyR = true ∧ pendingIdle.slotOccW = false ∧
    ∃ t, perform (.wWord 0x4100) pendingOccupied = .next t ∧ t.r.xr = pendingOccupied.r.xr := ⟨by decide, by decide, _, rfl, rfl⟩

/-- `PutAcceptsAPrefix`: no handler runs, with one place left; and steps between that the second clause allows. -/
theorem witness_PutAcceptsAPrefix : (pendingFull.w.hStep = .idle ∧ pendingFull.build.c - pendingFull.lenW = 1) ∧
    ∀ x ∈ [([Event.syncW, .rTake], (1 : Byte)), ([.pstep], 2)], ∀ e ∈ x.1, isRStep e = true ∨ e = .syncW := by decide

/-- `GetReturnsTheFront`: a free port with two bytes visible, and with none; a port held by a poll, and by a waiting word; and steps
between that the third clause allows. -/
theorem witness_GetReturnsTheFront : (portFree pendingRing = true ∧ pendingRing.lenR = 2) ∧
    (portFree State.reset = true ∧ State.reset.lenR = 0) ∧ portFree bothRunning = false ∧
    portFree { pendingRing with rWait := [0x9000] } = false ∧
    ∀ es ∈ [[Event.syncR, .hstep], [.wWord 0x7001]], ∀ e ∈ es, isWStep e = true ∨ e = .syncR := by decide

/-- `HandlerRunMovesTheFrame`: room for the whole frame. -/
theorem witness_HandlerRunMovesTheFrame : pendingRing.build.policy = .ring ∧ pendingRing.w.irqPending = true ∧
    pendingRing.lenW + pendingRing.w.cePtr.toNat ≤ pendingRing.build.c := by decide

/-- `HandlerRunRejectsTheRest`: room for one byte of three. -/
theorem witness_HandlerRunRejectsTheRest : pendingFull.build.policy = .ring ∧ pendingFull.w.irqPending = true ∧
    pendingFull.build.c < pendingFull.lenW + pendingFull.w.cePtr.toNat := by decide

/-- `HandlerRunPublishesTheSlot`: the slot free, and occupied. -/
theorem witness_HandlerRunPublishesTheSlot : (pendingIdle.build.policy = .idle ∧ pendingIdle.w.irqPending = true ∧
    pendingIdle.slotOccW = false) ∧ pendingOccupied.build.policy = .idle ∧ pendingOccupied.w.irqPending = true ∧
    pendingOccupied.slotOccW = true := by decide

/-- `PollRunDeliversTheBytes`: ready under each policy. -/
theorem witness_PollRunDeliversTheBytes :
    (silentLine.r.pStep = .idle ∧ pollReady silentLine = true ∧ pollBytes silentLine = [0x48, 0x65]) ∧
    (pendingOccupied.r.pStep = .idle ∧ pollReady pendingOccupied = true ∧ pollBytes pendingOccupied = [0x41, 0x42]) ∧
    (pendingRing.r.pStep = .idle ∧ pollReady pendingRing = true ∧ pollBytes pendingRing = [0x41, 0x42]) := by decide

/-- `SequencersCountDown`: both sequencers running, a TICK between, and an idle handler that an `IRQ` starts. -/
theorem witness_SequencersCountDown : bothRunning.w.hStep ≠ .idle ∧ bothRunning.r.pStep ≠ .idle ∧
    (Event.wWord 0x3000 ≠ .hstep ∧ Event.wWord 0x3000 ≠ .pstep ∧ Event.wWord 0x3000 ≠ .reset) ∧
    (∃ t, perform (.wWord 0x3000) bothRunning = .next t) ∧ pendingRing.w.hStep = .idle ∧
    (∃ t, exec (.irq 1) pendingRing = .next t ∧ handlerMeasure t = 6) ∧ pollReady pendingRing = true :=
  ⟨by decide, by decide, by decide, ⟨_, rfl⟩, rfl, ⟨_, rfl, by decide⟩, by decide⟩

/-- Every agent in turn. -/
def roundRobin (n : Nat) : Event :=
  if n % 5 = 0 then .hstep else if n % 5 = 1 then .pstep else if n % 5 = 2 then .syncW else if n % 5 = 3 then .syncR else .rTake

theorem witness_FairScheduleEndsTheHandler :
    FairSchedule roundRobin ∧ (∀ n, roundRobin n ≠ .reset) ∧ bothRunning.Inv ∧ bothRunning.w.hStep ≠ .idle := by
  refine ⟨fun n => ?_, fun n => ?_, witness_inv_bothRunning.1, by decide⟩
  · exact ⟨⟨5 * n, by omega, by simp [roundRobin]⟩, ⟨5 * n + 1, by omega, by simp [roundRobin, Nat.add_mod]⟩,
      ⟨5 * n + 2, by omega, by simp [roundRobin, Nat.add_mod]⟩, ⟨5 * n + 3, by omega, by simp [roundRobin, Nat.add_mod]⟩,
      ⟨5 * n + 4, by omega, by simp [roundRobin, Nat.add_mod]⟩⟩
  · unfold roundRobin; split_ifs <;> decide

/-- `WRegistersHaveTheirWriters`, clause by clause: steps that do move the registers; the counters and their flags are moved by the
steps of `witness_DropsHaveTheirCause`. -/
theorem witness_WRegistersHaveTheirWriters :
    after (perform (.wWord 0x5006) (State.resetOf (small .ring))) (fun t => t.w.ceArmed && t.w.ceLen != 0) = true ∧
    after (perform (.rWord 0x8000) silentLine) (fun t => !t.w.ceArmed && t.r.toReady && t.r.pCount == 2) = true ∧
    after (perform (.wWord 0x1001) { silentLine with w := { silentLine.w with now := 7 } })
      (fun t => t.w.cePtr == 3 && t.w.lastTime == 7) = true ∧
    after (perform .pstep { draining with r := { draining.r with pStep := .reset, pIdx := 2 } }) (fun t => t.w.cePtr == 0) = true ∧
    after (perform (.wWord 0x4100) pendingRing) (fun t => !t.w.irqPending && t.w.hStep == .copy && t.w.hCount == 3) = true ∧
    after (perform .hstep bothRunning) (fun t => t.w.hIdx == 2 && t.w.wbin == 4) = true ∧
    after (perform (.wWord 0x3000) pendingRing) (fun t => t.w.now == 1) = true ∧
    after (perform .syncW { bothRunning with w := { bothRunning.w with rgW1 := 1, xrW1 := true } })
      (fun t => t.w.rgW2 == 1 && t.w.xrW2 && !t.w.xrW1) = true ∧
    after (perform .hstep (st (small .idle) { hStep := .copy, hCount := 2, hIdx := 2 } {})) (fun t => t.w.xw && t.w.xferLen == 2) = true ∧
    after (perform (.wWord 0xB000) pendingRing) (fun t => t.w.illW && !pendingRing.w.illW) = true := by
  decide

/-- `RRegistersHaveTheirWriters`, clause by clause: steps that do move the registers. -/
theorem witness_RRegistersHaveTheirWriters :
    after (perform (.rWord 0x9000) pendingRing) (fun t => t.r.rbin == 1) = true ∧
    after (perform .pstep bothRunning) (fun t => t.r.rbin == 2 && t.r.pIdx == 2) = true ∧
    after (perform .syncR { bothRunning with w := { bothRunning.w with xw := true } }) (fun t => t.r.wgR1 == 2 && t.r.xwR1) = true ∧
    after (perform .pstep (st (small .idle) { xw := true } { xwR2 := true, pStep := .reset })) (fun t => t.r.xr && t.r.pStep == .idle) = true ∧
    after (perform .pstep { bothRunning with r := { bothRunning.r with pIdx := 2 } }) (fun t => t.r.fbLen == 2) = true ∧
    after (perform (.rWord 0x8000) silentLine) (fun t => t.r.pCount == 2 && t.r.toReady) = true ∧
    after (perform (.rWord 0x7000) pendingRing) (fun t => t.r.illR && !pendingRing.r.illR) = true := by decide

/-- `StepsWriteOnlyTheirCells`: a place that a step may write, and one that it may not. -/
theorem witness_StepsWriteOnlyTheirCells : mayWrite (.wWord 0x1041) silentLine .capb 2 ∧ ¬ mayWrite (.wWord 0x1041) silentLine .capb 1 ∧
    ∃ t, perform (.wWord 0x1041) silentLine = .next t := by
  have h : takenCommand (.wWord 0x1041) silentLine = some (.rxbyte 0x41) := by decide
  refine ⟨?_, ?_, _, rfl⟩
  · simp only [mayWrite, h]; decide
  · simp only [mayWrite, h]; decide

/-- `ErrorRecordsOnlyGrow`, `DropsHaveTheirCause`: each counter moves. -/
theorem witness_DropsHaveTheirCause :
    after (perform (.wWord 0x1041) (State.resetOf (small .ring))) (fun t => t.w.dropLineCnt == 1 && t.w.ovfCap) = true ∧
    after (perform (.wWord 0x4100) pendingOccupied) (fun t => t.w.dropSlotCnt == 3 && t.w.ovfSlot) = true ∧
    after (perform (.wWord 0x7041) (st (small .idle) { wbin := 8 } {})) (fun t => t.w.dropRingCnt == 1 && t.w.ovfRing) = true ∧
    after (perform (.wWord 0x4300) pendingRing) (fun t => t.w.spurCnt == 1 && t.w.spur) = true := by decide

/-- `BuildNeverChanges`: a step of the schedule completes. -/
theorem witness_BuildNeverChanges : (∃ t, perform .reset pendingRing = .next t) ∧ ∃ t, step { pendingRing with agenda := [.reset] } = .next t :=
  ⟨⟨_, rfl⟩, ⟨_, rfl⟩⟩

/-- `PointersMoveByOne`: both pointers advance from a state with the invariant. -/
theorem witness_PointersMoveByOne :
    after (perform (.wWord 0x7041) pendingRing) (fun t => t.w.wbin == ptrNext pendingRing.build pendingRing.w.wbin) = true ∧
      after (perform (.rWord 0x9000) pendingRing) (fun t => t.r.rbin == ptrNext pendingRing.build pendingRing.r.rbin) = true := by decide

/-- `BoundariesHaveTheirCauses`: the event raised by either cause and withdrawn by each (by `ARM` only where the engine is not armed,
which R45 (b) rules out of a run), and the timeout declared and withdrawn. -/
theorem witness_BoundariesHaveTheirCauses :
    after (perform (.wWord 0x2000) (st (small .ring) { ceArmed := true, cePtr := 1, ceLen := 6 } {})) (fun t => t.w.irqPending) = true ∧
    after (perform (.wWord 0x1041) (st (small .ring) { ceArmed := true, cePtr := 5, ceLen := 6 } {})) (fun t => t.w.irqPending) = true ∧
    after (perform (.wWord 0x4100) pendingRing) (fun t => !t.w.irqPending) = true ∧
    after (perform (.wWord 0x6000) pendingRing) (fun t => !t.w.irqPending) = true ∧
    after (perform (.wWord 0x5001) (st (small .ring) { irqPending := true } {})) (fun t => !t.w.irqPending) = true ∧
    after (perform (.rWord 0x8000) silentLine) (fun t => t.r.toReady) = true ∧
    after (perform .pstep { draining with r := { draining.r with pStep := .reset } }) (fun t => !t.r.toReady) = true := by decide

/-- `EverySequenceEndsArmed`: a handler's last step, and a timeout drain's last step. -/
theorem witness_EverySequenceEndsArmed :
    (bothRunning.w.hStep ≠ .idle ∧
      after (perform .hstep { bothRunning with w := { bothRunning.w with hStep := .rearm } }) (fun t => t.w.hStep == .idle) = true) ∧
    (draining.r.toReady = true ∧
      after (perform .pstep { draining with r := { draining.r with pStep := .reset } }) (fun t => !t.r.toReady) = true) := by decide

/-- `DomainsKeepToTheirSides`: a W step with other R registers, and an R step with other W registers. -/
theorem witness_DomainsKeepToTheirSides :
    (isWStep (.wWord 0x5001) = true ∧ Event.wWord 0x5001 ≠ .syncW ∧ ({ rbin := 5 } : RRegs).toReady = State.reset.r.toReady ∧
      ∃ t, perform (.wWord 0x5001) State.reset = .next t) ∧
    (isRStep .pstep = true ∧ Event.pstep ≠ .syncR ∧ bothRunning.build.policy ≠ .timeout ∧
      ({ now := 5 } : WRegs).xferLen = bothRunning.w.xferLen ∧ ∃ t, perform .pstep bothRunning = .next t) :=
  ⟨⟨rfl, by decide, rfl, ⟨_, rfl⟩⟩, rfl, by decide, by decide, rfl, ⟨_, rfl⟩⟩

theorem witness_IdleSignalMakesReady : (small .ring).policy ≠ .timeout ∧
    (st (small .ring) { ceArmed := true, cePtr := 1, ceLen := 6 } {}).w.ceArmed = true ∧
    0 < (st (small .ring) { ceArmed := true, cePtr := 1, ceLen := 6 } {}).w.cePtr.toNat := by decide

end Sys2Proof.Tests
end

section
/-! PROOFS. The saturating add (spec/00_scope.md R12, spec/44_arithmetic_and_sequencing.md R244). -/

namespace Sys2Proof.Machine

/-- The smaller of the sum and the largest value fits 32 bits, so nothing is cut off (spec/00_scope.md R12). -/
theorem satAdd_toNat (c : Word32) (k : Nat) : (satAdd c k).toNat = min (c.toNat + k) (2 ^ 32 - 1) := by
  have hfits : min (c.toNat + k) 4294967295 < 2 ^ 32 := by omega
  unfold satAdd
  rw [BitVec.toNat_ofNat, Nat.mod_eq_of_lt hfits]
  norm_num

theorem le_satAdd (c : Word32) (k : Nat) : c.toNat ≤ (satAdd c k).toNat := by
  have hc : c.toNat < 2 ^ 32 := c.isLt
  rw [satAdd_toNat]
  omega

theorem satAdd_of_saturated (c : Word32) (k : Nat) (h : c.toNat = 2 ^ 32 - 1) : satAdd c k = c := by
  apply BitVec.eq_of_toNat_eq
  rw [satAdd_toNat]
  omega

/-- Settles O29: the value of the sum, and its two consequences. -/
theorem saturatingAddNeverWraps : Obligations.SaturatingAddNeverWraps := fun c k =>
  ⟨satAdd_toNat c k, le_satAdd c k, satAdd_of_saturated c k⟩

end Sys2Proof.Machine
end

section
/-! SUPPORT. What each command can do: for each, once, the branches of its rule with the state each branch answers. -/

namespace Sys2Proof.Machine

variable {s t : State}

/-- `NOP` (spec/40_line_capture.md R133). -/
theorem execNop_cases {p : Port} (h : execNop p s = .next t) :
    (p = .w ∧ t = s.respondW .ok 0) ∨ (p = .r ∧ s.r.pStep = .idle ∧ t = s.respondR .ok 0) ∨
    (p = .r ∧ s.r.pStep ≠ .idle ∧ t = s) := by
  cases p with
  | w => cases h; exact .inl ⟨rfl, rfl⟩
  | r =>
    obtain ⟨hi, hk⟩ | hbusy := whenReady_cases (k := fun s => .next (s.respondR .ok 0)) h
    · cases hk; exact .inr (.inl ⟨rfl, hi, rfl⟩)
    · exact .inr (.inr ⟨rfl, hbusy⟩)

/-- `RXBYTE b`: stored, perhaps filling the buffer, or refused and counted (spec/40_line_capture.md R121). -/
theorem execRxbyte_cases {b : Byte} (h : execRxbyte b s = .next t) :
    ((s.w.ceArmed = true ∧ s.w.cePtr.toNat < s.w.ceLen.toNat) ∧ s.w.cePtr.toNat < s.build.cap ∧
      t = { s with
        capb := s.capb.insert s.w.cePtr.toNat b
        w := { s.w with
          lastTime := s.w.now, cePtr := s.w.cePtr + 1
          irqPending := s.w.irqPending ||
            (decide (s.build.policy ≠ .timeout) && decide (s.w.cePtr.toNat + 1 = s.w.ceLen.toNat)) }
        wRsp := some ⟨.ok, 0⟩ }) ∨
    (¬ (s.w.ceArmed = true ∧ s.w.cePtr.toNat < s.w.ceLen.toNat) ∧
      t = (raise .lineOverrun 1 (stampLine s)).respondW .nak 0) := by
  unfold execRxbyte at h
  split at h
  · obtain ⟨hlt, hk⟩ := writeThen_cases h
    cases hk
    exact .inl ⟨‹_›, hlt, rfl⟩
  · cases h; exact .inr ⟨‹_›, rfl⟩

/-- `RXIDLE`: the boundary interrupt is raised, or there is no frame to end (spec/40_line_capture.md R124). -/
theorem execRxidle_cases (h : execRxidle s = .next t) :
    ((s.build.policy ≠ .timeout ∧ s.w.ceArmed = true ∧ 0 < s.w.cePtr.toNat) ∧
      t = { s with w := { s.w with irqPending := true }, wRsp := some ⟨.ok, 0⟩ }) ∨
    (¬ (s.build.policy ≠ .timeout ∧ s.w.ceArmed = true ∧ 0 < s.w.cePtr.toNat) ∧ t = s.respondW .nak 0) := by
  unfold execRxidle at h
  split at h
  · cases h; exact .inl ⟨‹_›, rfl⟩
  · cases h; exact .inr ⟨‹_›, rfl⟩

/-- `IRQ i`: foreign, with nothing to serve, or entering the handler (spec/41_boundary_handler.md R151). -/
theorem execIrq_cases {i : Nat} (h : execIrq i s = .next t) :
    (i ≠ s.build.inst.toNat ∧ t = (raise .spurious 1 s).respondW .nak 0) ∨
    (i = s.build.inst.toNat ∧ (s.build.policy = .timeout ∨ s.w.irqPending = false ∨ s.w.hStep ≠ .idle) ∧
      t = s.respondW .nak 0) ∨
    (i = s.build.inst.toNat ∧ s.build.policy ≠ .timeout ∧ s.w.irqPending = true ∧ s.w.hStep = .idle ∧
      t = (boundaryEntry s).respondW .ok s.w.cePtr) := by
  unfold execIrq at h
  split at h
  · cases h; exact .inl ⟨‹_›, rfl⟩
  · rename_i hi
    rw [not_not] at hi
    split at h
    · cases h; exact .inr (.inl ⟨hi, ‹_›, rfl⟩)
    · rename_i hserve
      simp only [not_or, Bool.not_eq_false, not_not] at hserve
      obtain ⟨hpolicy, hpending, hidle⟩ := hserve
      cases h
      exact .inr (.inr ⟨hi, hpolicy, hpending, hidle, rfl⟩)

/-- `ARM n`: the engine is loaded, or the arming is refused (spec/40_line_capture.md R129). -/
theorem execArm_cases {n : Nat} (h : execArm n s = .next t) :
    (((1 ≤ n ∧ n ≤ s.build.cap) ∧ s.w.ceArmed = false ∧ s.w.hStep = .idle ∧ s.r.toReady = false) ∧
      t = { s with
        w := { s.w with ceLen := BitVec.ofNat 8 n, cePtr := 0, ceArmed := true, irqPending := false }
        wRsp := some ⟨.ok, 0⟩ }) ∨
    (¬ ((1 ≤ n ∧ n ≤ s.build.cap) ∧ s.w.ceArmed = false ∧ s.w.hStep = .idle ∧ s.r.toReady = false) ∧
      t = s.respondW .nak 0) := by
  unfold execArm at h
  split at h
  · cases h; exact .inl ⟨‹_›, rfl⟩
  · cases h; exact .inr ⟨‹_›, rfl⟩

/-- `STOP`: the engine is halted and a pending boundary withdrawn, or there is nothing to stop
(spec/40_line_capture.md R131). -/
theorem execStop_cases (h : execStop s = .next t) :
    ((s.w.ceArmed = true ∧ s.w.hStep = .idle) ∧
      t = { s with w := { s.w with ceArmed := false, irqPending := false }, wRsp := some ⟨.ok, 0⟩ }) ∨
    (¬ (s.w.ceArmed = true ∧ s.w.hStep = .idle) ∧ t = s.respondW .nak 0) := by
  unfold execStop at h
  split at h
  · cases h; exact .inl ⟨‹_›, rfl⟩
  · cases h; exact .inr ⟨‹_›, rfl⟩

/-- `PUSH b`: refused while a handler owns the write port, rejected and counted by a full ring, or appended
(spec/42_ring.md R181). -/
theorem execPush_cases {b : Byte} (h : execPush b s = .next t) :
    ((s.build.policy = .ring ∧ s.w.hStep ≠ .idle) ∧ t = s.respondW .nak 0) ∨
    (¬ (s.build.policy = .ring ∧ s.w.hStep ≠ .idle) ∧ s.lenW = s.build.c ∧
      t = (raise .ringOverrun 1 s).respondW .nak 0) ∨
    (¬ (s.build.policy = .ring ∧ s.w.hStep ≠ .idle) ∧ s.lenW ≠ s.build.c ∧
      t = { s with
        ring := s.ring.insert s.tail b, w := { s.w with wbin := ptrNext s.build s.w.wbin }
        wRsp := some ⟨.ok, 0⟩ }) := by
  unfold execPush at h
  split at h
  · cases h; exact .inl ⟨‹_›, rfl⟩
  · split at h
    · cases h; exact .inr (.inl ⟨‹_›, ‹_›, rfl⟩)
    · rw [ringAppend_eq] at h
      cases h
      exact .inr (.inr ⟨‹_›, ‹_›, rfl⟩)

/-- `POLL`: not taken while a poll runs, the drain of the policy's source started, or nothing pending
(spec/43_consumer.md R221). -/
theorem execPoll_cases (h : execPoll s = .next t) :
    (s.r.pStep ≠ .idle ∧ t = s) ∨
    (s.r.pStep = .idle ∧
      ((s.build.policy = .timeout ∧ s.timedOut = true ∧
          t = pollStart { engineHalt s with r := { s.r with toReady := true } } s.w.cePtr) ∨
        (s.build.policy = .idle ∧ s.slotRdyR = true ∧ t = pollStart s s.w.xferLen) ∨
        (s.build.policy = .ring ∧ 0 < s.lenR ∧ t = pollStart s (BitVec.ofNat 8 s.lenR)) ∨
        ((s.build.policy = .timeout → s.timedOut = false) ∧ (s.build.policy = .idle → s.slotRdyR = false) ∧
          (s.build.policy = .ring → s.lenR = 0) ∧ t = s.respondR .nak 0))) := by
  obtain ⟨hi, hk⟩ | hbusy := whenReady_cases h
  · refine .inr ⟨hi, ?_⟩
    cases hp : s.build.policy with
    | timeout =>
      simp only [hp] at hk
      split at hk
      · cases hk; exact .inl ⟨rfl, ‹_›, rfl⟩
      · cases hk; exact .inr (.inr (.inr ⟨fun _ => Bool.eq_false_iff.mpr ‹_›, nofun, nofun, rfl⟩))
    | idle =>
      simp only [hp] at hk
      split at hk
      · cases hk; exact .inr (.inl ⟨rfl, ‹_›, rfl⟩)
      · cases hk; exact .inr (.inr (.inr ⟨nofun, fun _ => Bool.eq_false_iff.mpr ‹_›, nofun, rfl⟩))
    | ring =>
      simp only [hp] at hk
      split at hk
      · cases hk; exact .inr (.inr (.inl ⟨rfl, ‹_›, rfl⟩))
      · cases hk; exact .inr (.inr (.inr ⟨nofun, nofun, fun _ => Nat.eq_zero_of_not_pos ‹_›, rfl⟩))
  · exact .inl hbusy

/-- `POP`: not taken while a poll runs, nothing to remove, or the head removed (spec/42_ring.md R186). -/
theorem execPop_cases (h : execPop s = .next t) :
    (s.r.pStep ≠ .idle ∧ t = s) ∨ (s.r.pStep = .idle ∧ s.lenR = 0 ∧ t = s.respondR .nak 0) ∨
    (s.r.pStep = .idle ∧ s.lenR ≠ 0 ∧
      t = { s with
        r := { s.r with rbin := ptrNext s.build s.r.rbin }, rRsp := some ⟨.ok, s.byteAt .ring s.head⟩ }) := by
  obtain ⟨hi, hk⟩ | hbusy := whenReady_cases h
  · split at hk
    · cases hk; exact .inr (.inl ⟨hi, ‹_›, rfl⟩)
    · rw [ringRemove_eq] at hk
      cases hk
      exact .inr (.inr ⟨hi, ‹_›, rfl⟩)
  · exact .inl hbusy

/-- `LEN`: not taken while a poll runs, or answered with the consumer's count (spec/42_ring.md R190). -/
theorem execLen_cases (h : execLen s = .next t) :
    (s.r.pStep ≠ .idle ∧ t = s) ∨ (s.r.pStep = .idle ∧ t = s.respondR .ok (BitVec.ofNat 8 s.lenR)) := by
  obtain ⟨hi, hk⟩ | hbusy := whenReady_cases h
  · cases hk; exact .inr ⟨hi, rfl⟩
  · exact .inl hbusy

end Sys2Proof.Machine
end

section
/-! SUPPORT. What each autonomous step can do: for each state of the two sequencers, once, the branches of its rule. -/

namespace Sys2Proof.Machine

variable {s t : State}

/-- `H_COPY` under `RING`: a byte appended, the rest rejected, or the copy ended (spec/41_boundary_handler.md R153). -/
theorem handlerCopyRing_cases (h : handlerCopyRing s = .next t) :
    (s.w.hIdx.toNat < s.w.hCount.toNat ∧ s.lenW < s.build.c ∧ s.w.hIdx.toNat < s.build.cap ∧
      t = { s with
        ring := s.ring.insert s.tail (s.byteAt .capb s.w.hIdx.toNat)
        w := { s.w with wbin := ptrNext s.build s.w.wbin, hIdx := s.w.hIdx + 1 } }) ∨
    (s.w.hIdx.toNat < s.w.hCount.toNat ∧ s.build.c ≤ s.lenW ∧
      t = { s with w := { s.w with
        ovfRing := true, dropRingCnt := satAdd s.w.dropRingCnt (s.w.hCount.toNat - s.w.hIdx.toNat)
        hIdx := s.w.hCount } }) ∨
    (s.w.hCount.toNat ≤ s.w.hIdx.toNat ∧ t = { s with w := { s.w with hStep := .clear } }) := by
  unfold handlerCopyRing at h
  split at h
  · split at h
    · obtain ⟨hcap, hk⟩ := readThen_cases h
      rw [ringAppend_eq] at hk
      cases hk
      exact .inl ⟨‹_›, ‹_›, hcap, rfl⟩
    · cases h; exact .inr (.inl ⟨‹_›, not_lt.mp ‹_›, rfl⟩)
  · cases h; exact .inr (.inr ⟨not_lt.mp ‹_›, rfl⟩)

/-- `H_COPY` under `IDLE`: a byte copied into the slot, or the slot published (spec/41_boundary_handler.md R154). -/
theorem handlerCopyIdle_cases (h : handlerCopyIdle s = .next t) :
    (s.w.hIdx.toNat < s.w.hCount.toNat ∧ s.w.hIdx.toNat < s.build.cap ∧
      t = { s with
        xfer := s.xfer.insert s.w.hIdx.toNat (s.byteAt .capb s.w.hIdx.toNat)
        w := { s.w with hIdx := s.w.hIdx + 1 } }) ∨
    (s.w.hCount.toNat ≤ s.w.hIdx.toNat ∧
      t = { s with w := { s.w with xferLen := s.w.hCount, xw := !s.w.xw, hStep := .clear } }) := by
  unfold handlerCopyIdle at h
  split at h
  · obtain ⟨hcap, hk⟩ := readThen_cases h
    obtain ⟨-, hk⟩ := writeThen_cases hk
    cases hk
    exact .inl ⟨‹_›, hcap, rfl⟩
  · cases h; exact .inr ⟨not_lt.mp ‹_›, rfl⟩

/-- `HSTEP`, by the handler's state and, in `H_COPY`, by the policy (spec/41_boundary_handler.md R152 to R158). -/
theorem hstep_cases (h : hstep s = .next t) :
    (s.w.hStep = .idle ∧ t = s) ∨
    (s.w.hStep = .copy ∧ s.build.policy = .timeout ∧ t = s) ∨
    (s.w.hStep = .copy ∧ s.build.policy = .ring ∧ handlerCopyRing s = .next t) ∨
    (s.w.hStep = .copy ∧ s.build.policy = .idle ∧ handlerCopyIdle s = .next t) ∨
    (s.w.hStep = .clear ∧
      t = { s with capb := Memory.filled s.build.cap 0, w := { s.w with hStep := .rearm } }) ∨
    (s.w.hStep = .rearm ∧ t = boundaryReturn s) := by
  unfold hstep at h
  cases hs : s.w.hStep with
  | idle => rw [hs] at h; cases h; exact .inl ⟨rfl, rfl⟩
  | copy =>
    simp only [hs, handlerCopy] at h
    cases hp : s.build.policy with
    | timeout => rw [hp] at h; cases h; exact .inr (.inl ⟨rfl, rfl, rfl⟩)
    | ring => rw [hp] at h; exact .inr (.inr (.inl ⟨rfl, rfl, h⟩))
    | idle => rw [hp] at h; exact .inr (.inr (.inr (.inl ⟨rfl, rfl, h⟩)))
  | clear => rw [hs] at h; cases h; exact .inr (.inr (.inr (.inr (.inl ⟨rfl, rfl⟩))))
  | rearm => rw [hs] at h; cases h; exact .inr (.inr (.inr (.inr (.inr ⟨rfl, rfl⟩))))

/-- `P_COPY`: a byte of the policy's source drained, with the pop under `RING`, or the drain ended
(spec/43_consumer.md R224). -/
theorem pollCopy_cases (h : pollCopy s = .next t) :
    (s.r.pIdx.toNat < s.r.pCount.toNat ∧ s.build.policy = .ring ∧ s.r.pIdx.toNat < s.build.fb ∧
      t = { s with
        frmb := s.frmb.insert s.r.pIdx.toNat (s.byteAt .ring s.head)
        r := { s.r with rbin := ptrNext s.build s.r.rbin, pIdx := s.r.pIdx + 1 } }) ∨
    (s.r.pIdx.toNat < s.r.pCount.toNat ∧ s.r.pIdx.toNat < s.build.cap ∧ s.r.pIdx.toNat < s.build.fb ∧
      ∃ sp, (s.build.policy = .timeout ∧ sp = .capb ∨ s.build.policy = .idle ∧ sp = .xfer) ∧
        t = { s with
          frmb := s.frmb.insert s.r.pIdx.toNat (s.byteAt sp s.r.pIdx.toNat)
          r := { s.r with pIdx := s.r.pIdx + 1 } }) ∨
    (s.r.pCount.toNat ≤ s.r.pIdx.toNat ∧
      t = { s with r := { s.r with fbLen := s.r.pCount, pStep := .deliver } }) := by
  unfold pollCopy at h
  split at h
  · obtain ⟨hp, hk⟩ | ⟨hp, hcap, hk⟩ | ⟨hp, hcap, hk⟩ := pollSource_cases h
    · obtain ⟨hfb, hk⟩ := writeThen_cases hk
      cases hk
      exact .inl ⟨‹_›, hp, hfb, rfl⟩
    · obtain ⟨hfb, hk⟩ := writeThen_cases hk
      cases hk
      exact .inr (.inl ⟨‹_›, hcap, hfb, .capb, .inl ⟨hp, rfl⟩, rfl⟩)
    · obtain ⟨hfb, hk⟩ := writeThen_cases hk
      cases hk
      exact .inr (.inl ⟨‹_›, hcap, hfb, .xfer, .inr ⟨hp, rfl⟩, rfl⟩)
  · cases h; exact .inr (.inr ⟨not_lt.mp ‹_›, rfl⟩)

/-- `P_DELIVER`: a frame that fits `FRMB` is handed over (spec/43_consumer.md R226). -/
theorem pollDeliver_cases (h : pollDeliver s = .next t) :
    s.r.fbLen.toNat ≤ s.build.fb ∧
      t = { s with
        outFrames := s.outFrames ++ [s.span .frmb s.r.fbLen.toNat], r := { s.r with pStep := .fbclr } } := by
  unfold pollDeliver at h
  split at h
  · cases h; exact ⟨‹_›, rfl⟩
  · cases h

/-- `PSTEP`, by the poll's state (spec/43_consumer.md R223 to R229). -/
theorem pstep_cases (h : pstep s = .next t) :
    (s.r.pStep = .idle ∧ t = s) ∨
    (s.r.pStep = .copy ∧ pollCopy s = .next t) ∨
    (s.r.pStep = .deliver ∧ pollDeliver s = .next t) ∨
    (s.r.pStep = .fbclr ∧
      t = { s with frmb := Memory.filled s.build.fb 0, r := { s.r with fbLen := 0, pStep := .reset } }) ∨
    (s.r.pStep = .reset ∧
      t = { pollRelease s with
        r := { (pollRelease s).r with pStep := .idle }, rRsp := some ⟨.ok, s.r.pCount⟩ }) := by
  unfold pstep at h
  cases hs : s.r.pStep with
  | idle => rw [hs] at h; cases h; exact .inl ⟨rfl, rfl⟩
  | copy => rw [hs] at h; exact .inr (.inl ⟨rfl, h⟩)
  | deliver => rw [hs] at h; exact .inr (.inr (.inl ⟨rfl, h⟩))
  | fbclr => rw [hs] at h; cases h; exact .inr (.inr (.inr (.inl ⟨rfl, rfl⟩)))
  | reset => rw [hs] at h; cases h; exact .inr (.inr (.inr (.inr ⟨rfl, rfl⟩)))

end Sys2Proof.Machine
end

section
/-! PROOFS. The build's constants are never changed (spec/00_scope.md R8, spec/10_state.md R40): one lemma per layer of the
step, each from the branches above. -/

namespace Sys2Proof.Machine

variable {s t : State}

/-- Every command keeps the build. -/
theorem exec_keeps_build {i : Instr} (h : exec i s = .next t) : t.build = s.build := by
  cases i with
  | nop p => obtain ⟨-, rfl⟩ | ⟨-, -, rfl⟩ | ⟨-, -, rfl⟩ := execNop_cases h <;> rfl
  | rxbyte b => obtain ⟨-, -, rfl⟩ | ⟨-, rfl⟩ := execRxbyte_cases h <;> rfl
  | rxidle => obtain ⟨-, rfl⟩ | ⟨-, rfl⟩ := execRxidle_cases h <;> rfl
  | tick => cases h; rfl
  | irq i => obtain ⟨-, rfl⟩ | ⟨-, -, rfl⟩ | ⟨-, -, -, -, rfl⟩ := execIrq_cases h <;> simp
  | arm n => obtain ⟨-, rfl⟩ | ⟨-, rfl⟩ := execArm_cases h <;> rfl
  | stop => obtain ⟨-, rfl⟩ | ⟨-, rfl⟩ := execStop_cases h <;> rfl
  | push b => obtain ⟨-, rfl⟩ | ⟨-, -, rfl⟩ | ⟨-, -, rfl⟩ := execPush_cases h <;> rfl
  | poll =>
    obtain ⟨-, rfl⟩ | ⟨-, ⟨-, -, rfl⟩ | ⟨-, -, rfl⟩ | ⟨-, -, rfl⟩ | ⟨-, -, -, rfl⟩⟩ := execPoll_cases h <;> rfl
  | pop => obtain ⟨-, rfl⟩ | ⟨-, -, rfl⟩ | ⟨-, -, rfl⟩ := execPop_cases h <;> rfl
  | len => obtain ⟨-, rfl⟩ | ⟨-, rfl⟩ := execLen_cases h <;> rfl

/-- A word keeps the build, illegal or not. -/
theorem runWord_keeps_build {p : Port} {c : Cmd} (h : runWord p c s = .next t) : t.build = s.build := by
  obtain ⟨i, -, hexec⟩ | ⟨e, -, rfl⟩ := runWord_cases h
  · exact exec_keeps_build hexec
  · exact illegalWord_build s p

/-- The R port keeps the build, whether or not it takes a word. -/
theorem takeR_keeps_build (h : takeR s = .next t) : t.build = s.build := by
  obtain ⟨-, rfl⟩ | ⟨-, -, rfl⟩ | ⟨c, rest, -, -, hrun⟩ := takeR_cases h
  · rfl
  · rfl
  · exact runWord_keeps_build (s := { s with rWait := rest }) hrun

/-- The handler's step keeps the build. -/
theorem hstep_keeps_build (h : hstep s = .next t) : t.build = s.build := by
  obtain ⟨-, rfl⟩ | ⟨-, -, rfl⟩ | ⟨-, -, hring⟩ | ⟨-, -, hidle⟩ | ⟨-, rfl⟩ | ⟨-, rfl⟩ := hstep_cases h
  · rfl
  · rfl
  · obtain ⟨-, -, -, rfl⟩ | ⟨-, -, rfl⟩ | ⟨-, rfl⟩ := handlerCopyRing_cases hring <;> rfl
  · obtain ⟨-, -, rfl⟩ | ⟨-, rfl⟩ := handlerCopyIdle_cases hidle <;> rfl
  · rfl
  · exact boundaryReturn_build s

/-- The poll's step keeps the build. -/
theorem pstep_keeps_build (h : pstep s = .next t) : t.build = s.build := by
  obtain ⟨-, rfl⟩ | ⟨-, hcopy⟩ | ⟨-, hdeliver⟩ | ⟨-, rfl⟩ | ⟨-, rfl⟩ := pstep_cases h
  · rfl
  · obtain ⟨-, -, -, rfl⟩ | ⟨-, -, -, sp, -, rfl⟩ | ⟨-, rfl⟩ := pollCopy_cases hcopy <;> rfl
  · obtain ⟨-, rfl⟩ := pollDeliver_cases hdeliver; rfl
  · rfl
  · exact pollRelease_build s

/-- Every event keeps the build; reset too (spec/10_state.md R40). -/
theorem perform_keeps_build {e : Event} (h : perform e s = .next t) : t.build = s.build := by
  cases e with
  | wWord c => exact runWord_keeps_build (s := quiet s) h
  | rWord c => exact takeR_keeps_build (s := { quiet s with rWait := s.rWait ++ [c] }) h
  | rTake => exact takeR_keeps_build (s := quiet s) h
  | hstep => exact hstep_keeps_build (s := quiet s) h
  | pstep => exact pstep_keeps_build (s := quiet s) h
  | syncW => cases h; rfl
  | syncR => cases h; rfl
  | reset => cases h; rfl

/-- The machine's step keeps the build: drawing the event does. -/
theorem step_keeps_build (h : step s = .next t) : t.build = s.build :=
  (perform_keeps_build h).trans (drawEvent_build s)

/-- Settles O54: from the events' frame, for one event and for the machine's step. -/
theorem buildNeverChanges : Obligations.BuildNeverChanges :=
  ⟨fun _ _ _ h => perform_keeps_build h, fun _ _ h => step_keeps_build h⟩

end Sys2Proof.Machine
end

section
/-! SUPPORT. Gray code and distances around the pointer circle (spec/10_state.md R41,
spec/44_arithmetic_and_sequencing.md R241). -/

namespace Sys2Proof.Machine

/-! ### Gray code -/

/-- Decoding undoes encoding: the shifts of `b xor (b >> 1)` telescope (spec/10_state.md R41). -/
theorem g2b_b2g (x : Ptr) : g2b (b2g x) = x := by
  have cancel (a b : Ptr) : a ^^^ (a ^^^ b) = b := by rw [← BitVec.xor_assoc, BitVec.xor_self, BitVec.zero_xor]
  simp only [g2b, b2g, BitVec.ushiftRight_xor_distrib, ← BitVec.shiftRight_add, BitVec.xor_assoc, cancel]
  exact (congrArg (x ^^^ ·) (BitVec.ushiftRight_eq_zero (le_refl 8))).trans BitVec.xor_zero

theorem ushiftRight_toNat_lt {n : Nat} {x : Ptr} (k : Nat) (h : x.toNat < n) : (x >>> k).toNat < n := by
  rw [BitVec.toNat_ushiftRight]
  exact lt_of_le_of_lt (Nat.shiftRight_le _ _) h

theorem xor_toNat_lt {n : Nat} {x y : Ptr} (hx : x.toNat < 2 ^ n) (hy : y.toNat < 2 ^ n) :
    (x ^^^ y).toNat < 2 ^ n := by
  rw [BitVec.toNat_xor]
  exact Nat.xor_lt_two_pow hx hy

/-- The gray image of a pointer in range is in range (spec/10_state.md R31, R34). -/
theorem b2g_lt (b : Build) {x : Ptr} (h : x.toNat < b.modulus) : (b2g x).toNat < b.modulus :=
  xor_toNat_lt h (ushiftRight_toNat_lt 1 h)

theorem g2b_lt (b : Build) {x : Ptr} (h : x.toNat < b.modulus) : (g2b x).toNat < b.modulus := by
  have hshift (k : Nat) : (x >>> k).toNat < b.modulus := ushiftRight_toNat_lt k h
  exact xor_toNat_lt (xor_toNat_lt (xor_toNat_lt (xor_toNat_lt (xor_toNat_lt (xor_toNat_lt (xor_toNat_lt h
    (hshift 1)) (hshift 2)) (hshift 3)) (hshift 4)) (hshift 5)) (hshift 6)) (hshift 7)

/-! ### Distances -/

theorem Build.c_lt_modulus (b : Build) : b.c < b.modulus := by
  have := Build.modulus_eq b
  have := Build.c_pos b
  omega

/-- Distances add up along the circle as long as they do not go around it. -/
theorem ptrDiff_trans (b : Build) {x y z : Ptr} (hx : x.toNat < b.modulus) (hy : y.toNat < b.modulus)
    (hz : z.toNat < b.modulus) (h : ptrDiff b y x + ptrDiff b z y < b.modulus) :
    ptrDiff b z x = ptrDiff b y x + ptrDiff b z y := by
  rw [ptrDiff_of_lt b y x hy hx, ptrDiff_of_lt b z y hz hy] at h ⊢
  rw [ptrDiff_of_lt b z x hz hx]
  split_ifs at h ⊢ <;> omega

/-- The front one step on is at most one step farther. -/
theorem ptrDiff_ptrNext_left_le (b : Build) {x y : Ptr} (hx : x.toNat < b.modulus) (hy : y.toNat < b.modulus) :
    ptrDiff b (ptrNext b x) y ≤ ptrDiff b x y + 1 := by
  rw [ptrDiff_of_lt b _ y (ptrNext_lt b x) hy, ptrNext_of_lt b x hx, ptrDiff_of_lt b x y hx hy]
  split_ifs <;> omega

/-- The back one step on is one step nearer, unless it had caught up. -/
theorem ptrDiff_ptrNext_right (b : Build) {x y : Ptr} (hx : x.toNat < b.modulus) (hy : y.toNat < b.modulus)
    (h : ptrDiff b x y ≠ 0) : ptrDiff b x (ptrNext b y) + 1 = ptrDiff b x y := by
  rw [ptrDiff_of_lt b x y hx hy] at h ⊢
  rw [ptrDiff_of_lt b x _ hx (ptrNext_lt b y), ptrNext_of_lt b y hy]
  split_ifs at h ⊢ <;> omega

end Sys2Proof.Machine
end

section
/-! SUPPORT. The ring's part of the invariant: what it says of the views, and the four updates that move a pointer or one of its
images (spec/10_state.md R43). -/

namespace Sys2Proof.Machine

variable {s : State}

/-- The views of the length are sums of neighbouring gaps of the circle, which is less than once around. -/
theorem views_of_ringOrdered (hp : pointersInRange s) (hr : ringOrdered s) :
    s.lenTrue = s.lenR + (ptrDiff s.build (g2b s.r.wgR1) (g2b s.r.wgR2) + ptrDiff s.build s.w.wbin (g2b s.r.wgR1)) ∧
    s.lenW = ptrDiff s.build (g2b s.w.rgW1) (g2b s.w.rgW2) + ptrDiff s.build s.r.rbin (g2b s.w.rgW1) + s.lenTrue := by
  obtain ⟨⟨hwbin, hrg1, hrg2⟩, hrbin, hwg1, hwg2⟩ := hp
  have hrg1 := g2b_lt s.build hrg1
  have hrg2 := g2b_lt s.build hrg2
  have hwg1 := g2b_lt s.build hwg1
  have hwg2 := g2b_lt s.build hwg2
  have hm := Build.c_lt_modulus s.build
  unfold ringOrdered at hr
  have hseen := ptrDiff_trans s.build hwg2 hwg1 hwbin (by omega)
  have htrue := ptrDiff_trans s.build hrbin hwg2 hwbin (by omega)
  have hread := ptrDiff_trans s.build hrg2 hrg1 hrbin (by omega)
  have hall := ptrDiff_trans s.build hrg2 hrbin hwbin (by omega)
  unfold State.lenW State.lenTrue State.lenR
  omega

theorem lenW_le (hp : pointersInRange s) (hr : ringOrdered s) : s.lenW ≤ s.build.c := by
  obtain ⟨htrue, hw⟩ := views_of_ringOrdered hp hr
  unfold State.lenR at htrue
  unfold ringOrdered at hr
  omega

/-- A byte is appended where the producer sees room (spec/42_ring.md R181, spec/41_boundary_handler.md R153). -/
theorem ringOrdered_append (hp : pointersInRange s) (hr : ringOrdered s) (hroom : s.lenW < s.build.c) :
    pointersInRange { s with w := { s.w with wbin := ptrNext s.build s.w.wbin } } ∧
      ringOrdered { s with w := { s.w with wbin := ptrNext s.build s.w.wbin } } := by
  obtain ⟨htrue, hw⟩ := views_of_ringOrdered hp hr
  obtain ⟨⟨hwbin, hrg⟩, hrbin, hwg1, hwg2⟩ := hp
  have hstep := ptrDiff_ptrNext_left_le s.build hwbin (g2b_lt s.build hwg1)
  unfold State.lenR at htrue
  exact ⟨⟨⟨ptrNext_lt _ _, hrg⟩, hrbin, hwg1, hwg2⟩, by unfold ringOrdered; dsimp only; omega⟩

/-- A byte is removed where the consumer sees one: the gap before `rbin` grows by what the gap after it loses
(spec/42_ring.md R186, spec/43_consumer.md R224). -/
theorem ringOrdered_remove (hp : pointersInRange s) (hr : ringOrdered s) (hsome : s.lenR ≠ 0) :
    pointersInRange { s with r := { s.r with rbin := ptrNext s.build s.r.rbin } } ∧
      ringOrdered { s with r := { s.r with rbin := ptrNext s.build s.r.rbin } } := by
  obtain ⟨⟨hwbin, hrg1, hrg2⟩, hrbin, hwg1, hwg2⟩ := hp
  have hbefore := ptrDiff_ptrNext_left_le s.build hrbin (g2b_lt s.build hrg1)
  have hafter := ptrDiff_ptrNext_right s.build (g2b_lt s.build hwg2) hrbin hsome
  unfold ringOrdered at hr
  exact ⟨⟨⟨hwbin, hrg1, hrg2⟩, ptrNext_lt _ _, hwg1, hwg2⟩, by unfold ringOrdered; dsimp only; omega⟩

/-- The consumer sees one byte less after it removed one. -/
theorem lenR_remove (hp : pointersInRange s) (hsome : s.lenR ≠ 0) :
    ({ s with r := { s.r with rbin := ptrNext s.build s.r.rbin } } : State).lenR + 1 = s.lenR := by
  obtain ⟨-, hrbin, -, hwg2⟩ := hp
  exact ptrDiff_ptrNext_right s.build (g2b_lt s.build hwg2) hrbin hsome

/-- `SYNC_W` moves the producer's two images of `rbin` forward to their neighbours (spec/42_ring.md R196). -/
theorem ringOrdered_syncW (hp : pointersInRange s) (hr : ringOrdered s) :
    pointersInRange (syncW s) ∧ ringOrdered (syncW s) := by
  obtain ⟨⟨hwbin, hrg1, hrg2⟩, hrbin, hwg⟩ := hp
  refine ⟨⟨⟨hwbin, b2g_lt _ hrbin, hrg1⟩, hrbin, hwg⟩, ?_⟩
  have hcaught := ptrDiff_self s.build s.r.rbin hrbin
  unfold ringOrdered at hr ⊢
  simp only [syncW_build, syncW_w, syncW_r, g2b_b2g]
  omega

/-- `SYNC_R` moves the consumer's two images of `wbin` forward to their neighbours (spec/42_ring.md R197). -/
theorem ringOrdered_syncR (hp : pointersInRange s) (hr : ringOrdered s) :
    pointersInRange (syncR s) ∧ ringOrdered (syncR s) ∧ s.lenR ≤ (syncR s).lenR := by
  obtain ⟨⟨hwbin, hrg⟩, hrbin, hwg1, hwg2⟩ := hp
  have hcaught := ptrDiff_self s.build s.w.wbin hwbin
  have hm := Build.c_lt_modulus s.build
  unfold ringOrdered at hr
  have hseen := ptrDiff_trans s.build hrbin (g2b_lt s.build hwg2) (g2b_lt s.build hwg1) (by omega)
  refine ⟨⟨⟨hwbin, hrg⟩, hrbin, b2g_lt _ hwbin, hwg1⟩, ?_, ?_⟩
  · unfold ringOrdered
    simp only [syncR_build, syncR_w, syncR_r, g2b_b2g]
    omega
  · unfold State.lenR
    simp only [syncR_build, syncR_r]
    omega

end Sys2Proof.Machine
end

section
/-! SUPPORT. The slot's part of the invariant: the toggles are a chain with at most one change, so each side's view says where it
is (spec/10_state.md R44). -/

namespace Sys2Proof.Machine

variable {s : State}

/-- The consumer sees the slot ready: the one change of the chain is between `xr` and the consumer's image of `xw`. -/
theorem slot_of_ready (h : slotOrdered s) (hrdy : s.slotRdyR = true) :
    s.w.xrW2 = s.r.xr ∧ s.w.xrW1 = s.r.xr ∧ s.r.xwR2 = !s.r.xr ∧ s.r.xwR1 = !s.r.xr ∧ s.w.xw = !s.r.xr := by
  unfold slotOrdered at h
  unfold State.slotRdyR at hrdy
  revert h hrdy
  generalize s.w.xrW2 = a, s.w.xrW1 = b, s.r.xr = c, s.r.xwR2 = d, s.r.xwR1 = e, s.w.xw = f
  revert a b c d e f
  decide

/-- The producer sees the slot free: the chain holds no change. -/
theorem slot_of_free (h : slotOrdered s) (hfree : s.slotOccW = false) :
    s.w.xrW2 = s.w.xw ∧ s.w.xrW1 = s.w.xw ∧ s.r.xr = s.w.xw ∧ s.r.xwR2 = s.w.xw ∧ s.r.xwR1 = s.w.xw := by
  unfold slotOrdered at h
  unfold State.slotOccW at hfree
  revert h hfree
  generalize s.w.xrW2 = a, s.w.xrW1 = b, s.r.xr = c, s.r.xwR2 = d, s.r.xwR1 = e, s.w.xw = f
  revert a b c d e f
  decide

/-- Ready implies occupied, in truth and to the producer. -/
theorem slot_occupied_of_ready (h : slotOrdered s) (hrdy : s.slotRdyR = true) :
    s.slotOccTrue = true ∧ s.slotOccW = true := by
  obtain ⟨hw2, -, -, -, hxw⟩ := slot_of_ready h hrdy
  simp [State.slotOccTrue, State.slotOccW, hw2, hxw]

/-- Publishing a free slot makes the chain's one change (spec/41_boundary_handler.md R154). -/
theorem slotOrdered_publish (h : slotOrdered s) (hfree : s.slotOccW = false) :
    slotOrdered { s with w := { s.w with xw := !s.w.xw } } := by
  obtain ⟨hw2, hw1, hxr, hr2, hr1⟩ := slot_of_free h hfree
  simp [slotOrdered, hw2, hw1, hxr, hr2, hr1]

/-- Releasing a ready slot moves the chain's one change past `xr` (spec/43_consumer.md R229). -/
theorem slotOrdered_release (h : slotOrdered s) (hrdy : s.slotRdyR = true) :
    slotOrdered { s with r := { s.r with xr := !s.r.xr } } := by
  obtain ⟨hw2, hw1, hr2, hr1, hxw⟩ := slot_of_ready h hrdy
  simp [slotOrdered, hw2, hw1, hr2, hr1, hxw]

/-- `SYNC_W` drops the chain's oldest gap, and a slot the producer saw free stays free. -/
theorem slotOrdered_syncW (h : slotOrdered s) :
    slotOrdered (syncW s) ∧ (s.slotOccW = false → (syncW s).slotOccW = false) := by
  constructor
  · unfold slotOrdered at h ⊢
    simp only [syncW_w, syncW_r, bne_self_eq_false, Bool.toNat_false]
    omega
  · intro hfree
    obtain ⟨-, hw1, -⟩ := slot_of_free h hfree
    simp [State.slotOccW, hw1]

/-- `SYNC_R` drops the chain's newest gap, and a slot the consumer saw ready stays ready. -/
theorem slotOrdered_syncR (h : slotOrdered s) :
    slotOrdered (syncR s) ∧ (s.slotRdyR = true → (syncR s).slotRdyR = true) := by
  constructor
  · unfold slotOrdered at h ⊢
    simp only [syncR_w, syncR_r, bne_self_eq_false, Bool.toNat_false]
    revert h
    generalize s.w.xrW2 = a, s.w.xrW1 = b, s.r.xr = c, s.r.xwR2 = d, s.r.xwR1 = e, s.w.xw = f
    revert a b c d e f
    decide
  · intro hrdy
    obtain ⟨-, -, -, hr1, -⟩ := slot_of_ready h hrdy
    simp [State.slotRdyR, hr1]

end Sys2Proof.Machine
end

section
/-! SUPPORT. What one event does, once: the command it executes, the illegal word it records, the word it leaves waiting, or its
autonomous step (spec/00_scope.md R19, spec/30_encoding.md R95, R96, R98). -/

namespace Sys2Proof.Machine

variable {e : Event} {s t : State}

/-- The state a port's command starts from: the last responses are gone, and the R port's queue is `ws`. -/
def queued (s : State) (ws : List Cmd) : State := { quiet s with rWait := ws }

/-- The kinds of step: a command, an illegal word, a port that takes no word, or a step of another agent. -/
inductive StepKind (e : Event) (s t : State) : Prop where
  | command (i : Instr) (ws : List Cmd) (htaken : takenCommand e s = some i) (hexec : exec i (queued s ws) = .next t)
  | illegal (p : Port) (c : Cmd) (ws : List Cmd) (hword : takenWord e s = some (p, c))
      (hnone : takenCommand e s = none) (heq : t = illegalWord p (queued s ws))
  | untaken (ws : List Cmd) (hnone : takenWord e s = none) (heq : t = queued s ws)
  | hstep (hevent : e = .hstep) (hrun : hstep (quiet s) = .next t)
  | pstep (hevent : e = .pstep) (hrun : pstep (quiet s) = .next t)
  | syncW (hevent : e = .syncW) (heq : t = syncW (quiet s))
  | syncR (hevent : e = .syncR) (heq : t = syncR (quiet s))
  | reset (hevent : e = .reset) (heq : t = resetStep s)

/-- A taken word is a command or an illegal word. -/
theorem StepKind.of_runWord {p : Port} {c : Cmd} {ws : List Cmd} (hword : takenWord e s = some (p, c))
    (h : runWord p c (queued s ws) = .next t) : StepKind e s t := by
  obtain ⟨i, hdecode, hexec⟩ | ⟨cause, hdecode, rfl⟩ := runWord_cases h
  · exact .command i ws (by simp [takenCommand, hword, hdecode, Except.toOption]) hexec
  · exact .illegal p c ws hword (by simp [takenCommand, hword, hdecode, Except.toOption]) rfl

/-- The R port takes the oldest of the words `ws` if it is free (spec/30_encoding.md R98). -/
theorem StepKind.of_takeR {ws : List Cmd}
    (hword : takenWord e s = if s.r.pStep = .idle then ws.head?.map fun x => (.r, x) else none)
    (h : takeR (queued s ws) = .next t) : StepKind e s t := by
  obtain ⟨hbusy, rfl⟩ | ⟨hidle, hempty, rfl⟩ | ⟨c, rest, hidle, hwait, hrun⟩ := takeR_cases h
  · exact .untaken ws (hword.trans (if_neg hbusy)) rfl
  · change ws = [] at hempty
    exact .untaken ws (by rw [hword, hempty]; exact ite_self none) rfl
  · change ws = c :: rest at hwait
    exact .of_runWord (ws := rest) (by rw [hword, hwait]; exact if_pos hidle) hrun

theorem perform_cases (h : perform e s = .next t) : StepKind e s t := by
  cases e with
  | wWord c => exact .of_runWord (ws := s.rWait) rfl h
  | rWord c => exact .of_takeR (ws := s.rWait ++ [c]) rfl h
  | rTake => exact .of_takeR (ws := s.rWait) rfl h
  | hstep => exact .hstep rfl h
  | pstep => exact .pstep rfl h
  | syncW => cases h; exact .syncW rfl rfl
  | syncR => cases h; exact .syncR rfl rfl
  | reset => cases h; exact .reset rfl rfl

end Sys2Proof.Machine
end

section
/-! PROOFS. The error records only grow (spec/10_state.md R39, spec/60_exceptions.md R257): a step leaves them alone or raises one
error. -/

namespace Sys2Proof.Machine

variable {s t : State}

/-- A flag with its counter: the flag is sticky, the counter does not fall, and it moves only with the flag set. -/
def recordGrows (flag flag' : Bool) (count count' : Word32) : Prop :=
  (flag = true → flag' = true) ∧ count.toNat ≤ count'.toNat ∧ (count' ≠ count → flag' = true)

theorem recordGrows_refl (flag : Bool) (count : Word32) : recordGrows flag flag count count :=
  ⟨id, le_refl _, fun h => absurd rfl h⟩

/-- Raising an error sets its flag and adds to its counter. -/
theorem recordGrows_satAdd (flag : Bool) (count : Word32) (k : Nat) : recordGrows flag true count (satAdd count k) :=
  ⟨fun _ => rfl, le_satAdd count k, fun _ => rfl⟩

/-- The six error records of two states, compared. -/
def errorsGrow (s t : State) : Prop :=
  recordGrows s.w.ovfRing t.w.ovfRing s.w.dropRingCnt t.w.dropRingCnt ∧
  recordGrows s.w.ovfCap t.w.ovfCap s.w.dropLineCnt t.w.dropLineCnt ∧
  recordGrows s.w.ovfSlot t.w.ovfSlot s.w.dropSlotCnt t.w.dropSlotCnt ∧
  recordGrows s.w.spur t.w.spur s.w.spurCnt t.w.spurCnt ∧
  (s.w.illW = true → t.w.illW = true) ∧ (s.r.illR = true → t.r.illR = true)

theorem errorsGrow_refl (s : State) : errorsGrow s s :=
  ⟨recordGrows_refl _ _, recordGrows_refl _ _, recordGrows_refl _ _, recordGrows_refl _ _, id, id⟩

theorem errorsGrow_raise (e : BlockError) (k : Nat) (s : State) : errorsGrow s (raise e k s) := by
  obtain ⟨hring, hline, hslot, hspur, hw, hr⟩ := errorsGrow_refl s
  cases e with
  | ringOverrun => exact ⟨recordGrows_satAdd _ _ k, hline, hslot, hspur, hw, hr⟩
  | lineOverrun => exact ⟨hring, recordGrows_satAdd _ _ k, hslot, hspur, hw, hr⟩
  | slotOverrun => exact ⟨hring, hline, recordGrows_satAdd _ _ k, hspur, hw, hr⟩
  | spurious => exact ⟨hring, hline, hslot, recordGrows_satAdd _ _ k, hw, hr⟩
  | illegalW => exact ⟨hring, hline, hslot, hspur, fun _ => rfl, hr⟩
  | illegalR => exact ⟨hring, hline, hslot, hspur, hw, fun _ => rfl⟩

/-- Only `RXBYTE`, `IRQ` and `PUSH` raise an error; the other commands keep the records. -/
theorem exec_errorsGrow {i : Instr} (h : exec i s = .next t) : errorsGrow s t := by
  have same := errorsGrow_refl s
  cases i with
  | nop p => obtain ⟨-, rfl⟩ | ⟨-, -, rfl⟩ | ⟨-, -, rfl⟩ := execNop_cases h <;> exact same
  | rxbyte b =>
    obtain ⟨-, -, rfl⟩ | ⟨-, rfl⟩ := execRxbyte_cases h
    · exact same
    · exact errorsGrow_raise .lineOverrun 1 s
  | rxidle => obtain ⟨-, rfl⟩ | ⟨-, rfl⟩ := execRxidle_cases h <;> exact same
  | tick => cases h; exact same
  | irq i =>
    obtain ⟨-, rfl⟩ | ⟨-, -, rfl⟩ | ⟨-, -, -, -, rfl⟩ := execIrq_cases h
    · exact errorsGrow_raise .spurious 1 s
    · exact same
    · obtain ⟨-, -, hentry⟩ | ⟨-, hentry⟩ := boundaryEntry_cases s <;> rw [hentry]
      · exact errorsGrow_raise .slotOverrun s.w.cePtr.toNat s
      · exact same
  | arm n => obtain ⟨-, rfl⟩ | ⟨-, rfl⟩ := execArm_cases h <;> exact same
  | stop => obtain ⟨-, rfl⟩ | ⟨-, rfl⟩ := execStop_cases h <;> exact same
  | push b =>
    obtain ⟨-, rfl⟩ | ⟨-, -, rfl⟩ | ⟨-, -, rfl⟩ := execPush_cases h
    · exact same
    · exact errorsGrow_raise .ringOverrun 1 s
    · exact same
  | poll =>
    obtain ⟨-, rfl⟩ | ⟨-, ⟨-, -, rfl⟩ | ⟨-, -, rfl⟩ | ⟨-, -, rfl⟩ | ⟨-, -, -, rfl⟩⟩ := execPoll_cases h <;> exact same
  | pop => obtain ⟨-, rfl⟩ | ⟨-, -, rfl⟩ | ⟨-, -, rfl⟩ := execPop_cases h <;> exact same
  | len => obtain ⟨-, rfl⟩ | ⟨-, rfl⟩ := execLen_cases h <;> exact same

/-- The handler raises an error only where the ring is full (spec/41_boundary_handler.md R153). -/
theorem hstep_errorsGrow (h : hstep s = .next t) : errorsGrow s t := by
  have same := errorsGrow_refl s
  obtain ⟨-, rfl⟩ | ⟨-, -, rfl⟩ | ⟨-, -, hring⟩ | ⟨-, -, hidle⟩ | ⟨-, rfl⟩ | ⟨-, rfl⟩ := hstep_cases h
  · exact same
  · exact same
  · obtain ⟨-, -, -, rfl⟩ | ⟨-, -, rfl⟩ | ⟨-, rfl⟩ := handlerCopyRing_cases hring
    · exact same
    · exact errorsGrow_raise .ringOverrun (s.w.hCount.toNat - s.w.hIdx.toNat) s
    · exact same
  · obtain ⟨-, -, rfl⟩ | ⟨-, rfl⟩ := handlerCopyIdle_cases hidle <;> exact same
  · exact same
  · exact same

/-- The poll's steps raise no error. -/
theorem pstep_errorsGrow (h : pstep s = .next t) : errorsGrow s t := by
  have same := errorsGrow_refl s
  obtain ⟨-, rfl⟩ | ⟨-, hcopy⟩ | ⟨-, hdeliver⟩ | ⟨-, rfl⟩ | ⟨-, rfl⟩ := pstep_cases h
  · exact same
  · obtain ⟨-, -, -, rfl⟩ | ⟨-, -, -, sp, -, rfl⟩ | ⟨-, rfl⟩ := pollCopy_cases hcopy <;> exact same
  · obtain ⟨-, rfl⟩ := pollDeliver_cases hdeliver; exact same
  · exact same
  · unfold pollRelease; split <;> exact same

theorem perform_errorsGrow {e : Event} (hreset : e ≠ .reset) (h : perform e s = .next t) : errorsGrow s t := by
  cases perform_cases h with
  | command i ws _ hexec => exact exec_errorsGrow (s := queued s ws) hexec
  | illegal p c ws _ _ heq =>
    subst heq
    cases p with
    | w => exact errorsGrow_raise .illegalW 0 s
    | r => exact errorsGrow_raise .illegalR 0 s
  | untaken ws _ heq => subst heq; exact errorsGrow_refl s
  | hstep _ hrun => exact hstep_errorsGrow (s := quiet s) hrun
  | pstep _ hrun => exact pstep_errorsGrow (s := quiet s) hrun
  | syncW _ heq => subst heq; exact errorsGrow_refl s
  | syncR _ heq => subst heq; exact errorsGrow_refl s
  | reset hevent _ => exact absurd hevent hreset

/-- Settles O52: the six records, taken apart. -/
theorem errorRecordsOnlyGrow : Obligations.ErrorRecordsOnlyGrow := by
  intro e s t hreset h
  obtain ⟨⟨hring, hringCnt⟩, ⟨hline, hlineCnt⟩, ⟨hslot, hslotCnt⟩, ⟨hspur, hspurCnt⟩, hw, hr⟩ :=
    perform_errorsGrow hreset h
  exact ⟨hring, hline, hslot, hspur, hw, hr, hringCnt, hlineCnt, hslotCnt, hspurCnt⟩

end Sys2Proof.Machine
end

section
/-! PROOFS. The written-by columns of the register table (spec/10_state.md R48, R39), W domain and R domain: for each kind of step
the registers it writes, checked against the columns. -/

namespace Sys2Proof.Machine

variable {s t : State}

/-- The step takes a word on the port that is no command (spec/30_encoding.md R96). -/
def takesIllegal (p : Port) (e : Event) (s : State) : Prop :=
  takenCommand e s = none ∧ ∃ c, takenWord e s = some (p, c)

/-! ### The W domain -/

/-- The written-by column for the W registers, for a step of the name `n` that does or does not record an illegal W word. -/
def wWrittenBy (n : Option String) (illegal : Prop) (s t : State) : Prop :=
  (t.w.ceArmed ≠ s.w.ceArmed → n ∈ [some "ARM", some "STOP", some "IRQ", some "HSTEP", some "POLL", some "PSTEP"]) ∧
  (t.w.ceArmed ≠ s.w.ceArmed → n ∈ [some "POLL", some "PSTEP"] → s.build.policy = .timeout) ∧
  (t.w.cePtr ≠ s.w.cePtr → n ∈ [some "RXBYTE", some "ARM", some "HSTEP", some "PSTEP"]) ∧
  (t.w.cePtr ≠ s.w.cePtr → n = some "PSTEP" → s.build.policy = .timeout) ∧
  (t.w.ceLen ≠ s.w.ceLen → n = some "ARM") ∧
  (t.w.irqPending ≠ s.w.irqPending → n ∈ [some "RXBYTE", some "RXIDLE", some "IRQ", some "ARM", some "STOP"]) ∧
  (t.w.hStep ≠ s.w.hStep → n ∈ [some "IRQ", some "HSTEP"]) ∧
  (t.w.hCount ≠ s.w.hCount → n = some "IRQ") ∧
  (t.w.hIdx ≠ s.w.hIdx → n ∈ [some "IRQ", some "HSTEP"]) ∧
  (t.w.now ≠ s.w.now → n = some "TICK") ∧
  (t.w.lastTime ≠ s.w.lastTime → n = some "RXBYTE") ∧
  (t.w.wbin ≠ s.w.wbin → n = some "PUSH" ∨ (n = some "HSTEP" ∧ s.build.policy = .ring)) ∧
  (t.w.rgW1 ≠ s.w.rgW1 ∨ t.w.rgW2 ≠ s.w.rgW2 ∨ t.w.xrW1 ≠ s.w.xrW1 ∨ t.w.xrW2 ≠ s.w.xrW2 → n = some "SYNC_W") ∧
  (t.w.xw ≠ s.w.xw ∨ t.w.xferLen ≠ s.w.xferLen → n = some "HSTEP" ∧ s.build.policy = .idle) ∧
  (t.w.ovfRing ≠ s.w.ovfRing ∨ t.w.dropRingCnt ≠ s.w.dropRingCnt →
    n = some "PUSH" ∨ (n = some "HSTEP" ∧ s.build.policy = .ring)) ∧
  (t.w.ovfCap ≠ s.w.ovfCap ∨ t.w.dropLineCnt ≠ s.w.dropLineCnt → n = some "RXBYTE") ∧
  (t.w.ovfSlot ≠ s.w.ovfSlot ∨ t.w.dropSlotCnt ≠ s.w.dropSlotCnt → n = some "IRQ" ∧ s.build.policy = .idle) ∧
  (t.w.spur ≠ s.w.spur ∨ t.w.spurCnt ≠ s.w.spurCnt → n = some "IRQ") ∧
  (t.w.illW ≠ s.w.illW → illegal)

theorem wWrittenBy_refl (n : Option String) (p : Prop) (s : State) : wWrittenBy n p s s := by
  simp [wWrittenBy]

/-- Each command writes only its own W registers. -/
theorem exec_wWrittenBy {i : Instr} (p : Prop) (h : exec i s = .next t) : wWrittenBy (some i.mnemonic) p s t := by
  have same := wWrittenBy_refl (some i.mnemonic) p s
  cases i with
  | nop q => obtain ⟨-, rfl⟩ | ⟨-, -, rfl⟩ | ⟨-, -, rfl⟩ := execNop_cases h <;> exact same
  | rxbyte b => obtain ⟨-, -, rfl⟩ | ⟨-, rfl⟩ := execRxbyte_cases h <;> simp [wWrittenBy, Instr.mnemonic]
  | rxidle =>
    obtain ⟨-, rfl⟩ | ⟨-, rfl⟩ := execRxidle_cases h
    · simp [wWrittenBy, Instr.mnemonic]
    · exact same
  | tick => cases h; simp [wWrittenBy, Instr.mnemonic]
  | irq i =>
    obtain ⟨-, rfl⟩ | ⟨-, -, rfl⟩ | ⟨-, -, -, -, rfl⟩ := execIrq_cases h
    · simp [wWrittenBy, Instr.mnemonic]
    · exact same
    · obtain ⟨hidle, -, hentry⟩ | ⟨-, hentry⟩ := boundaryEntry_cases s <;>
        simp [wWrittenBy, Instr.mnemonic, *]
  | arm n =>
    obtain ⟨-, rfl⟩ | ⟨-, rfl⟩ := execArm_cases h
    · simp [wWrittenBy, Instr.mnemonic]
    · exact same
  | stop =>
    obtain ⟨-, rfl⟩ | ⟨-, rfl⟩ := execStop_cases h
    · simp [wWrittenBy, Instr.mnemonic]
    · exact same
  | push b =>
    obtain ⟨-, rfl⟩ | ⟨-, -, rfl⟩ | ⟨-, -, rfl⟩ := execPush_cases h
    · exact same
    · simp [wWrittenBy, Instr.mnemonic]
    · simp [wWrittenBy, Instr.mnemonic]
  | poll =>
    obtain ⟨-, rfl⟩ | ⟨-, ⟨hpolicy, -, rfl⟩ | ⟨-, -, rfl⟩ | ⟨-, -, rfl⟩ | ⟨-, -, -, rfl⟩⟩ := execPoll_cases h
    · exact same
    · simp [wWrittenBy, Instr.mnemonic, hpolicy]
    · exact same
    · exact same
    · exact same
  | pop => obtain ⟨-, rfl⟩ | ⟨-, -, rfl⟩ | ⟨-, -, rfl⟩ := execPop_cases h <;> exact same
  | len => obtain ⟨-, rfl⟩ | ⟨-, rfl⟩ := execLen_cases h <;> exact same

theorem hstep_wWrittenBy (p : Prop) (h : hstep s = .next t) : wWrittenBy (some "HSTEP") p s t := by
  have same := wWrittenBy_refl (some "HSTEP") p s
  obtain ⟨-, rfl⟩ | ⟨-, -, rfl⟩ | ⟨-, hpolicy, hring⟩ | ⟨-, hpolicy, hidle⟩ | ⟨-, rfl⟩ | ⟨-, rfl⟩ := hstep_cases h
  · exact same
  · exact same
  · obtain ⟨-, -, -, rfl⟩ | ⟨-, -, rfl⟩ | ⟨-, rfl⟩ := handlerCopyRing_cases hring <;> simp [wWrittenBy, hpolicy]
  · obtain ⟨-, -, rfl⟩ | ⟨-, rfl⟩ := handlerCopyIdle_cases hidle <;> simp [wWrittenBy, hpolicy]
  · simp [wWrittenBy]
  · simp [wWrittenBy]

/-- The poll writes W registers only in its last step under `TIMEOUT`, where it arms the engine again. -/
theorem pstep_wWrittenBy (p : Prop) (h : pstep s = .next t) : wWrittenBy (some "PSTEP") p s t := by
  have same := wWrittenBy_refl (some "PSTEP") p s
  obtain ⟨-, rfl⟩ | ⟨-, hcopy⟩ | ⟨-, hdeliver⟩ | ⟨-, rfl⟩ | ⟨-, rfl⟩ := pstep_cases h
  · exact same
  · obtain ⟨-, -, -, rfl⟩ | ⟨-, -, -, sp, -, rfl⟩ | ⟨-, rfl⟩ := pollCopy_cases hcopy <;> exact same
  · obtain ⟨-, rfl⟩ := pollDeliver_cases hdeliver; exact same
  · exact same
  · unfold pollRelease
    split
    case h_1 hpolicy => simp [wWrittenBy, hpolicy]
    case h_2 => exact same
    case h_3 => exact same

/-- Settles O49: each kind of step against the column; a step that takes an illegal word writes only that port's flag. -/
theorem wRegistersHaveTheirWriters : Obligations.WRegistersHaveTheirWriters := by
  intro e s t hreset h
  change wWrittenBy (stepName e s) (takesIllegal .w e s) s t
  have same := wWrittenBy_refl (stepName e s) (takesIllegal .w e s) s
  cases perform_cases h with
  | command i ws htaken hexec =>
    have hname : stepName e s = some i.mnemonic := by simp [stepName, htaken]
    rw [hname]
    exact exec_wWrittenBy (s := queued s ws) _ hexec
  | illegal p c ws hword hnone heq =>
    subst heq
    cases p with
    | w =>
      have hillegal : takesIllegal .w e s := ⟨hnone, c, hword⟩
      simp [wWrittenBy, illegalWord, State.respondOn, illegalError, queued, hillegal]
    | r => exact same
  | untaken ws _ heq => subst heq; exact same
  | hstep hevent hrun => subst hevent; exact hstep_wWrittenBy (s := quiet s) _ hrun
  | pstep hevent hrun => subst hevent; exact pstep_wWrittenBy (s := quiet s) _ hrun
  | syncW hevent heq => subst hevent heq; simp [wWrittenBy, stepName, takenCommand, takenWord]
  | syncR _ heq => subst heq; exact same
  | reset hevent _ => exact absurd hevent hreset

/-! ### The R domain -/

/-- The written-by column for the R registers, for a step of the name `n` that does or does not record an illegal R word. -/
def rWrittenBy (n : Option String) (illegal : Prop) (s t : State) : Prop :=
  (t.r.rbin ≠ s.r.rbin → n = some "POP" ∨ (n = some "PSTEP" ∧ s.build.policy = .ring)) ∧
  (t.r.wgR1 ≠ s.r.wgR1 ∨ t.r.wgR2 ≠ s.r.wgR2 ∨ t.r.xwR1 ≠ s.r.xwR1 ∨ t.r.xwR2 ≠ s.r.xwR2 → n = some "SYNC_R") ∧
  (t.r.xr ≠ s.r.xr → n = some "PSTEP" ∧ s.build.policy = .idle) ∧
  (t.r.pStep ≠ s.r.pStep ∨ t.r.pIdx ≠ s.r.pIdx → n ∈ [some "POLL", some "PSTEP"]) ∧
  (t.r.pCount ≠ s.r.pCount → n = some "POLL") ∧
  (t.r.fbLen ≠ s.r.fbLen → n = some "PSTEP") ∧
  (t.r.toReady ≠ s.r.toReady → n ∈ [some "POLL", some "PSTEP"] ∧ s.build.policy = .timeout) ∧
  (t.r.illR ≠ s.r.illR → illegal)

/-- A step that leaves the R registers as they are, whatever it is called. -/
theorem rWrittenBy_of_r_eq (n : Option String) (p : Prop) (h : t.r = s.r) : rWrittenBy n p s t := by
  simp [rWrittenBy, h]

/-- Only `POLL` and `POP` write R registers. -/
theorem exec_rWrittenBy {i : Instr} (p : Prop) (h : exec i s = .next t) : rWrittenBy (some i.mnemonic) p s t := by
  have same := fun {t : State} => rWrittenBy_of_r_eq (s := s) (t := t) (some i.mnemonic) p
  cases i with
  | nop q => obtain ⟨-, rfl⟩ | ⟨-, -, rfl⟩ | ⟨-, -, rfl⟩ := execNop_cases h <;> exact same rfl
  | rxbyte b => obtain ⟨-, -, rfl⟩ | ⟨-, rfl⟩ := execRxbyte_cases h <;> exact same rfl
  | rxidle => obtain ⟨-, rfl⟩ | ⟨-, rfl⟩ := execRxidle_cases h <;> exact same rfl
  | tick => cases h; exact same rfl
  | irq i =>
    obtain ⟨-, rfl⟩ | ⟨-, -, rfl⟩ | ⟨-, -, -, -, rfl⟩ := execIrq_cases h
    · exact same rfl
    · exact same rfl
    · exact same (boundaryEntry_r s)
  | arm n => obtain ⟨-, rfl⟩ | ⟨-, rfl⟩ := execArm_cases h <;> exact same rfl
  | stop => obtain ⟨-, rfl⟩ | ⟨-, rfl⟩ := execStop_cases h <;> exact same rfl
  | push b => obtain ⟨-, rfl⟩ | ⟨-, -, rfl⟩ | ⟨-, -, rfl⟩ := execPush_cases h <;> exact same rfl
  | poll =>
    obtain ⟨-, rfl⟩ | ⟨-, ⟨hpolicy, -, rfl⟩ | ⟨-, -, rfl⟩ | ⟨-, -, rfl⟩ | ⟨-, -, -, rfl⟩⟩ := execPoll_cases h
    · exact same rfl
    · simp [rWrittenBy, Instr.mnemonic, hpolicy]
    · simp [rWrittenBy, Instr.mnemonic]
    · simp [rWrittenBy, Instr.mnemonic]
    · exact same rfl
  | pop =>
    obtain ⟨-, rfl⟩ | ⟨-, -, rfl⟩ | ⟨-, -, rfl⟩ := execPop_cases h
    · exact same rfl
    · exact same rfl
    · simp [rWrittenBy, Instr.mnemonic]
  | len => obtain ⟨-, rfl⟩ | ⟨-, rfl⟩ := execLen_cases h <;> exact same rfl

theorem hstep_keeps_r (h : hstep s = .next t) : t.r = s.r := by
  obtain ⟨-, rfl⟩ | ⟨-, -, rfl⟩ | ⟨-, -, hring⟩ | ⟨-, -, hidle⟩ | ⟨-, rfl⟩ | ⟨-, rfl⟩ := hstep_cases h
  · rfl
  · rfl
  · obtain ⟨-, -, -, rfl⟩ | ⟨-, -, rfl⟩ | ⟨-, rfl⟩ := handlerCopyRing_cases hring <;> rfl
  · obtain ⟨-, -, rfl⟩ | ⟨-, rfl⟩ := handlerCopyIdle_cases hidle <;> rfl
  · rfl
  · rfl

theorem pstep_rWrittenBy (p : Prop) (h : pstep s = .next t) : rWrittenBy (some "PSTEP") p s t := by
  obtain ⟨-, rfl⟩ | ⟨-, hcopy⟩ | ⟨-, hdeliver⟩ | ⟨-, rfl⟩ | ⟨-, rfl⟩ := pstep_cases h
  · exact rWrittenBy_of_r_eq _ p rfl
  · obtain ⟨-, hpolicy, -, rfl⟩ | ⟨-, -, -, sp, -, rfl⟩ | ⟨-, rfl⟩ := pollCopy_cases hcopy
    · simp [rWrittenBy, hpolicy]
    · simp [rWrittenBy]
    · simp [rWrittenBy]
  · obtain ⟨-, rfl⟩ := pollDeliver_cases hdeliver
    simp [rWrittenBy]
  · simp [rWrittenBy]
  · unfold pollRelease
    split
    case h_1 hpolicy => simp [rWrittenBy, hpolicy]
    case h_2 hpolicy => simp [rWrittenBy, hpolicy]
    case h_3 => simp [rWrittenBy]

/-- Settles O50: each kind of step against the column. -/
theorem rRegistersHaveTheirWriters : Obligations.RRegistersHaveTheirWriters := by
  intro e s t hreset h
  change rWrittenBy (stepName e s) (takesIllegal .r e s) s t
  have same := fun {t : State} => rWrittenBy_of_r_eq (s := s) (t := t) (stepName e s) (takesIllegal .r e s)
  cases perform_cases h with
  | command i ws htaken hexec =>
    have hname : stepName e s = some i.mnemonic := by simp [stepName, htaken]
    rw [hname]
    exact exec_rWrittenBy (s := queued s ws) _ hexec
  | illegal p c ws hword hnone heq =>
    subst heq
    cases p with
    | w => exact same rfl
    | r =>
      have hillegal : takesIllegal .r e s := ⟨hnone, c, hword⟩
      simp [rWrittenBy, illegalWord, State.respondOn, illegalError, queued, hillegal]
  | untaken ws _ heq => subst heq; exact same rfl
  | hstep _ hrun => exact same (hstep_keeps_r (s := quiet s) hrun)
  | pstep hevent hrun => subst hevent; exact pstep_rWrittenBy (s := quiet s) _ hrun
  | syncW _ heq => subst heq; exact same rfl
  | syncR hevent heq => subst hevent heq; simp [rWrittenBy, stepName, takenCommand, takenWord]
  | reset hevent _ => exact absurd hevent hreset

end Sys2Proof.Machine
end

section
/-! PROOFS. The invariant holds after reset (spec/10_state.md R48). -/

namespace Sys2Proof.Machine

/-- At reset both pointers and all their images are 0, so every gap of the circle is empty. -/
theorem resetOf_ringOrdered (b : Build) : ringOrdered (State.resetOf b) := by
  have hzero : ptrDiff b 0#8 0#8 = 0 := ptrDiff_self b 0 (Nat.two_pow_pos _)
  have hgray : g2b 0#8 = 0#8 := by decide
  simp [State.resetOf, ringOrdered, hgray, hzero]

/-- At reset nothing is counted, running, armed or pending. -/
theorem resetOf_inv (b : Build) : (State.resetOf b).Inv where
  memories := ⟨rfl, rfl, rfl, rfl⟩
  pointers := by
    have hpos : 0 < b.modulus := Nat.two_pow_pos _
    exact ⟨⟨hpos, hpos, hpos⟩, hpos, hpos, hpos⟩
  ring := resetOf_ringOrdered b
  slot := (by decide : slotOrdered (State.resetOf Build.reference))
  capture := ⟨⟨le_refl _, Nat.zero_le _⟩, ⟨le_refl _, Nat.zero_le _⟩, nofun, fun h => absurd rfl h, nofun⟩
  consumer := ⟨⟨le_refl _, Nat.zero_le _⟩, fun _ => Nat.zero_le _, Nat.zero_le _, nofun, nofun, fun h => absurd rfl h,
    nofun, fun _ => rfl, by simp [State.resetOf], by simp [State.resetOf]⟩

/-- At reset no byte can be read: the engine, the ring and the slot are empty and no sequencer runs. -/
theorem resetOf_written (b : Build) : (State.resetOf b).Written := by
  have hlen : (State.resetOf b).lenTrue = 0 := ptrDiff_self b 0 (Nat.two_pow_pos _)
  refine ⟨fun i hi => absurd hi (Nat.not_lt_zero i), fun k hk => ?_, nofun, nofun, fun h => absurd rfl h⟩
  rw [hlen] at hk
  exact absurd hk (Nat.not_lt_zero k)

/-- Settles O31: at every build, the reference build among them. -/
theorem invHoldsAtReset : Obligations.InvHoldsAtReset :=
  ⟨fun b => ⟨resetOf_inv b, resetOf_written b⟩, resetOf_inv _, resetOf_written _⟩

end Sys2Proof.Machine
end

section
/-! SUPPORT. The capture and handler part of the invariant: what it rules out, and each update of the engine and the handler
(spec/10_state.md R45 a, b, c, e, f). -/

namespace Sys2Proof.Machine

variable {s : State}

/-- A byte below another can be counted up without wrapping. -/
theorem toNat_succ_of_lt {x y : Byte} (h : x.toNat < y.toNat) : (x + 1).toNat = x.toNat + 1 := by
  have := y.isLt
  rw [BitVec.toNat_add]
  exact Nat.mod_eq_of_lt (show x.toNat + 1 < 2 ^ 8 by omega)

/-! ### What it rules out -/

/-- A running handler has halted the engine, so an armed engine has no handler. -/
theorem handler_idle_of_armed (h : captureOrdered s) (harmed : s.w.ceArmed = true) : s.w.hStep = .idle := by
  obtain ⟨-, -, -, hrun, -⟩ := h
  by_contra hstep
  obtain ⟨hhalted, -⟩ := hrun hstep
  rw [harmed] at hhalted
  cases hhalted

/-- Under `TIMEOUT` no boundary interrupt is pending and no handler runs (spec/41_boundary_handler.md R155). -/
theorem no_boundary_of_timeout (h : captureOrdered s) (hpolicy : s.build.policy = .timeout) :
    s.w.irqPending = false ∧ s.w.hStep = .idle := by
  obtain ⟨-, -, hirq, hrun, -⟩ := h
  constructor
  · by_contra hpending
    obtain ⟨-, -, -, hnot⟩ := hirq (Bool.eq_true_of_not_eq_false hpending)
    exact hnot hpolicy
  · by_contra hstep
    obtain ⟨-, -, hnot, -⟩ := hrun hstep
    exact hnot hpolicy

/-! ### The engine -/

/-- `RXBYTE` on an armed engine with room (spec/40_line_capture.md R121). -/
theorem captureOrdered_store (h : captureOrdered s) (harmed : s.w.ceArmed = true)
    (hroom : s.w.cePtr.toNat < s.w.ceLen.toNat) (full : Bool) (hfull : full = true → s.build.policy ≠ .timeout)
    (time : Word32) :
    captureOrdered { s with w := { s.w with
      lastTime := time, cePtr := s.w.cePtr + 1, irqPending := s.w.irqPending || full } } := by
  have hidle := handler_idle_of_armed h harmed
  have hsucc := toNat_succ_of_lt hroom
  obtain ⟨⟨-, hcap⟩, hcounts, hirq, -, -⟩ := h
  refine ⟨⟨?_, hcap⟩, hcounts, fun hpending => ⟨harmed, hidle, ?_, ?_⟩, fun hrun => absurd hidle hrun, fun hcopy => ?_⟩
  · change (s.w.cePtr + 1).toNat ≤ s.w.ceLen.toNat
    omega
  · change 1 ≤ (s.w.cePtr + 1).toNat
    omega
  · obtain hold | hnew := (Bool.or_eq_true _ _).mp hpending
    · obtain ⟨-, -, -, hpolicy⟩ := hirq hold
      exact hpolicy
    · exact hfull hnew
  · rw [show s.w.hStep = .copy from hcopy] at hidle
    cases hidle

/-- `RXIDLE` on an armed engine with a byte captured (spec/40_line_capture.md R124). -/
theorem captureOrdered_raise_irq (h : captureOrdered s) (hpolicy : s.build.policy ≠ .timeout)
    (harmed : s.w.ceArmed = true) (hsome : 0 < s.w.cePtr.toNat) :
    captureOrdered { s with w := { s.w with irqPending := true } } := by
  have hidle := handler_idle_of_armed h harmed
  obtain ⟨hptr, hcounts, -, -, hslot⟩ := h
  exact ⟨hptr, hcounts, fun _ => ⟨harmed, hidle, hsome, hpolicy⟩, fun hrun => absurd hidle hrun, hslot⟩

/-- An update that leaves no handler running and no boundary pending keeps what is left: the bounds of the counts. -/
theorem captureOrdered_of_quiescent {w' : WRegs} (hptr : w'.cePtr.toNat ≤ w'.ceLen.toNat)
    (hcap : w'.ceLen.toNat ≤ s.build.cap) (hcounts : w'.hIdx.toNat ≤ w'.hCount.toNat ∧ w'.hCount.toNat ≤ s.build.cap)
    (hirq : w'.irqPending = false) (hidle : w'.hStep = .idle) : captureOrdered { s with w := w' } := by
  refine ⟨⟨hptr, hcap⟩, hcounts, fun hpending => ?_, fun hrun => absurd hidle hrun, fun hcopy => ?_⟩
  · rw [show w'.irqPending = true from hpending] at hirq
    cases hirq
  · rw [show w'.hStep = .copy from hcopy] at hidle
    cases hidle

/-! ### The handler -/

/-- The accepted `IRQ` enters the handler with `h_count = ce_ptr`, in `H_COPY` or, where an occupied slot rejects the frame, in
`H_CLEAR` (spec/41_boundary_handler.md R151). -/
theorem captureOrdered_boundaryEntry (h : captureOrdered s) (hpending : s.w.irqPending = true) :
    captureOrdered (boundaryEntry s) := by
  obtain ⟨⟨hptr, hcap⟩, -, hirq, -, -⟩ := h
  obtain ⟨-, -, hsome, hpolicy⟩ := hirq hpending
  obtain ⟨-, -, hentry⟩ | ⟨hfree, hentry⟩ := boundaryEntry_cases s <;> rw [hentry]
  · exact ⟨⟨hptr, hcap⟩, ⟨Nat.zero_le _, hptr.trans hcap⟩, nofun, fun _ => ⟨rfl, rfl, hpolicy, rfl, hsome⟩, nofun⟩
  · exact ⟨⟨hptr, hcap⟩, ⟨Nat.zero_le _, hptr.trans hcap⟩, nofun, fun _ => ⟨rfl, rfl, hpolicy, rfl, hsome⟩,
      fun _ hidle => Bool.eq_false_iff.mpr fun hocc => hfree ⟨hidle, hocc⟩⟩

/-- A running handler counts `h_idx` up to `h_count` (spec/41_boundary_handler.md R153, R154). -/
theorem captureOrdered_hIdx {k : Byte} (h : captureOrdered s) (hk : k.toNat ≤ s.w.hCount.toNat) :
    captureOrdered { s with w := { s.w with hIdx := k } } := by
  obtain ⟨hptr, ⟨-, hcount⟩, hrest⟩ := h
  exact ⟨hptr, ⟨hk, hcount⟩, hrest⟩

/-- A running handler leaves `H_COPY` or `H_CLEAR` for a later state; by then the slot is of no concern to it. -/
theorem captureOrdered_hStep {p : HStep} {n : Byte} {toggle : Bool} (h : captureOrdered s) (hrun : s.w.hStep ≠ .idle)
    (hcopy : p ≠ .copy) : captureOrdered { s with w := { s.w with xferLen := n, xw := toggle, hStep := p } } := by
  obtain ⟨hptr, hcounts, -, hrunning, -⟩ := h
  obtain ⟨hhalted, hirq, hrest⟩ := hrunning hrun
  refine ⟨hptr, hcounts, fun hpending => ?_, fun _ => ⟨hhalted, hirq, hrest⟩, fun he => absurd he hcopy⟩
  rw [show s.w.irqPending = true from hpending] at hirq
  cases hirq

/-- The handler's return arms the engine with nothing captured (spec/41_boundary_handler.md R158). -/
theorem captureOrdered_boundaryReturn (h : captureOrdered s) (hrun : s.w.hStep ≠ .idle) :
    captureOrdered (boundaryReturn s) := by
  obtain ⟨⟨-, hcap⟩, hcounts, -, hrunning, -⟩ := h
  obtain ⟨-, hirq, -⟩ := hrunning hrun
  exact captureOrdered_of_quiescent (s := s) (Nat.zero_le _) hcap hcounts hirq rfl

/-- `SYNC_W`: the slot that a copying handler found free stays free. -/
theorem captureOrdered_syncW (h : captureOrdered s) (hslot : slotOrdered s) : captureOrdered (syncW s) := by
  obtain ⟨hptr, hcounts, hirq, hrun, hfree⟩ := h
  obtain ⟨-, hkept⟩ := slotOrdered_syncW hslot
  exact ⟨hptr, hcounts, hirq, hrun, fun hcopy hidle => hkept (hfree hcopy hidle)⟩

/-- Halting the engine under `TIMEOUT`, where no interrupt waits for it (spec/43_consumer.md R221). -/
theorem captureOrdered_halt (h : captureOrdered s) (hpolicy : s.build.policy = .timeout) :
    captureOrdered { s with w := { s.w with ceArmed := false } } := by
  obtain ⟨hirq, hidle⟩ := no_boundary_of_timeout h hpolicy
  obtain ⟨⟨hptr, hcap⟩, hcounts, -⟩ := h
  exact captureOrdered_of_quiescent hptr hcap hcounts hirq hidle

end Sys2Proof.Machine
end

section
/-! SUPPORT. The consumer's part of the invariant, and each update of the poll sequencer (spec/10_state.md R37, R45 d, e). -/

namespace Sys2Proof.Machine

variable {s : State}

/-! ### Steps of the W domain -/

/-- The consumer's part reads four W registers: it is kept where the slot's two stay, a declared timeout finds the engine halted,
and a timeout drain keeps its `ce_ptr`. -/
theorem consumerOrdered_of_w {w' : WRegs} (h : consumerOrdered s) (hlen : w'.xferLen = s.w.xferLen)
    (hxw : w'.xw = s.w.xw) (hhalted : s.r.toReady = true → w'.ceArmed = false)
    (hptr : s.build.policy = .timeout → s.r.toReady = true → w'.cePtr = s.w.cePtr) :
    consumerOrdered { s with w := w' } := by
  obtain ⟨hcounts, hcap, hxfer, hocc, hready, hrun, hrest⟩ := h
  refine ⟨hcounts, hcap, ?_, ?_, fun hto => ⟨hhalted hto, (hready hto).2⟩, fun hbusy => ?_, hrest⟩
  · rw [← hlen] at hxfer
    exact hxfer
  · intro hocc'
    have hkept : s.slotOccTrue = true := by rw [← hocc', State.slotOccTrue, State.slotOccTrue, hxw]
    rw [← hlen] at hocc
    exact hocc hkept
  · obtain ⟨hsome, htimeout, hidle⟩ := hrun hbusy
    refine ⟨hsome, fun hp => ?_, fun hp => ?_⟩
    · obtain ⟨hto, hcount⟩ := htimeout hp
      exact ⟨hto, hcount.trans (hptr hp hto).symm⟩
    · obtain ⟨hrdy, hcount⟩ := hidle hp
      exact ⟨hrdy, hcount.trans hlen.symm⟩

/-- Publishing the slot, which the consumer cannot see ready yet (spec/41_boundary_handler.md R154). -/
theorem consumerOrdered_publish (h : consumerOrdered s) (hslot : slotOrdered s) (hfree : s.slotOccW = false)
    (hsome : 1 ≤ s.w.hCount.toNat) (hcap : s.w.hCount.toNat ≤ s.build.cap) (p : HStep) :
    consumerOrdered { s with w := { s.w with xferLen := s.w.hCount, xw := !s.w.xw, hStep := p } } := by
  obtain ⟨hcounts, hpcap, -, -, hready, hrun, hrest⟩ := h
  refine ⟨hcounts, hpcap, hcap, fun _ => hsome, hready, fun hbusy => ?_, hrest⟩
  obtain ⟨hpsome, htimeout, hidle⟩ := hrun hbusy
  refine ⟨hpsome, htimeout, fun hp => ?_⟩
  obtain ⟨hrdy, -⟩ := hidle hp
  obtain ⟨-, hocc⟩ := slot_occupied_of_ready hslot hrdy
  rw [hfree] at hocc
  cases hocc

/-! ### Steps of the R domain outside a poll -/

/-- `POP` is taken only while no poll runs (spec/42_ring.md R186). -/
theorem consumerOrdered_pop {p : Ptr} (h : consumerOrdered s) (hidle : s.r.pStep = .idle) :
    consumerOrdered { s with r := { s.r with rbin := p } } := by
  obtain ⟨hcounts, hcap, hxfer, hocc, hready, hrun, -, hrest⟩ := h
  refine ⟨hcounts, hcap, hxfer, hocc, hready, hrun, fun hcopy => ?_, hrest⟩
  rw [show s.r.pStep = .copy from hcopy] at hidle
  cases hidle

/-- `SYNC_R`: a slot seen ready stays so, and the consumer sees no fewer bytes than before (spec/42_ring.md R197). -/
theorem consumerOrdered_syncR (h : consumerOrdered s) (hp : pointersInRange s) (hr : ringOrdered s)
    (hslot : slotOrdered s) : consumerOrdered (syncR s) := by
  obtain ⟨hcounts, hcap, hxfer, hocc, hready, hrun, hcopy, hrest⟩ := h
  obtain ⟨-, -, hmore⟩ := ringOrdered_syncR hp hr
  obtain ⟨-, hkept⟩ := slotOrdered_syncR hslot
  refine ⟨hcounts, hcap, hxfer, hocc, hready, fun hbusy => ?_, fun hc hring => (hcopy hc hring).trans hmore, hrest⟩
  obtain ⟨hsome, htimeout, hidle⟩ := hrun hbusy
  refine ⟨hsome, htimeout, fun hpolicy => ?_⟩
  obtain ⟨hrdy, hcount⟩ := hidle hpolicy
  exact ⟨hkept hrdy, hcount⟩

/-! ### The poll -/

/-- An accepted `POLL` of `n` bytes, for each policy's source (spec/43_consumer.md R221): `armed` and `declared` are `ce_armed`
and `to_ready` after it. -/
theorem consumerOrdered_pollStart {n : Byte} {armed declared : Bool} (h : consumerOrdered s) (hidle : s.r.pStep = .idle)
    (hsome : 1 ≤ n.toNat) (hfb : n.toNat ≤ s.build.fb) (hcap : s.build.policy ≠ .ring → n.toNat ≤ s.build.cap)
    (hhalted : declared = true → armed = false ∧ s.build.policy = .timeout)
    (htimeout : s.build.policy = .timeout → declared = true ∧ n = s.w.cePtr)
    (hslot : s.build.policy = .idle → s.slotRdyR = true ∧ n = s.w.xferLen)
    (hring : s.build.policy = .ring → n.toNat ≤ s.lenR) :
    consumerOrdered { s with
      w := { s.w with ceArmed := armed }
      r := { s.r with toReady := declared, pCount := n, pIdx := 0, pStep := .copy } } := by
  obtain ⟨-, -, hxfer, hocc, -, -, -, hempty, -, -⟩ := h
  refine ⟨⟨Nat.zero_le _, hfb⟩, hcap, hxfer, hocc, fun hd => ?_, fun _ => ⟨hsome, htimeout, hslot⟩,
    fun _ hp => (Nat.sub_le _ _).trans (hring hp), fun _ => hempty (.inl hidle), by simp, by simp⟩
  obtain ⟨hoff, hpolicy⟩ := hhalted hd
  exact ⟨hoff, hpolicy, nofun⟩

/-- `P_COPY` drains one byte of the slot or of the capture buffer (spec/43_consumer.md R224). -/
theorem consumerOrdered_copy (h : consumerOrdered s) (hcopying : s.r.pStep = .copy)
    (hleft : s.r.pIdx.toNat < s.r.pCount.toNat) :
    consumerOrdered { s with r := { s.r with pIdx := s.r.pIdx + 1 } } := by
  have hsucc := toNat_succ_of_lt hleft
  obtain ⟨⟨-, hfb⟩, hcap, hxfer, hocc, hready, hrun, hcopy, hempty, hfull, -⟩ := h
  refine ⟨⟨?_, hfb⟩, hcap, hxfer, hocc, hready, hrun, fun hc hring => ?_, hempty, hfull, by simp [hcopying]⟩
  · change (s.r.pIdx + 1).toNat ≤ s.r.pCount.toNat
    omega
  · have hbound := hcopy hc hring
    change s.r.pCount.toNat - (s.r.pIdx + 1).toNat ≤ s.lenR
    omega

/-- `P_COPY` under `RING` drains one byte of the ring: one byte less is left, and one byte less is seen. -/
theorem consumerOrdered_copyRing (h : consumerOrdered s) (hp : pointersInRange s) (hcopying : s.r.pStep = .copy)
    (hleft : s.r.pIdx.toNat < s.r.pCount.toNat) (hsome : s.lenR ≠ 0) :
    consumerOrdered { s with r := { s.r with rbin := ptrNext s.build s.r.rbin, pIdx := s.r.pIdx + 1 } } := by
  have hsucc := toNat_succ_of_lt hleft
  have hfewer := lenR_remove hp hsome
  obtain ⟨hcounts, hcap, hxfer, hocc, hready, hrun, -, hrest⟩ := consumerOrdered_copy h hcopying hleft
  obtain ⟨-, -, -, -, -, -, hcopy, -⟩ := h
  refine ⟨hcounts, hcap, hxfer, hocc, hready, hrun, fun hc hring => ?_, hrest⟩
  have hbound := hcopy hc hring
  change s.r.pCount.toNat - (s.r.pIdx + 1).toNat ≤
    ({ s with r := { s.r with rbin := ptrNext s.build s.r.rbin } } : State).lenR
  omega

/-- A running poll whose bytes are all copied goes on through its last three states, with `fb_len` at `p_count` until `FRMB` is
clear (spec/43_consumer.md R224 to R227). -/
theorem consumerOrdered_advance {p : PStep} {n : Byte} (h : consumerOrdered s) (hrunning : s.r.pStep ≠ .idle)
    (hdone : s.r.pIdx = s.r.pCount)
    (hp : (p = .deliver ∨ p = .fbclr) ∧ n = s.r.pCount ∨ p = .reset ∧ n = 0) :
    consumerOrdered { s with r := { s.r with fbLen := n, pStep := p } } := by
  obtain ⟨hcounts, hcap, hxfer, hocc, hready, hrun, -⟩ := h
  have hidle : p ≠ .idle := by rintro rfl; simp at hp
  have hcopy : p ≠ .copy := by rintro rfl; simp at hp
  refine ⟨hcounts, hcap, hxfer, hocc, fun hto => ?_, fun _ => hrun hrunning, fun hc => absurd hc hcopy, ?_, ?_,
    fun _ => hdone⟩
  · obtain ⟨hoff, hpolicy, -⟩ := hready hto
    exact ⟨hoff, hpolicy, hidle⟩
  · rintro (hc | hc | hc)
    · exact absurd hc hidle
    · exact absurd hc hcopy
    · obtain ⟨hpd | hpd, -⟩ | ⟨-, hn⟩ := hp
      · cases hpd.symm.trans hc
      · cases hpd.symm.trans hc
      · exact hn
  · intro hd
    obtain ⟨-, hn⟩ | ⟨hr, -⟩ := hp
    · exact hn
    · obtain hc | hc := hd <;> cases hr.symm.trans hc

/-- The last step of a poll: idle again, with nothing declared and the slot as `xr'` says; a slot still occupied holds a frame
(spec/43_consumer.md R229). -/
theorem consumerOrdered_finish {w' : WRegs} {xr' declared : Bool} (h : consumerOrdered s) (hreset : s.r.pStep = .reset)
    (hlen : w'.xferLen = s.w.xferLen) (hslot : (w'.xw != xr') = true → s.slotOccTrue = true) (hnone : declared = false) :
    consumerOrdered { s with w := w', r := { s.r with xr := xr', toReady := declared, pStep := .idle } } := by
  subst hnone
  obtain ⟨hcounts, hcap, hxfer, hocc, -, -, -, hempty, -, -⟩ := h
  rw [← hlen] at hxfer hocc
  exact ⟨hcounts, hcap, hxfer, fun ho => hocc (hslot ho), nofun, fun hn => absurd rfl hn, nofun,
    fun _ => hempty (.inr (.inr hreset)), by simp, by simp⟩

end Sys2Proof.Machine
end

section
/-! PROOFS. Every step keeps the invariant (spec/10_state.md R43 to R46): each command, each autonomous step, each event. A part
that a step does not touch is kept as it is. -/

namespace Sys2Proof.Machine

variable {s t : State}

/-! ### Updates that no part of the invariant reads -/

theorem State.Inv.queued (h : s.Inv) (ws : List Cmd) : (queued s ws).Inv :=
  ⟨h.memories, h.pointers, h.ring, h.slot, h.capture, h.consumer⟩

theorem State.Inv.respondW (h : s.Inv) (c : RspCode) (v : Byte) : (s.respondW c v).Inv :=
  ⟨h.memories, h.pointers, h.ring, h.slot, h.capture, h.consumer⟩

theorem State.Inv.respondR (h : s.Inv) (c : RspCode) (v : Byte) : (s.respondR c v).Inv :=
  ⟨h.memories, h.pointers, h.ring, h.slot, h.capture, h.consumer⟩

theorem State.Inv.stampLine (h : s.Inv) : (stampLine s).Inv :=
  ⟨h.memories, h.pointers, h.ring, h.slot, h.capture, h.consumer⟩

/-- The error records are in no part of the invariant. -/
theorem State.Inv.raise (h : s.Inv) (e : BlockError) (k : Nat) : (raise e k s).Inv := by
  cases e <;> exact ⟨h.memories, h.pointers, h.ring, h.slot, h.capture, h.consumer⟩

theorem State.Inv.illegalWord (h : s.Inv) (p : Port) : (illegalWord p s).Inv := by
  cases p with
  | w => exact (h.raise .illegalW 0).respondW .ill 0
  | r => exact (h.raise .illegalR 0).respondR .ill 0

theorem State.Inv.drawEvent (h : s.Inv) : (drawEvent s).Inv := by
  unfold Machine.drawEvent
  split <;> exact ⟨h.memories, h.pointers, h.ring, h.slot, h.capture, h.consumer⟩

/-! ### Consequences used by several steps -/

/-- Only a `TIMEOUT` build declares a boundary (spec/10_state.md R38). -/
theorem State.Inv.toReady_false (h : s.Inv) (hpolicy : s.build.policy ≠ .timeout) : s.r.toReady = false := by
  obtain ⟨-, -, -, -, hready, -⟩ := h.consumer
  by_contra hto
  obtain ⟨-, htimeout, -⟩ := hready (Bool.eq_true_of_not_eq_false hto)
  exact hpolicy htimeout

/-- While the engine is armed no boundary is declared. -/
theorem State.Inv.toReady_false_of_armed (h : s.Inv) (harmed : s.w.ceArmed = true) : s.r.toReady = false := by
  obtain ⟨-, -, -, -, hready, -⟩ := h.consumer
  by_contra hto
  obtain ⟨hhalted, -⟩ := hready (Bool.eq_true_of_not_eq_false hto)
  rw [harmed] at hhalted
  cases hhalted

/-- A W step that finds no boundary declared keeps the consumer's part if it keeps the slot's registers. -/
theorem State.Inv.consumer_of_undeclared {w' : WRegs} (h : s.Inv) (hnone : s.r.toReady = false)
    (hlen : w'.xferLen = s.w.xferLen) (hxw : w'.xw = s.w.xw) : consumerOrdered { s with w := w' } :=
  consumerOrdered_of_w h.consumer hlen hxw (fun hto => by rw [hnone] at hto; cases hto)
    (fun _ hto => by rw [hnone] at hto; cases hto)

/-! ### Commands on the W port -/

theorem execRxbyte_keeps_inv {b : Byte} (h : s.Inv) (hx : execRxbyte b s = .next t) : t.Inv := by
  obtain ⟨⟨harmed, hroom⟩, hcap, rfl⟩ | ⟨-, rfl⟩ := execRxbyte_cases hx
  · exact {
      memories := canonical_setMem_insert s .capb s.w.cePtr.toNat b hcap h.memories
      pointers := h.pointers
      ring := h.ring
      slot := h.slot
      capture := captureOrdered_store h.capture harmed hroom _ (by simp +contextual) s.w.now
      consumer := h.consumer_of_undeclared (h.toReady_false_of_armed harmed) rfl rfl }
  · exact (h.stampLine.raise .lineOverrun 1).respondW .nak 0

theorem execRxidle_keeps_inv (h : s.Inv) (hx : execRxidle s = .next t) : t.Inv := by
  obtain ⟨⟨hpolicy, harmed, hsome⟩, rfl⟩ | ⟨-, rfl⟩ := execRxidle_cases hx
  · exact ⟨h.memories, h.pointers, h.ring, h.slot, captureOrdered_raise_irq h.capture hpolicy harmed hsome,
      h.consumer⟩
  · exact h.respondW .nak 0

theorem boundaryEntry_keeps_inv (h : s.Inv) (hpending : s.w.irqPending = true) (hpolicy : s.build.policy ≠ .timeout) :
    (boundaryEntry s).Inv := by
  have hcapture := captureOrdered_boundaryEntry h.capture hpending
  have hconsumer {w' : WRegs} := h.consumer_of_undeclared (w' := w') (h.toReady_false hpolicy)
  obtain ⟨-, -, hentry⟩ | ⟨-, hentry⟩ := boundaryEntry_cases s <;> rw [hentry] at hcapture ⊢ <;>
    exact ⟨h.memories, h.pointers, h.ring, h.slot, hcapture, hconsumer rfl rfl⟩

theorem execIrq_keeps_inv {i : Nat} (h : s.Inv) (hx : execIrq i s = .next t) : t.Inv := by
  obtain ⟨-, rfl⟩ | ⟨-, -, rfl⟩ | ⟨-, hpolicy, hpending, -, rfl⟩ := execIrq_cases hx
  · exact (h.raise .spurious 1).respondW .nak 0
  · exact h.respondW .nak 0
  · exact (boundaryEntry_keeps_inv h hpending hpolicy).respondW .ok s.w.cePtr

theorem execArm_keeps_inv {n : Nat} (h : s.Inv) (hx : execArm n s = .next t) : t.Inv := by
  obtain ⟨⟨⟨-, hn⟩, -, hidle, hnone⟩, rfl⟩ | ⟨-, rfl⟩ := execArm_cases hx
  · obtain ⟨-, hcounts, -⟩ := h.capture
    have hcap : (BitVec.ofNat 8 n).toNat ≤ s.build.cap := (Nat.mod_le n _).trans hn
    exact ⟨h.memories, h.pointers, h.ring, h.slot,
      captureOrdered_of_quiescent (Nat.zero_le _) hcap hcounts rfl hidle, h.consumer_of_undeclared hnone rfl rfl⟩
  · exact h.respondW .nak 0

theorem execStop_keeps_inv (h : s.Inv) (hx : execStop s = .next t) : t.Inv := by
  obtain ⟨⟨harmed, hidle⟩, rfl⟩ | ⟨-, rfl⟩ := execStop_cases hx
  · obtain ⟨⟨hptr, hcap⟩, hcounts, -⟩ := h.capture
    exact ⟨h.memories, h.pointers, h.ring, h.slot, captureOrdered_of_quiescent hptr hcap hcounts rfl hidle,
      h.consumer_of_undeclared (h.toReady_false_of_armed harmed) rfl rfl⟩
  · exact h.respondW .nak 0

theorem execPush_keeps_inv {b : Byte} (h : s.Inv) (hx : execPush b s = .next t) : t.Inv := by
  obtain ⟨-, rfl⟩ | ⟨-, -, rfl⟩ | ⟨-, hroom, rfl⟩ := execPush_cases hx
  · exact h.respondW .nak 0
  · exact (h.raise .ringOverrun 1).respondW .nak 0
  · obtain ⟨hpointers, hring⟩ :=
      ringOrdered_append h.pointers h.ring (lt_of_le_of_ne (lenW_le h.pointers h.ring) hroom)
    exact ⟨canonical_setMem_insert s .ring s.tail b (tail_lt s) h.memories, hpointers, hring, h.slot, h.capture,
      h.consumer⟩

/-! ### Commands on the R port -/

theorem execPoll_keeps_inv (h : s.Inv) (hx : execPoll s = .next t) : t.Inv := by
  obtain ⟨⟨hptr, hlen⟩, -⟩ := h.capture
  obtain ⟨-, -, hxfer, hocc, -⟩ := h.consumer
  have hfb : s.build.cap ≤ s.build.fb := le_max_left _ _
  obtain ⟨-, rfl⟩ | ⟨hidle, ⟨hpolicy, hsilent, rfl⟩ | ⟨hpolicy, hrdy, rfl⟩ | ⟨hpolicy, hsome, rfl⟩ | ⟨-, -, -, rfl⟩⟩ :=
    execPoll_cases hx
  · exact h
  · have hsome : 0 < s.w.cePtr.toNat := by
      simp only [State.timedOut, Bool.and_eq_true, decide_eq_true_eq] at hsilent
      exact hsilent.1.2
    have hcap : s.w.cePtr.toNat ≤ s.build.cap := hptr.trans hlen
    exact ⟨h.memories, h.pointers, h.ring, h.slot, captureOrdered_halt h.capture hpolicy,
      consumerOrdered_pollStart (s := s) h.consumer hidle hsome (hcap.trans hfb) (fun _ => hcap) (fun _ => ⟨rfl, hpolicy⟩)
        (fun _ => ⟨rfl, rfl⟩) (by simp [hpolicy]) (by simp [hpolicy])⟩
  · have hsome : 1 ≤ s.w.xferLen.toNat := hocc (slot_occupied_of_ready h.slot hrdy).1
    exact ⟨h.memories, h.pointers, h.ring, h.slot, h.capture,
      consumerOrdered_pollStart (s := s) h.consumer hidle hsome (hxfer.trans hfb) (fun _ => hxfer)
        (by simp [h.toReady_false, hpolicy]) (by simp [hpolicy]) (fun _ => ⟨hrdy, rfl⟩) (by simp [hpolicy])⟩
  · have hseen : s.lenR ≤ s.build.c := by
      obtain ⟨htrue, hw⟩ := views_of_ringOrdered h.pointers h.ring
      have := lenW_le h.pointers h.ring
      omega
    have hcount : (BitVec.ofNat 8 s.lenR).toNat = s.lenR := by
      obtain ⟨-, hc⟩ := Build.c_bounds s.build
      exact Nat.mod_eq_of_lt (show s.lenR < 256 by omega)
    exact ⟨h.memories, h.pointers, h.ring, h.slot, h.capture,
      consumerOrdered_pollStart (s := s) h.consumer hidle (by omega) (hcount.le.trans (hseen.trans (le_max_right _ _)))
        (fun hp => absurd hpolicy hp) (by simp [h.toReady_false, hpolicy]) (by simp [hpolicy]) (by simp [hpolicy])
        (fun _ => hcount.le)⟩
  · exact h.respondR .nak 0

theorem execPop_keeps_inv (h : s.Inv) (hx : execPop s = .next t) : t.Inv := by
  obtain ⟨-, rfl⟩ | ⟨-, -, rfl⟩ | ⟨hidle, hsome, rfl⟩ := execPop_cases hx
  · exact h
  · exact h.respondR .nak 0
  · obtain ⟨hpointers, hring⟩ := ringOrdered_remove h.pointers h.ring hsome
    exact ⟨h.memories, hpointers, hring, h.slot, h.capture, consumerOrdered_pop h.consumer hidle⟩

/-- Every command keeps the invariant. -/
theorem exec_keeps_inv {i : Instr} (h : s.Inv) (hx : exec i s = .next t) : t.Inv := by
  cases i with
  | nop p =>
    obtain ⟨-, rfl⟩ | ⟨-, -, rfl⟩ | ⟨-, -, rfl⟩ := execNop_cases hx
    · exact h.respondW .ok 0
    · exact h.respondR .ok 0
    · exact h
  | rxbyte b => exact execRxbyte_keeps_inv h hx
  | rxidle => exact execRxidle_keeps_inv h hx
  | tick => cases hx; exact ⟨h.memories, h.pointers, h.ring, h.slot, h.capture, h.consumer⟩
  | irq i => exact execIrq_keeps_inv h hx
  | arm n => exact execArm_keeps_inv h hx
  | stop => exact execStop_keeps_inv h hx
  | push b => exact execPush_keeps_inv h hx
  | poll => exact execPoll_keeps_inv h hx
  | pop => exact execPop_keeps_inv h hx
  | len =>
    obtain ⟨-, rfl⟩ | ⟨-, rfl⟩ := execLen_cases hx
    · exact h
    · exact h.respondR .ok _

/-! ### The handler -/

theorem handlerCopyRing_keeps_inv (h : s.Inv) (hcopy : s.w.hStep = .copy) (hx : handlerCopyRing s = .next t) :
    t.Inv := by
  obtain ⟨hleft, hroom, -, rfl⟩ | ⟨-, -, rfl⟩ | ⟨-, rfl⟩ := handlerCopyRing_cases hx
  · obtain ⟨hpointers, hring⟩ := ringOrdered_append h.pointers h.ring hroom
    exact ⟨canonical_setMem_insert s .ring s.tail _ (tail_lt s) h.memories, hpointers, hring, h.slot,
      captureOrdered_hIdx h.capture (by rw [toNat_succ_of_lt hleft]; exact hleft), h.consumer⟩
  · exact ⟨h.memories, h.pointers, h.ring, h.slot, captureOrdered_hIdx h.capture (le_refl _), h.consumer⟩
  · exact ⟨h.memories, h.pointers, h.ring, h.slot, captureOrdered_hStep h.capture (by simp [hcopy]) nofun, h.consumer⟩

theorem handlerCopyIdle_keeps_inv (h : s.Inv) (hcopy : s.w.hStep = .copy) (hpolicy : s.build.policy = .idle)
    (hx : handlerCopyIdle s = .next t) : t.Inv := by
  obtain ⟨hleft, hcap, rfl⟩ | ⟨-, rfl⟩ := handlerCopyIdle_cases hx
  · exact ⟨canonical_setMem_insert s .xfer s.w.hIdx.toNat _ hcap h.memories, h.pointers, h.ring, h.slot,
      captureOrdered_hIdx h.capture (by rw [toNat_succ_of_lt hleft]; exact hleft), h.consumer⟩
  · have hrunning : s.w.hStep ≠ .idle := by simp [hcopy]
    obtain ⟨-, ⟨-, hcount⟩, -, hrun, hfree⟩ := h.capture
    obtain ⟨-, -, -, -, hsome⟩ := hrun hrunning
    exact ⟨h.memories, h.pointers, h.ring, slotOrdered_publish h.slot (hfree hcopy hpolicy),
      captureOrdered_hStep h.capture hrunning nofun,
      consumerOrdered_publish h.consumer h.slot (hfree hcopy hpolicy) hsome hcount .clear⟩

theorem boundaryReturn_keeps_inv (h : s.Inv) (hrunning : s.w.hStep ≠ .idle) : (boundaryReturn s).Inv := by
  obtain ⟨-, -, -, hrun, -⟩ := h.capture
  obtain ⟨-, -, hpolicy, -⟩ := hrun hrunning
  exact ⟨h.memories, h.pointers, h.ring, h.slot, captureOrdered_boundaryReturn h.capture hrunning,
    h.consumer_of_undeclared (h.toReady_false hpolicy) rfl rfl⟩

theorem hstep_keeps_inv (h : s.Inv) (hx : hstep s = .next t) : t.Inv := by
  obtain ⟨-, rfl⟩ | ⟨-, -, rfl⟩ | ⟨hcopy, -, hring⟩ | ⟨hcopy, hpolicy, hidle⟩ | ⟨hclear, rfl⟩ | ⟨hrearm, rfl⟩ :=
    hstep_cases hx
  · exact h
  · exact h
  · exact handlerCopyRing_keeps_inv h hcopy hring
  · exact handlerCopyIdle_keeps_inv h hcopy hpolicy hidle
  · exact ⟨canonical_memFill s .capb 0 h.memories, h.pointers, h.ring, h.slot,
      captureOrdered_hStep h.capture (by simp [hclear]) nofun, h.consumer⟩
  · exact boundaryReturn_keeps_inv h (by simp [hrearm])

/-! ### The poll -/

theorem pollCopy_keeps_inv (h : s.Inv) (hcopy : s.r.pStep = .copy) (hx : pollCopy s = .next t) : t.Inv := by
  obtain ⟨⟨hidx, -⟩, -, -, -, -, -, hseen, -⟩ := h.consumer
  obtain ⟨hleft, hpolicy, hfb, rfl⟩ | ⟨hleft, -, hfb, sp, -, rfl⟩ | ⟨hdone, rfl⟩ := pollCopy_cases hx
  · have hsome : s.lenR ≠ 0 := by have := hseen hcopy hpolicy; omega
    obtain ⟨hpointers, hring⟩ := ringOrdered_remove h.pointers h.ring hsome
    exact ⟨canonical_setMem_insert s .frmb s.r.pIdx.toNat _ hfb h.memories, hpointers, hring, h.slot, h.capture,
      consumerOrdered_copyRing h.consumer h.pointers hcopy hleft hsome⟩
  · exact ⟨canonical_setMem_insert s .frmb s.r.pIdx.toNat _ hfb h.memories, h.pointers, h.ring, h.slot, h.capture,
      consumerOrdered_copy h.consumer hcopy hleft⟩
  · exact ⟨h.memories, h.pointers, h.ring, h.slot, h.capture,
      consumerOrdered_advance h.consumer (by simp [hcopy]) (BitVec.eq_of_toNat_eq (le_antisymm hidx hdone))
        (.inl ⟨.inl rfl, rfl⟩)⟩

/-- The last step of a poll, by policy: the engine armed again, the slot released, or nothing more (spec/43_consumer.md R229). -/
theorem pollReset_keeps_inv (h : s.Inv) (hreset : s.r.pStep = .reset) :
    ({ pollRelease s with r := { (pollRelease s).r with pStep := .idle } } : State).Inv := by
  unfold pollRelease
  split
  case h_1 hpolicy =>
    obtain ⟨⟨-, hcap⟩, hcounts, -⟩ := h.capture
    obtain ⟨hirq, hidle⟩ := no_boundary_of_timeout h.capture hpolicy
    exact ⟨canonical_memFill s .capb 0 h.memories, h.pointers, h.ring, h.slot,
      captureOrdered_of_quiescent (s := s) (Nat.zero_le _) hcap hcounts hirq hidle,
      consumerOrdered_finish (s := s) h.consumer hreset rfl id rfl⟩
  case h_2 hpolicy =>
    obtain ⟨-, -, -, -, -, hrun, -⟩ := h.consumer
    obtain ⟨-, -, hslot⟩ := hrun (by simp [hreset])
    obtain ⟨hrdy, -⟩ := hslot hpolicy
    obtain ⟨hocc, -⟩ := slot_occupied_of_ready h.slot hrdy
    exact ⟨h.memories, h.pointers, h.ring, slotOrdered_release h.slot hrdy, h.capture,
      consumerOrdered_finish (s := s) h.consumer hreset rfl (fun _ => hocc) (h.toReady_false (by simp [hpolicy]))⟩
  case h_3 hpolicy =>
    exact ⟨h.memories, h.pointers, h.ring, h.slot, h.capture,
      consumerOrdered_finish (s := s) h.consumer hreset rfl id (h.toReady_false (by simp [hpolicy]))⟩

theorem pstep_keeps_inv (h : s.Inv) (hx : pstep s = .next t) : t.Inv := by
  obtain ⟨-, -, -, -, -, -, -, -, -, hdone⟩ := h.consumer
  obtain ⟨-, rfl⟩ | ⟨hcopy, hx⟩ | ⟨hdeliver, hx⟩ | ⟨hclear, rfl⟩ | ⟨hreset, rfl⟩ := pstep_cases hx
  · exact h
  · exact pollCopy_keeps_inv h hcopy hx
  · obtain ⟨-, rfl⟩ := pollDeliver_cases hx
    obtain ⟨-, -, -, -, -, -, -, -, hframe, -⟩ := h.consumer
    exact ⟨h.memories, h.pointers, h.ring, h.slot, h.capture,
      consumerOrdered_advance h.consumer (by simp [hdeliver]) (hdone (.inl hdeliver))
        (.inl ⟨.inr rfl, hframe (.inl hdeliver)⟩)⟩
  · exact ⟨canonical_memFill s .frmb 0 h.memories, h.pointers, h.ring, h.slot, h.capture,
      consumerOrdered_advance h.consumer (by simp [hclear]) (hdone (.inr (.inl hclear))) (.inr ⟨rfl, rfl⟩)⟩
  · exact (pollReset_keeps_inv h hreset).respondR .ok s.r.pCount

/-! ### The synchronisers and reset -/

theorem syncW_keeps_inv (h : s.Inv) : (syncW s).Inv := by
  obtain ⟨hpointers, hring⟩ := ringOrdered_syncW h.pointers h.ring
  exact ⟨h.memories, hpointers, hring, (slotOrdered_syncW h.slot).1, captureOrdered_syncW h.capture h.slot, h.consumer⟩

theorem syncR_keeps_inv (h : s.Inv) : (syncR s).Inv := by
  obtain ⟨hpointers, hring, -⟩ := ringOrdered_syncR h.pointers h.ring
  exact ⟨h.memories, hpointers, hring, (slotOrdered_syncR h.slot).1, h.capture,
    consumerOrdered_syncR h.consumer h.pointers h.ring h.slot⟩

theorem resetStep_inv (s : State) : (resetStep s).Inv := by
  have h := resetOf_inv s.build
  exact ⟨h.memories, h.pointers, h.ring, h.slot, h.capture, h.consumer⟩

/-! ### Every event -/

theorem perform_keeps_inv {e : Event} (h : s.Inv) (hx : perform e s = .next t) : t.Inv := by
  cases perform_cases hx with
  | command i ws _ hexec => exact exec_keeps_inv (h.queued ws) hexec
  | illegal p c ws _ _ heq => rw [heq]; exact (h.queued ws).illegalWord p
  | untaken ws _ heq => rw [heq]; exact h.queued ws
  | hstep _ hrun => exact hstep_keeps_inv (h.queued s.rWait) hrun
  | pstep _ hrun => exact pstep_keeps_inv (h.queued s.rWait) hrun
  | syncW _ heq => rw [heq]; exact syncW_keeps_inv (h.queued s.rWait)
  | syncR _ heq => rw [heq]; exact syncR_keeps_inv (h.queued s.rWait)
  | reset _ heq => rw [heq]; exact resetStep_inv s

/-- Settles O32: by event, and for the machine's step, which performs the event it draws. -/
theorem everyStepKeepsInv : Obligations.EveryStepKeepsInv :=
  ⟨fun _ _ _ h hx => perform_keeps_inv h hx, fun _ _ h hx => perform_keeps_inv h.drawEvent hx⟩

/-- The invariant holds of every reachable state: at reset and after every step. -/
theorem Reachable.inv (h : Reachable s) : s.Inv := by
  induction h with
  | reset b => exact resetOf_inv b
  | step e s t _ hx ih => exact perform_keeps_inv ih hx

end Sys2Proof.Machine
end

section
/-! PROOFS. What follows from the invariant: the views bracket the length, the slot's handover, the handler's count
(spec/10_state.md R43, R44, R45). -/

namespace Sys2Proof.Machine

variable {s t : State}

/-! ### The views -/

/-- Each view leaves gaps of the circle out or takes more of them in (spec/10_state.md R43). -/
theorem State.Inv.views (h : s.Inv) : s.lenR ≤ s.lenTrue ∧ s.lenTrue ≤ s.lenW ∧ s.lenW ≤ s.build.c := by
  obtain ⟨htrue, hw⟩ := views_of_ringOrdered h.pointers h.ring
  exact ⟨by omega, by omega, lenW_le h.pointers h.ring⟩

theorem ringContents_length (s : State) : s.ringContents.length = s.lenTrue := by
  simp [State.ringContents]

/-- Settles O34: from the invariant, which every reachable state has. -/
theorem reachableViewsBracketTheLength : Obligations.ReachableViewsBracketTheLength := by
  refine ⟨fun s h => h.views, fun s hreach => ?_⟩
  obtain ⟨hr, htrue, hw⟩ := hreach.inv.views
  exact ⟨hr, htrue, hw, ringContents_length s⟩

/-! ### The slot -/

/-- The slot's length is the same, `XFER` holds the same written bytes, and the unwritten ones are those of the same reset. -/
def sameSlot (s t : State) : Prop := t.w.xferLen = s.w.xferLen ∧ t.xfer = s.xfer ∧ t.epoch = s.epoch

theorem sameSlot_refl (s : State) : sameSlot s s := ⟨rfl, rfl, rfl⟩

/-- No command writes the slot (spec/20_memory.md R65, spec/10_state.md R48). -/
theorem exec_sameSlot {i : Instr} (h : exec i s = .next t) : sameSlot s t := by
  have same := sameSlot_refl s
  cases i with
  | nop p => obtain ⟨-, rfl⟩ | ⟨-, -, rfl⟩ | ⟨-, -, rfl⟩ := execNop_cases h <;> exact same
  | rxbyte b => obtain ⟨-, -, rfl⟩ | ⟨-, rfl⟩ := execRxbyte_cases h <;> exact same
  | rxidle => obtain ⟨-, rfl⟩ | ⟨-, rfl⟩ := execRxidle_cases h <;> exact same
  | tick => cases h; exact same
  | irq i =>
    obtain ⟨-, rfl⟩ | ⟨-, -, rfl⟩ | ⟨-, -, -, -, rfl⟩ := execIrq_cases h
    · exact same
    · exact same
    · obtain ⟨-, -, hentry⟩ | ⟨-, hentry⟩ := boundaryEntry_cases s <;> rw [hentry] <;> exact same
  | arm n => obtain ⟨-, rfl⟩ | ⟨-, rfl⟩ := execArm_cases h <;> exact same
  | stop => obtain ⟨-, rfl⟩ | ⟨-, rfl⟩ := execStop_cases h <;> exact same
  | push b => obtain ⟨-, rfl⟩ | ⟨-, -, rfl⟩ | ⟨-, -, rfl⟩ := execPush_cases h <;> exact same
  | poll =>
    obtain ⟨-, rfl⟩ | ⟨-, ⟨-, -, rfl⟩ | ⟨-, -, rfl⟩ | ⟨-, -, rfl⟩ | ⟨-, -, -, rfl⟩⟩ := execPoll_cases h <;> exact same
  | pop => obtain ⟨-, rfl⟩ | ⟨-, -, rfl⟩ | ⟨-, -, rfl⟩ := execPop_cases h <;> exact same
  | len => obtain ⟨-, rfl⟩ | ⟨-, rfl⟩ := execLen_cases h <;> exact same

/-- The handler writes the slot, its bytes or its length, only in `H_COPY` under `IDLE` (spec/41_boundary_handler.md R154). -/
theorem hstep_slot_cases (h : hstep s = .next t) :
    sameSlot s t ∨ (s.w.hStep = .copy ∧ s.build.policy = .idle) := by
  have same := sameSlot_refl s
  obtain ⟨-, rfl⟩ | ⟨-, -, rfl⟩ | ⟨-, -, hring⟩ | ⟨hcopy, hpolicy, -⟩ | ⟨-, rfl⟩ | ⟨-, rfl⟩ := hstep_cases h
  · exact .inl same
  · exact .inl same
  · obtain ⟨-, -, -, rfl⟩ | ⟨-, -, rfl⟩ | ⟨-, rfl⟩ := handlerCopyRing_cases hring <;> exact .inl same
  · exact .inr ⟨hcopy, hpolicy⟩
  · exact .inl same
  · exact .inl same

/-- The poll only reads the slot. -/
theorem pstep_sameSlot (h : pstep s = .next t) : sameSlot s t := by
  have same := sameSlot_refl s
  obtain ⟨-, rfl⟩ | ⟨-, hcopy⟩ | ⟨-, hdeliver⟩ | ⟨-, rfl⟩ | ⟨-, rfl⟩ := pstep_cases h
  · exact same
  · obtain ⟨-, -, -, rfl⟩ | ⟨-, -, -, sp, -, rfl⟩ | ⟨-, rfl⟩ := pollCopy_cases hcopy <;> exact same
  · obtain ⟨-, rfl⟩ := pollDeliver_cases hdeliver; exact same
  · exact same
  · unfold pollRelease; split <;> exact same

/-- Where no handler copies into the slot, no event but reset writes its bytes or its length. -/
theorem perform_sameSlot {e : Event} (hreset : e ≠ .reset) (hno : ¬ (s.w.hStep = .copy ∧ s.build.policy = .idle))
    (h : perform e s = .next t) : sameSlot s t := by
  have same := sameSlot_refl s
  cases perform_cases h with
  | command i ws _ hexec => exact exec_sameSlot (s := queued s ws) hexec
  | illegal p c ws _ _ heq => subst heq; cases p <;> exact same
  | untaken ws _ heq => subst heq; exact same
  | hstep _ hrun =>
    obtain hsame | hcopying := hstep_slot_cases (s := quiet s) hrun
    · exact hsame
    · exact absurd hcopying hno
  | pstep _ hrun => exact pstep_sameSlot (s := quiet s) hrun
  | syncW _ heq => subst heq; exact same
  | syncR _ heq => subst heq; exact same
  | reset hevent _ => exact absurd hevent hreset

/-- A slot the consumer sees ready is occupied, and a copying handler has found it free: it is not both. -/
theorem State.Inv.not_copying_of_ready (h : s.Inv) (hrdy : s.slotRdyR = true) :
    ¬ (s.w.hStep = .copy ∧ s.build.policy = .idle) := by
  rintro ⟨hcopy, hpolicy⟩
  obtain ⟨-, -, -, -, hfree⟩ := h.capture
  obtain ⟨-, hocc⟩ := slot_occupied_of_ready h.slot hrdy
  rw [hfree hcopy hpolicy] at hocc
  cases hocc

/-- Settles O35: while the consumer sees the slot ready no handler copies, and no other step writes the slot. -/
theorem slotHandoverIsSafe : Obligations.SlotHandoverIsSafe := by
  intro s h
  refine ⟨fun hrdy => (slot_occupied_of_ready h.slot hrdy).1, fun hfree => ?_, fun e t hreset hrdy hx _ => ?_⟩
  · obtain ⟨-, -, hxr, -⟩ := slot_of_free h.slot hfree
    simp [State.slotOccTrue, hxr]
  · obtain ⟨hlen, hxfer, hepoch⟩ := perform_sameSlot hreset (h.not_copying_of_ready hrdy) hx
    exact ⟨hlen, fun i _ => byteAt_congr (sp := .xfer) hxfer hepoch i⟩

/-! ### The handler's count -/

/-- A step of the name of `ARM` executes an `ARM`. -/
theorem takenCommand_of_name_arm {e : Event} (h : stepName e s = some "ARM") : ∃ n, takenCommand e s = some (.arm n) := by
  cases htaken : takenCommand e s with
  | some i => cases i <;> simp [stepName, htaken, Instr.mnemonic] at h ⊢
  | none => cases e <;> simp [stepName, htaken] at h

/-- A step of the name of `IRQ` executes an `IRQ`. -/
theorem takenCommand_of_name_irq {e : Event} (h : stepName e s = some "IRQ") : ∃ i, takenCommand e s = some (.irq i) := by
  cases htaken : takenCommand e s with
  | some i => cases i <;> simp [stepName, htaken, Instr.mnemonic] at h ⊢
  | none => cases e <;> simp [stepName, htaken] at h

/-- A step that takes a command executes it. -/
theorem exec_of_takenCommand {e : Event} {i : Instr} (htaken : takenCommand e s = some i) (h : perform e s = .next t) :
    ∃ ws, exec i (queued s ws) = .next t := by
  cases perform_cases h with
  | command j ws hj hexec => cases hj.symm.trans htaken; exact ⟨ws, hexec⟩
  | illegal p c ws _ hnone _ => rw [hnone] at htaken; cases htaken
  | untaken ws hnone _ => simp [takenCommand, hnone] at htaken
  | hstep he _ => subst he; cases htaken
  | pstep he _ => subst he; cases htaken
  | syncW he _ => subst he; cases htaken
  | syncR he _ => subst he; cases htaken
  | reset he _ => subst he; cases htaken

/-- The accepted `IRQ` takes `h_count` from `ce_ptr`; otherwise the count stays (spec/41_boundary_handler.md R151). -/
theorem execIrq_hCount {i : Nat} (h : execIrq i s = .next t) :
    t.w.hCount = s.w.hCount ∨ t.w.hCount = s.w.cePtr := by
  obtain ⟨-, rfl⟩ | ⟨-, -, rfl⟩ | ⟨-, -, -, -, rfl⟩ := execIrq_cases h
  · exact .inl rfl
  · exact .inl rfl
  · obtain ⟨-, -, hentry⟩ | ⟨-, hentry⟩ := boundaryEntry_cases s <;> rw [hentry] <;> exact .inr rfl

/-- An `ARM` that writes `ce_len` was accepted with no handler running, and keeps `h_count` (spec/40_line_capture.md R129). -/
theorem execArm_ceLen {n : Nat} (h : execArm n s = .next t) (hlen : t.w.ceLen ≠ s.w.ceLen) :
    s.w.hStep = .idle ∧ t.w.hCount = s.w.hCount ∧ t.w.ceLen.toNat = n := by
  obtain ⟨⟨⟨-, hn⟩, -, hidle, -⟩, rfl⟩ | ⟨-, rfl⟩ := execArm_cases h
  · have hcap := s.build.cap_le
    exact ⟨hidle, rfl, Nat.mod_eq_of_lt (show n < 256 by omega)⟩
  · exact absurd rfl hlen

/-- A step of a fitting count: only `ARM` moves the bound and only `IRQ` the count. -/
theorem hCount_fits_or_arm {e : Event} (h : s.Inv) (hreset : e ≠ .reset) (hx : perform e s = .next t)
    (hfits : s.w.hCount.toNat ≤ s.w.ceLen.toNat) :
    t.w.hCount.toNat ≤ t.w.ceLen.toNat ∨
      ∃ n, takenCommand e s = some (.arm n) ∧ s.w.hStep = .idle ∧ t.w.hCount = s.w.hCount ∧ t.w.ceLen.toNat = n ∧
        n < s.w.hCount.toNat := by
  obtain ⟨-, -, -, -, hceLen, -, -, hhCount, -⟩ := wRegistersHaveTheirWriters e s t hreset hx
  by_cases hlen : t.w.ceLen = s.w.ceLen
  · left
    rw [hlen]
    by_cases hcount : t.w.hCount = s.w.hCount
    · rwa [hcount]
    · obtain ⟨i, htaken⟩ := takenCommand_of_name_irq (hhCount hcount)
      obtain ⟨ws, hexec⟩ := exec_of_takenCommand htaken hx
      obtain hkept | hnew := execIrq_hCount (s := queued s ws) hexec
      · exact absurd hkept hcount
      · obtain ⟨⟨hptr, -⟩, -⟩ := h.capture
        rw [hnew]
        exact hptr
  · obtain ⟨n, htaken⟩ := takenCommand_of_name_arm (hceLen hlen)
    obtain ⟨ws, hexec⟩ := exec_of_takenCommand htaken hx
    obtain ⟨hidle, hkept, hn⟩ := execArm_ceLen (s := queued s ws) hexec hlen
    change t.w.hCount = s.w.hCount at hkept
    by_cases hsmall : n < s.w.hCount.toNat
    · exact .inr ⟨n, htaken, hidle, hkept, hn, hsmall⟩
    · left
      rw [hkept, hn]
      exact not_lt.mp hsmall

/-- Settles O60: the bounds are the invariant's, and a running handler's count is `ce_ptr`. -/
theorem handlerCountFitsTheArming : Obligations.HandlerCountFitsTheArming := by
  intro s h
  obtain ⟨⟨hptr, -⟩, ⟨hidx, -⟩, -, hrun, -⟩ := h.capture
  obtain ⟨⟨hpIdx, hpCount⟩, -⟩ := h.consumer
  refine ⟨⟨hidx, hpIdx, hpCount⟩, fun hrunning => ?_, fun e t hx hfits => ?_⟩
  · obtain ⟨-, -, -, hcount, -⟩ := hrun hrunning
    rw [hcount]
    exact hptr
  · by_cases hreset : e = .reset
    · subst hreset
      cases hx
      exact .inl (le_refl _)
    · exact hCount_fits_or_arm h hreset hx hfits

end Sys2Proof.Machine
end

section
/-! SUPPORT. Written places (spec/20_memory.md R66): what a write and a fill add to them, and where the ring's unread bytes lie
when an end moves (spec/10_state.md R41). -/

namespace Sys2Proof.Machine

/-! ### Memories -/

/-- A write adds its own place and takes none away. -/
theorem Memory.isSome_lookup_insert (i j : Nat) (v : Byte) (m : Memory) :
    (Memory.lookup j (Memory.insert i v m)).isSome = true ↔ j = i ∨ (Memory.lookup j m).isSome = true := by
  by_cases hj : j = i
  · subst hj
    simp [Memory.lookup_insert_self]
  · simp [Memory.lookup_insert_of_ne i j v hj, hj]

theorem Memory.isSome_lookup_filled {n i : Nat} (v : Byte) (hi : i < n) :
    (Memory.lookup i (Memory.filled n v)).isSome = true := by
  rw [Memory.lookup_filled n v i hi]
  rfl

/-- A memory written below `n` is written below `n + 1` once place `n` is. -/
theorem Memory.written_below_succ {m : Memory} {n : Nat} (v : Byte)
    (h : ∀ i, i < n → (Memory.lookup i m).isSome = true) :
    ∀ i, i < n + 1 → (Memory.lookup i (Memory.insert n v m)).isSome = true := by
  intro i hi
  rw [Memory.isSome_lookup_insert]
  by_cases hn : i = n
  · exact .inl hn
  · exact .inr (h i (by omega))

/-! ### The ring's places -/

/-- A pointer's index does not depend on the lap (spec/44_arithmetic_and_sequencing.md R241). -/
theorem mod_modulus_mod_c (b : Build) (n : Nat) : n % b.modulus % b.c = n % b.c :=
  Nat.mod_mod_of_dvd n ⟨2, by rw [Build.modulus_eq, Nat.mul_comm]⟩

/-- The place after the last unread byte is the one the write pointer names. -/
theorem ring_end_index (b : Build) {x y : Ptr} (hx : x.toNat < b.modulus) (hy : y.toNat < b.modulus) :
    (y.toNat + ptrDiff b x y) % b.c = ptrIndex b x := by
  rw [ptrDiff_of_lt b x y hx hy]
  split
  · rw [Nat.add_sub_cancel' ‹_›]; rfl
  · rw [Nat.add_sub_cancel' (by omega), ← mod_modulus_mod_c, Nat.add_mod_right, mod_modulus_mod_c]; rfl

/-- The `k`-th place after the next head is the one after the `k`-th from the present head. -/
theorem ring_next_index (b : Build) (y : Ptr) (k : Nat) :
    ((ptrNext b y).toNat + k) % b.c = (y.toNat + (k + 1)) % b.c := by
  rw [ptrNext_toNat, Nat.add_mod, mod_modulus_mod_c, ← Nat.add_mod, Nat.add_assoc, Nat.add_comm 1 k]

/-- The unread places of a ring, from the read pointer up to the write pointer, are written: the ring's part of `State.Written`. -/
def ringWritten (b : Build) (wbin rbin : Ptr) (m : Memory) : Prop :=
  ∀ k, k < ptrDiff b wbin rbin → (Memory.lookup ((rbin.toNat + k) % b.c) m).isSome = true

/-- A byte appended at the tail is written, and the others stay so (spec/42_ring.md R181). -/
theorem ringWritten_append {b : Build} {x y : Ptr} {m : Memory} (v : Byte) (hx : x.toNat < b.modulus)
    (hy : y.toNat < b.modulus) (h : ringWritten b x y m) :
    ringWritten b (ptrNext b x) y (Memory.insert (ptrIndex b x) v m) := by
  intro k hk
  rw [Memory.isSome_lookup_insert]
  by_cases hold : k < ptrDiff b x y
  · exact .inr (h k hold)
  · have hlast : k = ptrDiff b x y := by
      have := ptrDiff_ptrNext_left_le b hx hy
      omega
    rw [hlast]
    exact .inl (ring_end_index b hx hy)

/-- Removing the head leaves places that were unread before (spec/42_ring.md R186). -/
theorem ringWritten_remove {b : Build} {x y : Ptr} {m : Memory} (hx : x.toNat < b.modulus) (hy : y.toNat < b.modulus)
    (hsome : ptrDiff b x y ≠ 0) (h : ringWritten b x y m) : ringWritten b x (ptrNext b y) m := by
  intro k hk
  have hfewer := ptrDiff_ptrNext_right b hx hy hsome
  rw [ring_next_index]
  exact h (k + 1) (by omega)

end Sys2Proof.Machine
end

section
/-! PROOFS. Every byte a rule can still read has been written since reset, and every step keeps this (spec/20_memory.md R66): each
command, each autonomous step, each event. A part that a step does not touch is kept as it is. -/

namespace Sys2Proof.Machine

variable {s t : State}

/-! ### Updates that no part reads -/

/-- The error records are in no part. -/
theorem raise_keeps_written (h : s.Written) (e : BlockError) (k : Nat) : (raise e k s).Written := by
  cases e <;> exact h

/-! ### Commands -/

theorem execRxbyte_keeps_written {b : Byte} (h : s.Written) (hx : execRxbyte b s = .next t) : t.Written := by
  obtain ⟨⟨-, hroom⟩, -, rfl⟩ | ⟨-, rfl⟩ := execRxbyte_cases hx
  · obtain ⟨hcapb, hrest⟩ := h
    refine ⟨?_, hrest⟩
    change ∀ i, i < (s.w.cePtr + 1).toNat → _
    rw [toNat_succ_of_lt hroom]
    exact Memory.written_below_succ b hcapb
  · exact raise_keeps_written h .lineOverrun 1

/-- Entering the handler starts its copy with no byte copied (spec/41_boundary_handler.md R151). -/
theorem boundaryEntry_keeps_written (h : s.Written) : (boundaryEntry s).Written := by
  obtain ⟨hcapb, hring, hslot, -, hframe⟩ := h
  obtain ⟨-, -, hentry⟩ | ⟨-, hentry⟩ := boundaryEntry_cases s <;> rw [hentry]
  · exact ⟨hcapb, hring, hslot, nofun, hframe⟩
  · exact ⟨hcapb, hring, hslot, fun _ _ i hi => absurd hi (Nat.not_lt_zero i), hframe⟩

theorem execPush_keeps_written {b : Byte} (hinv : s.Inv) (h : s.Written) (hx : execPush b s = .next t) : t.Written := by
  obtain ⟨-, rfl⟩ | ⟨-, -, rfl⟩ | ⟨-, -, rfl⟩ := execPush_cases hx
  · exact h
  · exact raise_keeps_written h .ringOverrun 1
  · obtain ⟨⟨hwbin, -⟩, hrbin, -⟩ := hinv.pointers
    obtain ⟨hcapb, hring, hrest⟩ := h
    exact ⟨hcapb, ringWritten_append b hwbin hrbin hring, hrest⟩

/-- An accepted `POLL` starts its drain with no byte copied (spec/43_consumer.md R221). -/
theorem execPoll_keeps_written (h : s.Written) (hx : execPoll s = .next t) : t.Written := by
  have hstart (n : Byte) (armed declared : Bool) : State.Written { s with
      w := { s.w with ceArmed := armed }
      r := { s.r with toReady := declared, pCount := n, pIdx := 0, pStep := .copy } } := by
    obtain ⟨hcapb, hring, hslot, hcopy, -⟩ := h
    exact ⟨hcapb, hring, hslot, hcopy, fun _ _ i hi => absurd hi (Nat.not_lt_zero i)⟩
  obtain ⟨-, rfl⟩ | ⟨-, ⟨-, -, rfl⟩ | ⟨-, -, rfl⟩ | ⟨-, -, rfl⟩ | ⟨-, -, -, rfl⟩⟩ := execPoll_cases hx
  · exact h
  · exact hstart _ _ _
  · exact hstart _ _ _
  · exact hstart _ _ _
  · exact h

/-- What the consumer sees of the ring is there (spec/10_state.md R43). -/
theorem State.Inv.lenTrue_ne_zero (h : s.Inv) (hsome : s.lenR ≠ 0) : s.lenTrue ≠ 0 := by
  obtain ⟨hle, -⟩ := h.views
  omega

theorem execPop_keeps_written (hinv : s.Inv) (h : s.Written) (hx : execPop s = .next t) : t.Written := by
  obtain ⟨-, rfl⟩ | ⟨-, -, rfl⟩ | ⟨-, hsome, rfl⟩ := execPop_cases hx
  · exact h
  · exact h
  · obtain ⟨⟨hwbin, -⟩, hrbin, -⟩ := hinv.pointers
    obtain ⟨hcapb, hring, hrest⟩ := h
    exact ⟨hcapb, ringWritten_remove hwbin hrbin (hinv.lenTrue_ne_zero hsome) hring, hrest⟩

/-- Every command keeps what is written. -/
theorem exec_keeps_written {i : Instr} (hinv : s.Inv) (h : s.Written) (hx : exec i s = .next t) : t.Written := by
  cases i with
  | nop p => obtain ⟨-, rfl⟩ | ⟨-, -, rfl⟩ | ⟨-, -, rfl⟩ := execNop_cases hx <;> exact h
  | rxbyte b => exact execRxbyte_keeps_written h hx
  | rxidle => obtain ⟨-, rfl⟩ | ⟨-, rfl⟩ := execRxidle_cases hx <;> exact h
  | tick => cases hx; exact h
  | irq i =>
    obtain ⟨-, rfl⟩ | ⟨-, -, rfl⟩ | ⟨-, -, -, -, rfl⟩ := execIrq_cases hx
    · exact raise_keeps_written h .spurious 1
    · exact h
    · exact boundaryEntry_keeps_written h
  | arm n =>
    obtain ⟨-, rfl⟩ | ⟨-, rfl⟩ := execArm_cases hx
    · obtain ⟨-, hrest⟩ := h
      exact ⟨fun i hi => absurd hi (Nat.not_lt_zero i), hrest⟩
    · exact h
  | stop => obtain ⟨-, rfl⟩ | ⟨-, rfl⟩ := execStop_cases hx <;> exact h
  | push b => exact execPush_keeps_written hinv h hx
  | poll => exact execPoll_keeps_written h hx
  | pop => exact execPop_keeps_written hinv h hx
  | len => obtain ⟨-, rfl⟩ | ⟨-, rfl⟩ := execLen_cases hx <;> exact h

/-! ### The handler -/

theorem handlerCopyRing_keeps_written (hinv : s.Inv) (h : s.Written) (hpolicy : s.build.policy = .ring)
    (hx : handlerCopyRing s = .next t) : t.Written := by
  have noslot {p : Prop} (hidle : s.build.policy = .idle) : p := by rw [hpolicy] at hidle; cases hidle
  obtain ⟨⟨hwbin, -⟩, hrbin, -⟩ := hinv.pointers
  obtain ⟨hcapb, hring, hslot, -, hframe⟩ := h
  obtain ⟨-, -, -, rfl⟩ | ⟨-, -, rfl⟩ | ⟨-, rfl⟩ := handlerCopyRing_cases hx
  · exact ⟨hcapb, ringWritten_append _ hwbin hrbin hring, hslot, fun _ => noslot, hframe⟩
  · exact ⟨hcapb, hring, hslot, fun _ => noslot, hframe⟩
  · exact ⟨hcapb, hring, hslot, fun _ => noslot, hframe⟩

/-- The slot is published when all its bytes are copied (spec/41_boundary_handler.md R154). -/
theorem handlerCopyIdle_keeps_written (h : s.Written) (hcopying : s.w.hStep = .copy) (hpolicy : s.build.policy = .idle)
    (hx : handlerCopyIdle s = .next t) : t.Written := by
  obtain ⟨hcapb, hring, hslot, hcopy, hframe⟩ := h
  have hcopied := hcopy hcopying hpolicy
  obtain ⟨hleft, -, rfl⟩ | ⟨hdone, rfl⟩ := handlerCopyIdle_cases hx
  · refine ⟨hcapb, hring, fun hocc i hi => ?_, fun _ _ => ?_, hframe⟩
    · exact (Memory.isSome_lookup_insert _ _ _ _).2 (.inr (hslot hocc i hi))
    · change ∀ i, i < (s.w.hIdx + 1).toNat → _
      rw [toNat_succ_of_lt hleft]
      exact Memory.written_below_succ _ hcopied
  · exact ⟨hcapb, hring, fun _ i hi => hcopied i (lt_of_lt_of_le hi hdone), nofun, hframe⟩

theorem hstep_keeps_written (hinv : s.Inv) (h : s.Written) (hx : hstep s = .next t) : t.Written := by
  obtain ⟨-, rfl⟩ | ⟨-, -, rfl⟩ | ⟨-, hpolicy, hring⟩ | ⟨hcopy, hpolicy, hidle⟩ | ⟨-, rfl⟩ | ⟨-, rfl⟩ := hstep_cases hx
  · exact h
  · exact h
  · exact handlerCopyRing_keeps_written hinv h hpolicy hring
  · exact handlerCopyIdle_keeps_written h hcopy hpolicy hidle
  · obtain ⟨⟨hptr, hlen⟩, -⟩ := hinv.capture
    obtain ⟨-, hring, hslot, -, hframe⟩ := h
    exact ⟨fun i hi => Memory.isSome_lookup_filled 0 (lt_of_lt_of_le hi (hptr.trans hlen)), hring, hslot, nofun, hframe⟩
  · obtain ⟨-, hring, hslot, -, hframe⟩ := h
    exact ⟨fun i hi => absurd hi (Nat.not_lt_zero i), hring, hslot, nofun, hframe⟩

/-! ### The poll -/

/-- A running drain has a byte to pop under `RING` as long as it is not done (spec/43_consumer.md R224). -/
theorem State.Inv.lenR_ne_zero_of_draining (h : s.Inv) (hcopy : s.r.pStep = .copy) (hpolicy : s.build.policy = .ring)
    (hleft : s.r.pIdx.toNat < s.r.pCount.toNat) : s.lenR ≠ 0 := by
  obtain ⟨-, -, -, -, -, -, hseen, -⟩ := h.consumer
  have := hseen hcopy hpolicy
  omega

/-- Each byte of the drain extends the written part of `FRMB` by one (spec/43_consumer.md R224). -/
theorem pollCopy_keeps_written (hinv : s.Inv) (h : s.Written) (hcopying : s.r.pStep = .copy)
    (hx : pollCopy s = .next t) : t.Written := by
  obtain ⟨⟨hwbin, -⟩, hrbin, -⟩ := hinv.pointers
  obtain ⟨hcapb, hring, hslot, hcopy, hframe⟩ := h
  have hdrained := hframe (by simp [hcopying]) (by simp [hcopying])
  have hnext (v : Byte) (hleft : s.r.pIdx.toNat < s.r.pCount.toNat) (i : Nat) (hi : i < (s.r.pIdx + 1).toNat) :
      (Memory.lookup i (Memory.insert s.r.pIdx.toNat v s.frmb)).isSome = true := by
    rw [toNat_succ_of_lt hleft] at hi
    exact Memory.written_below_succ v hdrained i hi
  obtain ⟨hleft, hpolicy, -, rfl⟩ | ⟨hleft, -, -, sp, -, rfl⟩ | ⟨-, rfl⟩ := pollCopy_cases hx
  · have hsome := hinv.lenTrue_ne_zero (hinv.lenR_ne_zero_of_draining hcopying hpolicy hleft)
    exact ⟨hcapb, ringWritten_remove hwbin hrbin hsome hring, hslot, hcopy, fun _ _ => hnext _ hleft⟩
  · exact ⟨hcapb, hring, hslot, hcopy, fun _ _ => hnext _ hleft⟩
  · exact ⟨hcapb, hring, hslot, hcopy, fun _ _ => hdrained⟩

/-- The last step of a poll empties the engine or releases the slot (spec/43_consumer.md R229). -/
theorem pollReset_keeps_written (hinv : s.Inv) (h : s.Written) (hreset : s.r.pStep = .reset) :
    ({ pollRelease s with r := { (pollRelease s).r with pStep := .idle } } : State).Written := by
  obtain ⟨hcapb, hring, hslot, hcopy, -⟩ := h
  unfold pollRelease
  split
  case h_1 => exact ⟨fun i hi => absurd hi (Nat.not_lt_zero i), hring, hslot, hcopy, fun hn => absurd rfl hn⟩
  case h_2 hpolicy =>
    obtain ⟨-, -, -, -, -, hrun, -⟩ := hinv.consumer
    obtain ⟨-, -, hidle⟩ := hrun (by simp [hreset])
    obtain ⟨hrdy, -⟩ := hidle hpolicy
    obtain ⟨hocc, -⟩ := slot_occupied_of_ready hinv.slot hrdy
    exact ⟨hcapb, hring, fun _ => hslot hocc, hcopy, fun hn => absurd rfl hn⟩
  case h_3 => exact ⟨hcapb, hring, hslot, hcopy, fun hn => absurd rfl hn⟩

theorem pstep_keeps_written (hinv : s.Inv) (h : s.Written) (hx : pstep s = .next t) : t.Written := by
  obtain ⟨-, rfl⟩ | ⟨hcopying, hx⟩ | ⟨hdeliver, hx⟩ | ⟨-, rfl⟩ | ⟨hreset, rfl⟩ := pstep_cases hx
  · exact h
  · exact pollCopy_keeps_written hinv h hcopying hx
  · obtain ⟨-, rfl⟩ := pollDeliver_cases hx
    obtain ⟨hcapb, hring, hslot, hcopy, hframe⟩ := h
    exact ⟨hcapb, hring, hslot, hcopy, fun _ _ => hframe (by simp [hdeliver]) (by simp [hdeliver])⟩
  · obtain ⟨hcapb, hring, hslot, hcopy, -⟩ := h
    exact ⟨hcapb, hring, hslot, hcopy, fun _ hn => absurd rfl hn⟩
  · exact pollReset_keeps_written hinv h hreset

/-! ### Every event -/

theorem illegalWord_keeps_written (h : s.Written) (p : Port) : (illegalWord p s).Written := by
  cases p <;> exact h

/-- Settles O36: by kind of step; the synchronisers touch nothing that is read of a memory, and at reset nothing can be read. -/
theorem everyStepKeepsWritten : Obligations.EveryStepKeepsWritten := by
  intro e s t hinv h hx
  cases perform_cases hx with
  | command i ws _ hexec => exact exec_keeps_written (hinv.queued ws) h hexec
  | illegal p c ws _ _ heq => subst heq; exact illegalWord_keeps_written (s := queued s ws) h p
  | untaken ws _ heq => subst heq; exact h
  | hstep _ hrun => exact hstep_keeps_written (hinv.queued s.rWait) h hrun
  | pstep _ hrun => exact pstep_keeps_written (hinv.queued s.rWait) h hrun
  | syncW _ heq => subst heq; exact h
  | syncR _ heq => subst heq; exact h
  | reset _ heq => subst heq; exact resetOf_written s.build

end Sys2Proof.Machine
end

section
/-! SUPPORT. From a state with the invariant every step completes: the indices it forms are in range (spec/10_state.md R46,
spec/60_exceptions.md R257). -/

namespace Sys2Proof.Machine

variable {s : State}

/-- A read inside its memory goes on. -/
theorem readThen_completes {sp : Space} {i : Nat} {k : Byte → Result} (hi : i < s.build.size sp)
    (hk : ∀ v, ∃ t, k v = .next t) : ∃ t, readThen s sp i k = .next t := by
  rw [readThen_of_lt s sp i k hi]
  exact hk _

/-- A write inside its memory goes on. -/
theorem writeThen_completes {sp : Space} {i : Nat} {v : Byte} {k : State → Result} (hi : i < s.build.size sp)
    (hk : ∀ u, ∃ t, k u = .next t) : ∃ t, writeThen s sp i v k = .next t := by
  rw [writeThen_of_lt s sp i v k hi]
  exact hk _

theorem whenReady_completes {k : State → Result} (hk : ∃ t, k s = .next t) : ∃ t, whenReady s k = .next t := by
  unfold whenReady
  split
  · exact hk
  · exact ⟨s, rfl⟩

/-- A command forms one index that its width does not bound: `RXBYTE` stores at `ce_ptr`, below `ce_len`. -/
theorem exec_completes (h : s.Inv) (i : Instr) : ∃ t, exec i s = .next t := by
  cases i with
  | nop p =>
    cases p with
    | w => exact ⟨_, rfl⟩
    | r => simp only [exec, execNop]; exact whenReady_completes ⟨_, rfl⟩
  | rxbyte b =>
    simp only [exec, execRxbyte]
    split
    next hroom =>
      obtain ⟨⟨-, hlen⟩, -⟩ := h.capture
      exact writeThen_completes (sp := .capb) (lt_of_lt_of_le hroom.2 hlen) fun _ => ⟨_, rfl⟩
    next => exact ⟨_, rfl⟩
  | rxidle => simp only [exec, execRxidle]; split <;> exact ⟨_, rfl⟩
  | tick => exact ⟨_, rfl⟩
  | irq i => simp only [exec, execIrq]; split_ifs <;> exact ⟨_, rfl⟩
  | arm n => simp only [exec, execArm]; split <;> exact ⟨_, rfl⟩
  | stop => simp only [exec, execStop]; split <;> exact ⟨_, rfl⟩
  | push b => simp only [exec, execPush, ringAppend_eq]; split_ifs <;> exact ⟨_, rfl⟩
  | poll =>
    simp only [exec, execPoll]
    refine whenReady_completes ?_
    split <;> split <;> exact ⟨_, rfl⟩
  | pop =>
    simp only [exec, execPop, ringRemove_eq]
    refine whenReady_completes ?_
    split <;> exact ⟨_, rfl⟩
  | len => simp only [exec, execLen]; exact whenReady_completes ⟨_, rfl⟩

theorem runWord_completes (h : s.Inv) (p : Port) (c : Cmd) : ∃ t, runWord p c s = .next t := by
  unfold runWord
  split
  · exact exec_completes h _
  · exact ⟨_, rfl⟩

theorem takeR_completes (h : s.Inv) (ws : List Cmd) : ∃ t, takeR (queued s ws) = .next t := by
  unfold takeR
  split
  · split
    · exact ⟨_, rfl⟩
    · exact runWord_completes (h.queued _) _ _
  · exact ⟨_, rfl⟩

/-- The handler copies bytes below `h_count`, which is at most `CAP`. -/
theorem hstep_completes (h : s.Inv) : ∃ t, hstep s = .next t := by
  obtain ⟨-, ⟨-, hcount⟩, -⟩ := h.capture
  have hread (sp : Space) (hsize : s.build.size sp = s.build.cap) (hleft : s.w.hIdx.toNat < s.w.hCount.toNat) :
      s.w.hIdx.toNat < s.build.size sp := by omega
  unfold hstep
  split
  · exact ⟨_, rfl⟩
  · unfold handlerCopy
    split
    · unfold handlerCopyRing
      split
      · split
        · exact readThen_completes (hread .capb rfl ‹_›) fun v => by rw [ringAppend_eq]; exact ⟨_, rfl⟩
        · exact ⟨_, rfl⟩
      · exact ⟨_, rfl⟩
    · unfold handlerCopyIdle
      split
      · exact readThen_completes (hread .capb rfl ‹_›) fun v =>
          writeThen_completes (hread .xfer rfl ‹_›) fun _ => ⟨_, rfl⟩
      · exact ⟨_, rfl⟩
    · exact ⟨_, rfl⟩
  · exact ⟨_, rfl⟩
  · exact ⟨_, rfl⟩

/-- The drain copies bytes below `p_count`, which is at most `FB` and, of the two buffers, at most `CAP`. -/
theorem pollCopy_completes (h : s.Inv) : ∃ t, pollCopy s = .next t := by
  obtain ⟨⟨-, hfb⟩, hcap, -⟩ := h.consumer
  unfold pollCopy
  split
  next hleft =>
    have hwrite (u : State) (hu : u.build = s.build) : s.r.pIdx.toNat < u.build.size .frmb := by
      rw [hu]; exact lt_of_lt_of_le hleft hfb
    unfold pollSource
    split
    next hp =>
      exact readThen_completes (sp := .capb) (lt_of_lt_of_le hleft (hcap (by simp [hp]))) fun _ =>
        writeThen_completes (hwrite s rfl) fun _ => ⟨_, rfl⟩
    next hp =>
      exact readThen_completes (sp := .xfer) (lt_of_lt_of_le hleft (hcap (by simp [hp]))) fun _ =>
        writeThen_completes (hwrite s rfl) fun _ => ⟨_, rfl⟩
    next hp =>
      rw [ringRemove_eq]
      exact writeThen_completes (hwrite _ rfl) fun _ => ⟨_, rfl⟩
  next => exact ⟨_, rfl⟩

/-- The frame handed over has `p_count` bytes. -/
theorem pollDeliver_completes (h : s.Inv) (hdeliver : s.r.pStep = .deliver) : ∃ t, pollDeliver s = .next t := by
  obtain ⟨⟨-, hfb⟩, -, -, -, -, -, -, -, hframe, -⟩ := h.consumer
  have hfits : s.r.fbLen.toNat ≤ s.build.fb := by rw [hframe (.inl hdeliver)]; exact hfb
  exact ⟨_, if_pos hfits⟩

theorem pstep_completes (h : s.Inv) : ∃ t, pstep s = .next t := by
  unfold pstep
  split
  · exact ⟨_, rfl⟩
  · exact pollCopy_completes h
  · exact pollDeliver_completes h ‹_›
  · exact ⟨_, rfl⟩
  · exact ⟨_, rfl⟩

/-- Every event completes. -/
theorem perform_completes (h : s.Inv) (e : Event) : ∃ t, perform e s = .next t := by
  have hquiet := h.queued s.rWait
  cases e with
  | wWord c => exact runWord_completes hquiet .w c
  | rWord c => exact takeR_completes h (s.rWait ++ [c])
  | rTake => exact takeR_completes h s.rWait
  | hstep => exact hstep_completes hquiet
  | pstep => exact pstep_completes hquiet
  | syncW => exact ⟨_, rfl⟩
  | syncR => exact ⟨_, rfl⟩
  | reset => exact ⟨_, rfl⟩

end Sys2Proof.Machine
end

section
/-! SUPPORT. The places that can be read (spec/20_memory.md R65, R66), and outcomes compared across a change of the state. -/

namespace Sys2Proof.Machine

variable {s : State}

/-! ### The places that can be read -/

/-- The places a step can read in a state: the reads column of the table of accesses, by the reader's progress
(spec/20_memory.md R65). -/
def mayRead (s : State) (sp : Space) (i : Nat) : Prop :=
  match sp with
  | .capb =>
    (s.w.hStep = .copy ∧ i = s.w.hIdx.toNat ∧ i < s.w.hCount.toNat) ∨
    (s.r.pStep = .copy ∧ s.build.policy = .timeout ∧ i = s.r.pIdx.toNat ∧ i < s.r.pCount.toNat)
  | .ring =>
    i = s.head ∧
      (s.lenR ≠ 0 ∨ (s.r.pStep = .copy ∧ s.build.policy = .ring ∧ s.r.pIdx.toNat < s.r.pCount.toNat))
  | .xfer => s.r.pStep = .copy ∧ s.build.policy = .idle ∧ i = s.r.pIdx.toNat ∧ i < s.r.pCount.toNat
  | .frmb => s.r.pStep = .deliver ∧ i < s.r.fbLen.toNat

/-- What can be read has been written since reset (spec/20_memory.md R66). -/
theorem written_of_mayRead (hinv : s.Inv) (h : s.Written) {sp : Space} {i : Nat} (hread : mayRead s sp i) :
    written s sp i := by
  obtain ⟨hcapb, hring, hslot, -, hframe⟩ := h
  obtain ⟨-, -, -, -, -, hrun, -, -, hlen, hdone⟩ := hinv.consumer
  cases sp with
  | capb =>
    obtain ⟨hcopy, -, hi⟩ | ⟨hcopy, hpolicy, -, hi⟩ := hread
    · obtain ⟨-, -, -, hhandler, -⟩ := hinv.capture
      obtain ⟨-, -, -, hcount, -⟩ := hhandler (by simp [hcopy])
      exact hcapb i (hcount ▸ hi)
    · obtain ⟨-, htimeout, -⟩ := hrun (by simp [hcopy])
      obtain ⟨-, hcount⟩ := htimeout hpolicy
      exact hcapb i (hcount ▸ hi)
  | ring =>
    obtain ⟨rfl, hsome⟩ := hread
    have hseen : s.lenR ≠ 0 := by
      obtain hsome | ⟨hcopy, hpolicy, hleft⟩ := hsome
      · exact hsome
      · exact hinv.lenR_ne_zero_of_draining hcopy hpolicy hleft
    exact hring 0 (Nat.pos_of_ne_zero (hinv.lenTrue_ne_zero hseen))
  | xfer =>
    obtain ⟨hcopy, hpolicy, -, hi⟩ := hread
    obtain ⟨-, -, hidle⟩ := hrun (by simp [hcopy])
    obtain ⟨hrdy, hcount⟩ := hidle hpolicy
    exact hslot (slot_occupied_of_ready hinv.slot hrdy).1 i (hcount ▸ hi)
  | frmb =>
    obtain ⟨hdeliver, hi⟩ := hread
    have hcopied : s.r.fbLen = s.r.pIdx := (hlen (.inl hdeliver)).trans (hdone (.inl hdeliver)).symm
    exact hframe (by simp [hdeliver]) (by simp [hdeliver]) i (hcopied ▸ hi)

/-- With the unspecified bytes of epoch `k` instead of its own, a state reads the same where it can read at all. -/
def readsAlike (k : Nat) (s : State) : Prop :=
  ∀ sp i, mayRead s sp i → ({ s with epoch := k } : State).byteAt sp i = s.byteAt sp i

/-- Where everything that can be read has been written, no unspecified byte is read. -/
theorem readsAlike_of_written (hinv : s.Inv) (h : s.Written) (k : Nat) : readsAlike k s := by
  intro sp i hread
  obtain ⟨v, hv⟩ := Option.isSome_iff_exists.mp (written_of_mayRead hinv h hread)
  have hmem : ({ s with epoch := k } : State).mem sp = s.mem sp := rfl
  simp only [State.byteAt, hmem, hv, Option.getD_some]

theorem readsAlike_self (s : State) : readsAlike s.epoch s := fun _ _ _ => rfl

/-! ### Outcomes across a change of the state -/

/-- The same outcome, its next state changed by `f`. -/
def mapNext (f : State → State) : Result → Result
  | .next t => .next (f t)
  | .fault r => .fault r
  | .refused r => .refused r

variable {s' : State} {f : State → State}

/-- A branch taken on a condition that the change leaves alone. -/
theorem ite_eq_mapNext {c : Prop} [Decidable c] {x x' y y' : Result} (hx : c → x' = mapNext f x)
    (hy : ¬ c → y' = mapNext f y) : (if c then x' else y') = mapNext f (if c then x else y) := by
  split
  · exact hx ‹_›
  · exact hy ‹_›

theorem readThen_eq_mapNext {sp : Space} {i : Nat} {k k' : Byte → Result} (hbuild : s'.build = s.build)
    (hbyte : s'.byteAt sp i = s.byteAt sp i) (hk : k' (s.byteAt sp i) = mapNext f (k (s.byteAt sp i))) :
    readThen s' sp i k' = mapNext f (readThen s sp i k) := by
  unfold readThen
  rw [hbuild, hbyte]
  exact ite_eq_mapNext (fun _ => hk) fun _ => rfl

theorem writeThen_eq_mapNext {sp : Space} {i : Nat} {v : Byte} {k k' : State → Result} (hbuild : s'.build = s.build)
    (hk : k' (s'.setMem sp ((s'.mem sp).insert i v)) = mapNext f (k (s.setMem sp ((s.mem sp).insert i v)))) :
    writeThen s' sp i v k' = mapNext f (writeThen s sp i v k) := by
  unfold writeThen
  rw [hbuild]
  exact ite_eq_mapNext (fun _ => hk) fun _ => rfl

theorem ringAppend_eq_mapNext {v : Byte} {k k' : State → Result}
    (hk : k' { s' with ring := s'.ring.insert s'.tail v, w := { s'.w with wbin := ptrNext s'.build s'.w.wbin } } =
      mapNext f (k { s with ring := s.ring.insert s.tail v, w := { s.w with wbin := ptrNext s.build s.w.wbin } })) :
    ringAppend s' v k' = mapNext f (ringAppend s v k) := by
  rw [ringAppend_eq, ringAppend_eq]
  exact hk

theorem ringRemove_eq_mapNext {k k' : Byte → State → Result} (hbyte : s'.byteAt .ring s'.head = s.byteAt .ring s.head)
    (hk : k' (s.byteAt .ring s.head) { s' with r := { s'.r with rbin := ptrNext s'.build s'.r.rbin } } =
      mapNext f (k (s.byteAt .ring s.head) { s with r := { s.r with rbin := ptrNext s.build s.r.rbin } })) :
    ringRemove s' k' = mapNext f (ringRemove s k) := by
  rw [ringRemove_eq, ringRemove_eq, hbyte]
  exact hk

theorem whenReady_eq_mapNext {k k' : State → Result} (hr : s'.r = s.r) (hf : s' = f s)
    (hk : s.r.pStep = .idle → k' s' = mapNext f (k s)) : whenReady s' k' = mapNext f (whenReady s k) := by
  unfold whenReady
  rw [hr]
  exact ite_eq_mapNext hk fun _ => congrArg Host.Outcome.next hf

/-! ### Ports -/

/-- A command decoded on a port is one of that port's (spec/30_encoding.md R94, R95). -/
theorem port_of_decode {p : Port} {c : Cmd} {i : Instr} (h : decode p c = .ok i) : i.port = p := by
  unfold decode at h
  split at h
  next row hfind =>
    cases h
    have hrow := List.mem_of_find?_eq_some hfind
    have hmatch := List.find?_some hfind
    simp only [OpcodeRow.matches, Bool.and_eq_true] at hmatch
    obtain ⟨hport, -⟩ := hmatch
    simp only [opcodeRows, List.mem_cons, List.not_mem_nil, or_false] at hrow
    obtain rfl | rfl | rfl | rfl | rfl | rfl | rfl | rfl | rfl | rfl | rfl := hrow
    · rfl
    all_goals exact (List.mem_singleton.mp (List.contains_iff_mem.mp hport)).symm
  next => cases h

end Sys2Proof.Machine
end

section
/-! PROOFS. A W-domain step other than `SYNC_W` does the same to the W domain whatever the R registers and the unspecified bytes are,
but for `ARM`'s look at `to_ready` (spec/20_memory.md R73, R66, spec/60_exceptions.md R266). -/

namespace Sys2Proof.Machine

variable {s : State} {g : RRegs → RRegs} {k : Nat}

/-- The state with the R registers changed by `g` and with the unspecified bytes of epoch `k`. -/
def otherR (g : RRegs → RRegs) (k : Nat) (s : State) : State := { s with r := g s.r, epoch := k }

theorem boundaryEntry_otherR : boundaryEntry (otherR g k s) = otherR g k (boundaryEntry s) := by
  obtain ⟨hidle, hocc, hentry⟩ | ⟨hfree, hentry⟩ := boundaryEntry_cases s <;> rw [hentry]
  · exact if_pos ⟨hidle, hocc⟩
  · exact if_neg hfree

/-- A W command reads no R register but `to_ready`, and writes none. -/
theorem exec_otherR {i : Instr} (hport : i.port = .w) (hready : (g s.r).toReady = s.r.toReady) :
    exec i (otherR g k s) = mapNext (otherR g k) (exec i s) := by
  cases i with
  | nop p => obtain rfl : p = .w := hport; rfl
  | rxbyte b =>
    exact ite_eq_mapNext (fun _ => writeThen_eq_mapNext (s := stampLine s) (s' := stampLine (otherR g k s)) rfl rfl)
      fun _ => rfl
  | rxidle => exact ite_eq_mapNext (fun _ => rfl) fun _ => rfl
  | tick => rfl
  | irq i =>
    refine ite_eq_mapNext (fun _ => rfl) fun _ => ite_eq_mapNext (fun _ => rfl) fun _ => ?_
    rw [boundaryEntry_otherR]
    rfl
  | arm n =>
    simp only [exec, execArm, otherR, hready]
    exact ite_eq_mapNext (fun _ => rfl) fun _ => rfl
  | stop => exact ite_eq_mapNext (fun _ => rfl) fun _ => rfl
  | push b =>
    exact ite_eq_mapNext (fun _ => rfl) fun _ => ite_eq_mapNext (fun _ => rfl) fun _ =>
      ringAppend_eq_mapNext (s := s) (s' := otherR g k s) rfl
  | poll => cases hport
  | pop => cases hport
  | len => cases hport

/-- The handler reads no R register, and of the memories the byte it copies. -/
theorem hstep_otherR (hread : readsAlike k s) : hstep (otherR g k s) = mapNext (otherR g k) (hstep s) := by
  have hbyte (hcopy : s.w.hStep = .copy) (hleft : s.w.hIdx.toNat < s.w.hCount.toNat) :
      (otherR g k s).byteAt .capb s.w.hIdx.toNat = s.byteAt .capb s.w.hIdx.toNat :=
    hread .capb _ (.inl ⟨hcopy, rfl, hleft⟩)
  cases hs : s.w.hStep with
  | idle => simp only [hstep, otherR, hs]; rfl
  | copy =>
    cases hp : s.build.policy with
    | timeout => simp only [hstep, handlerCopy, otherR, hs, hp]; rfl
    | ring =>
      have hcopy : handlerCopyRing (otherR g k s) = mapNext (otherR g k) (handlerCopyRing s) :=
        ite_eq_mapNext
          (fun hleft => ite_eq_mapNext
            (fun _ => readThen_eq_mapNext (s := s) (s' := otherR g k s) rfl (hbyte hs hleft)
              (ringAppend_eq_mapNext (s := s) (s' := otherR g k s) rfl))
            fun _ => rfl)
          fun _ => rfl
      simpa only [hstep, handlerCopy, otherR, hs, hp] using hcopy
    | idle =>
      have hcopy : handlerCopyIdle (otherR g k s) = mapNext (otherR g k) (handlerCopyIdle s) :=
        ite_eq_mapNext
          (fun hleft => readThen_eq_mapNext (s := s) (s' := otherR g k s) rfl (hbyte hs hleft)
            (writeThen_eq_mapNext (s := s) (s' := otherR g k s) rfl rfl))
          fun _ => rfl
      simpa only [hstep, handlerCopy, otherR, hs, hp] using hcopy
  | clear => simp only [hstep, otherR, hs]; rfl
  | rearm => simp only [hstep, otherR, hs]; rfl

/-- A W-domain step other than `SYNC_W`, performed with another R domain and other unspecified bytes. -/
theorem perform_otherR {e : Event} (hw : isWStep e = true) (hsync : e ≠ .syncW)
    (hready : (g s.r).toReady = s.r.toReady) (hread : readsAlike k s) :
    perform e (otherR g k s) = mapNext (otherR g k) (perform e s) := by
  cases e with
  | wWord c =>
    change runWord .w c (otherR g k (quiet s)) = mapNext (otherR g k) (runWord .w c (quiet s))
    cases hd : decode .w c with
    | ok i => simpa only [runWord, hd] using exec_otherR (s := quiet s) (port_of_decode hd) hready
    | error x => simp only [runWord, hd]; rfl
  | hstep => exact hstep_otherR (s := quiet s) hread
  | syncW => exact absurd rfl hsync
  | rWord c => cases hw
  | rTake => cases hw
  | pstep => cases hw
  | syncR => cases hw
  | reset => cases hw

end Sys2Proof.Machine
end

section
/-! PROOFS. An R-domain step other than `SYNC_R` does the same to the R domain whatever the unspecified bytes are and, but for
`TIMEOUT` and the slot's length, whatever the W registers are (spec/20_memory.md R73, R66, spec/60_exceptions.md R269). -/

namespace Sys2Proof.Machine

variable {s : State} {g : WRegs → WRegs} {k : Nat}

/-- The state with the W registers changed by `g` and with the unspecified bytes of epoch `k`. -/
def otherW (g : WRegs → WRegs) (k : Nat) (s : State) : State := { s with w := g s.w, epoch := k }

/-- The change is one that an R step does not see: none of the W registers under `TIMEOUT`, and never the slot's length. -/
def unseenByR (g : WRegs → WRegs) (s : State) : Prop :=
  (s.build.policy = .timeout → g = id) ∧ (g s.w).xferLen = s.w.xferLen

theorem execPoll_otherW (hg : unseenByR g s) : execPoll (otherW g k s) = mapNext (otherW g k) (execPoll s) := by
  obtain ⟨htimeout, hlen⟩ := hg
  refine whenReady_eq_mapNext rfl rfl fun _ => ?_
  cases hp : s.build.policy with
  | timeout =>
    obtain rfl := htimeout hp
    simp only [otherW, hp]
    exact ite_eq_mapNext (fun _ => rfl) fun _ => rfl
  | idle =>
    simp only [otherW, hp, hlen]
    exact ite_eq_mapNext (fun _ => rfl) fun _ => rfl
  | ring =>
    simp only [otherW, hp]
    exact ite_eq_mapNext (fun _ => rfl) fun _ => rfl

/-- An R command reads of the memories the ring's head. -/
theorem exec_otherW {i : Instr} (hport : i.port = .r) (hg : unseenByR g s) (hread : readsAlike k s) :
    exec i (otherW g k s) = mapNext (otherW g k) (exec i s) := by
  cases i with
  | nop p =>
    obtain rfl : p = .r := hport
    simp only [exec, execNop]
    exact whenReady_eq_mapNext rfl rfl fun _ => rfl
  | poll => exact execPoll_otherW hg
  | pop =>
    simp only [exec, execPop]
    exact whenReady_eq_mapNext rfl rfl fun _ => ite_eq_mapNext (fun _ => rfl) fun hsome =>
      ringRemove_eq_mapNext (s := s) (s' := otherW g k s) (hread .ring _ ⟨rfl, .inl hsome⟩) rfl
  | len => simp only [exec, execLen]; exact whenReady_eq_mapNext rfl rfl fun _ => rfl
  | rxbyte b => cases hport
  | rxidle => cases hport
  | tick => cases hport
  | irq i => cases hport
  | arm n => cases hport
  | stop => cases hport
  | push b => cases hport

/-- The drain reads the byte it copies. -/
theorem pollCopy_otherW (hcopy : s.r.pStep = .copy) (hread : readsAlike k s) :
    pollCopy (otherW g k s) = mapNext (otherW g k) (pollCopy s) := by
  refine ite_eq_mapNext (fun hleft => ?_) fun _ => rfl
  cases hp : s.build.policy with
  | timeout =>
    simp only [pollSource, otherW, hp]
    exact readThen_eq_mapNext rfl (hread .capb _ (.inr ⟨hcopy, hp, rfl, hleft⟩)) (writeThen_eq_mapNext rfl rfl)
  | idle =>
    simp only [pollSource, otherW, hp]
    exact readThen_eq_mapNext rfl (hread .xfer _ ⟨hcopy, hp, rfl, hleft⟩) (writeThen_eq_mapNext rfl rfl)
  | ring =>
    simp only [pollSource, otherW, hp]
    exact ringRemove_eq_mapNext (hread .ring _ ⟨rfl, .inr ⟨hcopy, hp, hleft⟩⟩) (writeThen_eq_mapNext rfl rfl)

/-- The delivered frame is made of bytes that can be read. -/
theorem pollDeliver_otherW (hdeliver : s.r.pStep = .deliver) (hread : readsAlike k s) :
    pollDeliver (otherW g k s) = mapNext (otherW g k) (pollDeliver s) := by
  have hspan : (otherW g k s).span .frmb s.r.fbLen.toNat = s.span .frmb s.r.fbLen.toNat :=
    List.map_congr_left fun i hi => hread .frmb i ⟨hdeliver, List.mem_range.mp hi⟩
  refine ite_eq_mapNext (fun _ => ?_) fun _ => rfl
  exact congrArg (fun frame => Host.Outcome.next
    { otherW g k s with outFrames := s.outFrames ++ [frame], r := { s.r with pStep := .fbclr } }) hspan

theorem pollRelease_otherW (hg : unseenByR g s) : pollRelease (otherW g k s) = otherW g k (pollRelease s) := by
  obtain ⟨htimeout, -⟩ := hg
  cases hp : s.build.policy with
  | timeout =>
    obtain rfl := htimeout hp
    simp only [pollRelease, otherW, hp]
    rfl
  | idle => simp only [pollRelease, otherW, hp]
  | ring => simp only [pollRelease, otherW, hp]

theorem pstep_otherW (hg : unseenByR g s) (hread : readsAlike k s) :
    pstep (otherW g k s) = mapNext (otherW g k) (pstep s) := by
  cases hs : s.r.pStep with
  | idle => simp only [pstep, otherW, hs]; rfl
  | copy => simpa only [pstep, otherW, hs] using pollCopy_otherW hs hread
  | deliver => simpa only [pstep, otherW, hs] using pollDeliver_otherW hs hread
  | fbclr => simp only [pstep, otherW, hs]; rfl
  | reset =>
    have hreset : pollReset (otherW g k s) = mapNext (otherW g k) (pollReset s) := by
      simp only [pollReset, pollRelease_otherW hg]
      rfl
    simpa only [pstep, otherW, hs] using hreset

/-- The R port takes the same word from the same queue. -/
theorem takeR_otherW (ws : List Cmd) (hg : unseenByR g s) (hread : readsAlike k s) :
    takeR (otherW g k (queued s ws)) = mapNext (otherW g k) (takeR (queued s ws)) := by
  cases ws with
  | nil => exact ite_eq_mapNext (fun _ => rfl) fun _ => rfl
  | cons c rest =>
    refine ite_eq_mapNext (fun _ => ?_) fun _ => rfl
    change runWord .r c (otherW g k (queued s rest)) = mapNext (otherW g k) (runWord .r c (queued s rest))
    cases hd : decode .r c with
    | ok i => simpa only [runWord, hd] using exec_otherW (s := queued s rest) (port_of_decode hd) hg hread
    | error x => simp only [runWord, hd]; rfl

/-- An R-domain step other than `SYNC_R`, performed with another W domain and other unspecified bytes. -/
theorem perform_otherW {e : Event} (hr : isRStep e = true) (hsync : e ≠ .syncR) (hg : unseenByR g s)
    (hread : readsAlike k s) : perform e (otherW g k s) = mapNext (otherW g k) (perform e s) := by
  cases e with
  | rWord c => exact takeR_otherW (s.rWait ++ [c]) hg hread
  | rTake => exact takeR_otherW s.rWait hg hread
  | pstep => exact pstep_otherW (s := quiet s) hg hread
  | syncR => exact absurd rfl hsync
  | wWord c => cases hr
  | hstep => cases hr
  | syncW => cases hr
  | reset => cases hr

end Sys2Proof.Machine
end

section
/-! PROOFS. The unspecified bytes reach nothing (spec/20_memory.md R66, spec/70_reset_and_hazards.md R282), and each domain keeps to
its side (spec/20_memory.md R73): both from the steps with the other domain or the unspecified bytes replaced. -/

namespace Sys2Proof.Machine

variable {s t : State} {e : Event}

/-! ### Unspecified bytes -/

/-- Every event but reset is a step of one of the two domains. -/
theorem wStep_or_rStep (h : e ≠ .reset) : isWStep e = true ∨ isRStep e = true := by
  cases e with
  | reset => exact absurd rfl h
  | wWord c => exact .inl rfl
  | hstep => exact .inl rfl
  | syncW => exact .inl rfl
  | rWord c => exact .inr rfl
  | rTake => exact .inr rfl
  | pstep => exact .inr rfl
  | syncR => exact .inr rfl

/-- A step that reads only what has been written does the same with other unspecified bytes. -/
theorem perform_with_epoch {k : Nat} (hreset : e ≠ .reset) (hread : readsAlike k s) (h : perform e s = .next t) :
    perform e { s with epoch := k } = .next { t with epoch := k } := by
  by_cases hw : e = .syncW
  · subst hw; cases h; rfl
  by_cases hr : e = .syncR
  · subst hr; cases h; rfl
  obtain hside | hside := wStep_or_rStep hreset
  · have := perform_otherR (g := id) hside hw rfl hread
    rwa [h] at this
  · have := perform_otherW (g := id) hside hr ⟨fun _ => rfl, rfl⟩ hread
    rwa [h] at this

/-- The pin shows only bytes of the frame that is delivered. -/
theorem frmData_with_epoch {k : Nat} (hread : readsAlike k s) (i : Byte) :
    ({ s with epoch := k } : State).frmData i = s.frmData i := by
  refine ite_congr rfl (fun hshown => ?_) fun _ => rfl
  obtain ⟨hvalid, hi, -⟩ := hshown
  have hdeliver : s.r.pStep = .deliver := by simpa [State.frmValid] using hvalid
  exact congrArg some (hread .frmb _ ⟨hdeliver, hi⟩)

/-- Settles O37: what can be read has been written, so a step completes alike with either contents, and so does the pin. -/
theorem unspecifiedBytesNeverEscape : Obligations.UnspecifiedBytesNeverEscape := by
  intro s k hinv h
  have hread := readsAlike_of_written hinv h k
  refine ⟨fun e hreset => ?_, frmData_with_epoch hread⟩
  obtain ⟨t, ht⟩ := perform_completes hinv e
  exact ⟨t, ht, perform_with_epoch hreset hread ht⟩

/-! ### Ownership -/

/-- A W step with the R registers replaced; replaced by themselves, it shows that the step leaves them alone. -/
theorem wStep_ignores_r {r' : RRegs} (hw : isWStep e = true) (hsync : e ≠ .syncW) (hready : r'.toReady = s.r.toReady)
    (h : perform e s = .next t) : perform e { s with r := r' } = .next { t with r := r' } ∧ t.r = s.r := by
  have replaced (r'' : RRegs) (hto : r''.toReady = s.r.toReady) :
      perform e { s with r := r'' } = .next (otherR (fun _ => r'') s.epoch t) := by
    have hcommutes := perform_otherR (g := fun _ => r'') hw hsync hto (readsAlike_self s)
    rwa [h] at hcommutes
  have hself : t = otherR (fun _ => s.r) s.epoch t := Host.Outcome.next.inj (h.symm.trans (replaced s.r rfl))
  have hepoch : s.epoch = t.epoch := by rw [hself]; rfl
  refine ⟨?_, by rw [hself]; rfl⟩
  rw [replaced r' hready, hepoch]
  rfl

/-- An R step with the W registers replaced, likewise. -/
theorem rStep_ignores_w {w' : WRegs} (hr : isRStep e = true) (hsync : e ≠ .syncR) (hpolicy : s.build.policy ≠ .timeout)
    (hlen : w'.xferLen = s.w.xferLen) (h : perform e s = .next t) :
    perform e { s with w := w' } = .next { t with w := w' } ∧ t.w = s.w := by
  have replaced (w'' : WRegs) (hlen'' : w''.xferLen = s.w.xferLen) :
      perform e { s with w := w'' } = .next (otherW (fun _ => w'') s.epoch t) := by
    have hunseen : unseenByR (fun _ => w'') s := ⟨fun htimeout => absurd htimeout hpolicy, hlen''⟩
    have hcommutes := perform_otherW hr hsync hunseen (readsAlike_self s)
    rwa [h] at hcommutes
  have hself : t = otherW (fun _ => s.w) s.epoch t := Host.Outcome.next.inj (h.symm.trans (replaced s.w rfl))
  have hepoch : s.epoch = t.epoch := by rw [hself]; rfl
  refine ⟨?_, by rw [hself]; rfl⟩
  rw [replaced w' hlen, hepoch]
  rfl

/-- Settles O58: one domain's steps with the other's registers replaced. -/
theorem domainsKeepToTheirSides : Obligations.DomainsKeepToTheirSides :=
  ⟨fun _ _ _ _ hw hsync hready h => wStep_ignores_r hw hsync hready h,
    fun _ _ _ _ hr hsync hpolicy hlen h => rStep_ignores_w hr hsync hpolicy hlen h⟩

end Sys2Proof.Machine
end

section
/-! PROOFS. A step writes only the cells that its row of the table of accesses names (spec/20_memory.md R65): each command, each
autonomous step, each event. -/

namespace Sys2Proof.Machine

variable {s t : State}

/-- One written place. -/
theorem sameMemoryBut_insert {cells : Space → Nat → Prop} (sp : Space) (i : Nat) (v : Byte) (hcell : cells sp i) :
    sameMemoryBut s (s.setMem sp ((s.mem sp).insert i v)) cells := by
  intro sp' j hout
  refine byteAt_insert_of_ne s sp sp' i j v fun hsame => hout ?_
  obtain ⟨rfl, rfl⟩ := hsame
  exact hcell

/-- One memory filled. -/
theorem sameMemoryBut_memFill {cells : Space → Nat → Prop} (sp : Space) (v : Byte) (hcells : ∀ i, cells sp i) :
    sameMemoryBut s (s.memFill sp v) cells := by
  intro sp' j hout
  refine byteAt_memFill_of_ne s sp sp' v (fun hsame => hout ?_) j
  rw [hsame]
  exact hcells j

/-- The cells of a command's row: `CAPB[ce_ptr]` for `RXBYTE`, `RING[tail]` for `PUSH`, else none. -/
def commandCells (i : Instr) (s : State) (sp : Space) (j : Nat) : Prop :=
  match i with
  | .rxbyte _ => sp = .capb ∧ j = s.w.cePtr.toNat
  | .push _ => sp = .ring ∧ j = s.tail
  | _ => False

theorem mayWrite_of_takenCommand {e : Event} {i : Instr} (h : takenCommand e s = some i) :
    mayWrite e s = commandCells i s := by
  funext sp j
  cases i <;> simp only [mayWrite, h, commandCells]

/-- Only `RXBYTE` and `PUSH` write a memory, one byte each. -/
theorem exec_writes_only {i : Instr} (h : exec i s = .next t) : sameMemoryBut s t (commandCells i s) := by
  have same : sameMemoryBut s s (commandCells i s) := fun _ _ _ => rfl
  cases i with
  | nop p => obtain ⟨-, rfl⟩ | ⟨-, -, rfl⟩ | ⟨-, -, rfl⟩ := execNop_cases h <;> exact same
  | rxbyte b =>
    obtain ⟨-, -, rfl⟩ | ⟨-, rfl⟩ := execRxbyte_cases h
    · exact sameMemoryBut_insert .capb s.w.cePtr.toNat b ⟨rfl, rfl⟩
    · exact same
  | rxidle => obtain ⟨-, rfl⟩ | ⟨-, rfl⟩ := execRxidle_cases h <;> exact same
  | tick => cases h; exact same
  | irq i =>
    obtain ⟨-, rfl⟩ | ⟨-, -, rfl⟩ | ⟨-, -, -, -, rfl⟩ := execIrq_cases h
    · exact same
    · exact same
    · obtain ⟨-, -, hentry⟩ | ⟨-, hentry⟩ := boundaryEntry_cases s <;> rw [hentry] <;> exact same
  | arm n => obtain ⟨-, rfl⟩ | ⟨-, rfl⟩ := execArm_cases h <;> exact same
  | stop => obtain ⟨-, rfl⟩ | ⟨-, rfl⟩ := execStop_cases h <;> exact same
  | push b =>
    obtain ⟨-, rfl⟩ | ⟨-, -, rfl⟩ | ⟨-, -, rfl⟩ := execPush_cases h
    · exact same
    · exact same
    · exact sameMemoryBut_insert .ring s.tail b ⟨rfl, rfl⟩
  | poll =>
    obtain ⟨-, rfl⟩ | ⟨-, ⟨-, -, rfl⟩ | ⟨-, -, rfl⟩ | ⟨-, -, rfl⟩ | ⟨-, -, -, rfl⟩⟩ := execPoll_cases h <;> exact same
  | pop => obtain ⟨-, rfl⟩ | ⟨-, -, rfl⟩ | ⟨-, -, rfl⟩ := execPop_cases h <;> exact same
  | len => obtain ⟨-, rfl⟩ | ⟨-, rfl⟩ := execLen_cases h <;> exact same

/-- The handler writes the ring's tail, the slot at `h_idx`, or all of `CAPB`, by its state and the policy. -/
theorem hstep_writes_only (h : hstep s = .next t) : sameMemoryBut s t (mayWrite .hstep s) := by
  have same : sameMemoryBut s s (mayWrite .hstep s) := fun _ _ _ => rfl
  obtain ⟨-, rfl⟩ | ⟨-, -, rfl⟩ | ⟨hcopy, hpolicy, hring⟩ | ⟨hcopy, hpolicy, hidle⟩ | ⟨hclear, rfl⟩ | ⟨-, rfl⟩ :=
    hstep_cases h
  · exact same
  · exact same
  · obtain ⟨-, -, -, rfl⟩ | ⟨-, -, rfl⟩ | ⟨-, rfl⟩ := handlerCopyRing_cases hring
    · exact sameMemoryBut_insert .ring s.tail _ (.inl ⟨hcopy, hpolicy, rfl, rfl⟩)
    · exact same
    · exact same
  · obtain ⟨-, -, rfl⟩ | ⟨-, rfl⟩ := handlerCopyIdle_cases hidle
    · exact sameMemoryBut_insert .xfer s.w.hIdx.toNat _ (.inr (.inl ⟨hcopy, hpolicy, rfl, rfl⟩))
    · exact same
  · exact sameMemoryBut_memFill .capb 0 fun _ => .inr (.inr ⟨hclear, rfl⟩)
  · exact same

/-- The poll writes `FRMB` at `p_idx`, all of `FRMB`, or, where it ends a timeout drain, all of `CAPB`. -/
theorem pstep_writes_only (h : pstep s = .next t) : sameMemoryBut s t (mayWrite .pstep s) := by
  have same : sameMemoryBut s s (mayWrite .pstep s) := fun _ _ _ => rfl
  obtain ⟨-, rfl⟩ | ⟨hcopying, hcopy⟩ | ⟨-, hdeliver⟩ | ⟨hclear, rfl⟩ | ⟨hreset, rfl⟩ := pstep_cases h
  · exact same
  · have hcell : mayWrite .pstep s .frmb s.r.pIdx.toNat := .inl ⟨hcopying, rfl, rfl⟩
    obtain ⟨-, -, -, rfl⟩ | ⟨-, -, -, sp, -, rfl⟩ | ⟨-, rfl⟩ := pollCopy_cases hcopy
    · exact sameMemoryBut_insert .frmb s.r.pIdx.toNat _ hcell
    · exact sameMemoryBut_insert .frmb s.r.pIdx.toNat _ hcell
    · exact same
  · obtain ⟨-, rfl⟩ := pollDeliver_cases hdeliver; exact same
  · exact sameMemoryBut_memFill .frmb 0 fun _ => .inr (.inl ⟨hclear, rfl⟩)
  · unfold pollRelease
    split
    case h_1 hpolicy => exact sameMemoryBut_memFill .capb 0 fun _ => .inr (.inr ⟨hreset, hpolicy, rfl⟩)
    case h_2 => exact same
    case h_3 => exact same

/-- Settles O51: each kind of step against the writes column; a reset may write everything. -/
theorem stepsWriteOnlyTheirCells : Obligations.StepsWriteOnlyTheirCells := by
  intro e s t h
  have same : sameMemoryBut s s (mayWrite e s) := fun _ _ _ => rfl
  cases perform_cases h with
  | command i ws htaken hexec =>
    rw [mayWrite_of_takenCommand htaken]
    exact exec_writes_only (s := queued s ws) hexec
  | illegal p c ws _ _ heq => subst heq; cases p <;> exact same
  | untaken ws _ heq => subst heq; exact same
  | hstep hevent hrun => subst hevent; exact hstep_writes_only (s := quiet s) hrun
  | pstep hevent hrun => subst hevent; exact pstep_writes_only (s := quiet s) hrun
  | syncW _ heq => subst heq; exact same
  | syncR _ heq => subst heq; exact same
  | reset hevent _ => subst hevent; exact fun _ _ hout => absurd trivial hout

end Sys2Proof.Machine
end

section
/-! PROOFS. A pointer moves by at most one place per step, and the gray code of neighbours differs in one bit
(spec/20_memory.md R82, spec/10_state.md R41). -/

namespace Sys2Proof.Machine

variable {s t : State}

/-! ### Neighbours in gray code -/

/-- A number and its successor differ in a low run of bits: the trailing ones and the zero above them. -/
theorem exists_xor_succ (n : Nat) : ∃ j, n ^^^ (n + 1) = 2 ^ (j + 1) - 1 := by
  induction n using Nat.strong_induction_on with
  | _ n ih =>
    obtain ⟨m, rfl | rfl⟩ : ∃ m, n = 2 * m ∨ n = 2 * m + 1 := ⟨n / 2, by omega⟩
    · have hxor : Nat.bit false m ^^^ Nat.bit true m = Nat.bit true (m ^^^ m) := Nat.xor_bit ..
      exact ⟨0, by simpa [Nat.bit_val] using hxor⟩
    · obtain ⟨j, hj⟩ := ih m (by omega)
      have hxor : Nat.bit true m ^^^ Nat.bit false (m + 1) = Nat.bit true (m ^^^ (m + 1)) := Nat.xor_bit ..
      rw [hj] at hxor
      refine ⟨j + 1, hxor.trans ?_⟩
      have hpos : 0 < 2 ^ (j + 1) := Nat.two_pow_pos _
      rw [Nat.bit_val, Nat.pow_succ 2 (j + 1)]
      simp only [Bool.toNat_true]
      omega

/-- The gray code of a difference is the difference of the gray codes. -/
theorem b2g_xor (x y : Ptr) : b2g x ^^^ b2g y = b2g (x ^^^ y) := by
  simp only [b2g, BitVec.ushiftRight_xor_distrib]
  ac_rfl

/-- The gray code of a low run of ones is its top bit. -/
theorem b2g_ones (j : Nat) (hj : j < 8) : b2g (BitVec.ofNat 8 (2 ^ (j + 1) - 1)) = (1 : Ptr) <<< j := by
  interval_cases j <;> decide

/-- The next pointer's gray image is one bit apart, at the end of the circle too (spec/20_memory.md R82). -/
theorem oneBitApart_ptrNext (b : Build) {x : Ptr} (hx : x.toNat < b.modulus) :
    oneBitApart (b2g x) (b2g (ptrNext b x)) := by
  obtain ⟨j, hrun⟩ : ∃ j, (x ^^^ ptrNext b x).toNat = 2 ^ (j + 1) - 1 := by
    rw [BitVec.toNat_xor, ptrNext_of_lt b x hx]
    split
    next hlast =>
      have haw : b.modulus = 2 ^ (b.aw + 1) := rfl
      exact ⟨b.aw, by rw [Nat.xor_zero]; omega⟩
    next => exact exists_xor_succ x.toNat
  have hj : j < 8 := by
    have hlt : 2 ^ (j + 1) < 2 ^ 9 := by have := (x ^^^ ptrNext b x).isLt; omega
    have := (Nat.pow_lt_pow_iff_right (by decide : 1 < 2)).mp hlt
    omega
  refine ⟨j, hj, ?_⟩
  rw [b2g_xor, ← b2g_ones j hj, ← hrun, BitVec.ofNat_toNat, BitVec.setWidth_eq]

/-! ### The steps that move a pointer -/

/-- Each pointer stays or moves on by one. -/
def pointersStep (s t : State) : Prop :=
  (t.w.wbin = s.w.wbin ∨ t.w.wbin = ptrNext s.build s.w.wbin) ∧
    (t.r.rbin = s.r.rbin ∨ t.r.rbin = ptrNext s.build s.r.rbin)

theorem pointersStep_refl (s : State) : pointersStep s s := ⟨.inl rfl, .inl rfl⟩

/-- Of the commands, `PUSH` moves the write pointer and `POP` the read pointer. -/
theorem exec_pointersStep {i : Instr} (h : exec i s = .next t) : pointersStep s t := by
  have same := pointersStep_refl s
  cases i with
  | nop p => obtain ⟨-, rfl⟩ | ⟨-, -, rfl⟩ | ⟨-, -, rfl⟩ := execNop_cases h <;> exact same
  | rxbyte b => obtain ⟨-, -, rfl⟩ | ⟨-, rfl⟩ := execRxbyte_cases h <;> exact same
  | rxidle => obtain ⟨-, rfl⟩ | ⟨-, rfl⟩ := execRxidle_cases h <;> exact same
  | tick => cases h; exact same
  | irq i =>
    obtain ⟨-, rfl⟩ | ⟨-, -, rfl⟩ | ⟨-, -, -, -, rfl⟩ := execIrq_cases h
    · exact same
    · exact same
    · obtain ⟨-, -, hentry⟩ | ⟨-, hentry⟩ := boundaryEntry_cases s <;> rw [hentry] <;> exact same
  | arm n => obtain ⟨-, rfl⟩ | ⟨-, rfl⟩ := execArm_cases h <;> exact same
  | stop => obtain ⟨-, rfl⟩ | ⟨-, rfl⟩ := execStop_cases h <;> exact same
  | push b =>
    obtain ⟨-, rfl⟩ | ⟨-, -, rfl⟩ | ⟨-, -, rfl⟩ := execPush_cases h
    · exact same
    · exact same
    · exact ⟨.inr rfl, .inl rfl⟩
  | poll =>
    obtain ⟨-, rfl⟩ | ⟨-, ⟨-, -, rfl⟩ | ⟨-, -, rfl⟩ | ⟨-, -, rfl⟩ | ⟨-, -, -, rfl⟩⟩ := execPoll_cases h <;> exact same
  | pop =>
    obtain ⟨-, rfl⟩ | ⟨-, -, rfl⟩ | ⟨-, -, rfl⟩ := execPop_cases h
    · exact same
    · exact same
    · exact ⟨.inl rfl, .inr rfl⟩
  | len => obtain ⟨-, rfl⟩ | ⟨-, rfl⟩ := execLen_cases h <;> exact same

/-- The handler moves the write pointer by the byte it pushes (spec/41_boundary_handler.md R153). -/
theorem hstep_pointersStep (h : hstep s = .next t) : pointersStep s t := by
  have same := pointersStep_refl s
  obtain ⟨-, rfl⟩ | ⟨-, -, rfl⟩ | ⟨-, -, hring⟩ | ⟨-, -, hidle⟩ | ⟨-, rfl⟩ | ⟨-, rfl⟩ := hstep_cases h
  · exact same
  · exact same
  · obtain ⟨-, -, -, rfl⟩ | ⟨-, -, rfl⟩ | ⟨-, rfl⟩ := handlerCopyRing_cases hring
    · exact ⟨.inr rfl, .inl rfl⟩
    · exact same
    · exact same
  · obtain ⟨-, -, rfl⟩ | ⟨-, rfl⟩ := handlerCopyIdle_cases hidle <;> exact same
  · exact same
  · exact same

/-- The poll moves the read pointer by the byte it drains under `RING` (spec/43_consumer.md R224). -/
theorem pstep_pointersStep (h : pstep s = .next t) : pointersStep s t := by
  have same := pointersStep_refl s
  obtain ⟨-, rfl⟩ | ⟨-, hcopy⟩ | ⟨-, hdeliver⟩ | ⟨-, rfl⟩ | ⟨-, rfl⟩ := pstep_cases h
  · exact same
  · obtain ⟨-, -, -, rfl⟩ | ⟨-, -, -, sp, -, rfl⟩ | ⟨-, rfl⟩ := pollCopy_cases hcopy
    · exact ⟨.inl rfl, .inr rfl⟩
    · exact same
    · exact same
  · obtain ⟨-, rfl⟩ := pollDeliver_cases hdeliver; exact same
  · exact same
  · unfold pollRelease; split <;> exact same

theorem perform_pointersStep {e : Event} (hreset : e ≠ .reset) (h : perform e s = .next t) : pointersStep s t := by
  have same := pointersStep_refl s
  cases perform_cases h with
  | command i ws _ hexec => exact exec_pointersStep (s := queued s ws) hexec
  | illegal p c ws _ _ heq => subst heq; cases p <;> exact same
  | untaken ws _ heq => subst heq; exact same
  | hstep _ hrun => exact hstep_pointersStep (s := quiet s) hrun
  | pstep _ hrun => exact pstep_pointersStep (s := quiet s) hrun
  | syncW _ heq => subst heq; exact same
  | syncR _ heq => subst heq; exact same
  | reset hevent _ => exact absurd hevent hreset

/-- Settles O55: each pointer stays or moves to its neighbour, whose gray image is one bit apart. -/
theorem pointersMoveByOne : Obligations.PointersMoveByOne := by
  intro e s t hinv hreset h
  obtain ⟨⟨hwbin, -⟩, hrbin, -⟩ := hinv.pointers
  obtain ⟨hw, hr⟩ := perform_pointersStep hreset h
  refine ⟨hw.imp_right fun hnext => ⟨hnext, ?_⟩, hr.imp_right fun hnext => ⟨hnext, ?_⟩⟩
  · unfold State.wgray
    rw [hnext]
    exact oneBitApart_ptrNext s.build hwbin
  · unfold State.rgray
    rw [hnext]
    exact oneBitApart_ptrNext s.build hrbin

end Sys2Proof.Machine
end

section
/-! SUPPORT. A command word and its three fields (spec/30_encoding.md R91), and what the masks of the opcode map (R94) leave of
them. -/

namespace Sys2Proof

/-! ### The fields of a word -/

@[simp] theorem cmdOp_cmdWord (op inst : BitVec 4) (arg : Byte) : cmdOp (cmdWord op inst arg) = op :=
  calc (cmdWord op inst arg).extractLsb' 12 4
    _ = (op ++ inst).extractLsb' 4 4 := BitVec.extractLsb'_append_eq_of_le (by decide)
    _ = op := BitVec.extractLsb'_append_eq_left

@[simp] theorem cmdInst_cmdWord (op inst : BitVec 4) (arg : Byte) : cmdInst (cmdWord op inst arg) = inst :=
  calc (cmdWord op inst arg).extractLsb' 8 4
    _ = (op ++ inst).extractLsb' 0 4 := BitVec.extractLsb'_append_eq_of_le (by decide)
    _ = inst := BitVec.extractLsb'_append_eq_right

@[simp] theorem cmdArg_cmdWord (op inst : BitVec 4) (arg : Byte) : cmdArg (cmdWord op inst arg) = arg :=
  BitVec.extractLsb'_append_eq_right

/-- A word is its fields, put together again. -/
theorem cmdWord_fields (w : Cmd) : cmdWord (cmdOp w) (cmdInst w) (cmdArg w) = w :=
  calc (w.extractLsb' 12 4 ++ w.extractLsb' 8 4) ++ w.extractLsb' 0 8
    _ = w.extractLsb' 8 8 ++ w.extractLsb' 0 8 := by
      rw [BitVec.extractLsb'_append_extractLsb'_eq_extractLsb' (start₁ := 8) (by decide)]
    _ = w.extractLsb' 0 16 := BitVec.extractLsb'_append_extractLsb'_eq_extractLsb' (by decide)
    _ = w := BitVec.extractLsb'_eq_self

/-! ### Masked words -/

theorem cmdOp_and (v w : Cmd) : cmdOp (v &&& w) = cmdOp v &&& cmdOp w := BitVec.extractLsb'_and

theorem cmdInst_and (v w : Cmd) : cmdInst (v &&& w) = cmdInst v &&& cmdInst w := BitVec.extractLsb'_and

theorem cmdArg_and (v w : Cmd) : cmdArg (v &&& w) = cmdArg v &&& cmdArg w := BitVec.extractLsb'_and

/-- A field that the mask shows whole is the masked word's. -/
theorem cmdOp_of_masked {v w mask : Cmd} (hmask : cmdOp mask = BitVec.allOnes 4) (h : w &&& mask = v) :
    cmdOp w = cmdOp v := by
  rw [← h, cmdOp_and, hmask, BitVec.and_allOnes]

theorem cmdInst_of_masked {v w mask : Cmd} (hmask : cmdInst mask = BitVec.allOnes 4) (h : w &&& mask = v) :
    cmdInst w = cmdInst v := by
  rw [← h, cmdInst_and, hmask, BitVec.and_allOnes]

theorem cmdArg_of_masked {v w mask : Cmd} (hmask : cmdArg mask = BitVec.allOnes 8) (h : w &&& mask = v) :
    cmdArg w = cmdArg v := by
  rw [← h, cmdArg_and, hmask, BitVec.and_allOnes]

/-- Format N: the operation code is the whole word (spec/30_encoding.md R92). -/
theorem cmdWord_of_formatN {w : Cmd} {op : BitVec 4} (h : w &&& 0xFFFF = cmdWord op 0 0) : cmdWord op 0 0 = w :=
  h.symm.trans BitVec.and_allOnes

/-- Format B: beside the operation code the word holds the operand (spec/30_encoding.md R92). -/
theorem cmdWord_of_formatB {w : Cmd} {op : BitVec 4} (h : w &&& 0xFF00 = cmdWord op 0 0) :
    cmdWord op 0 (cmdArg w) = w := by
  have hop := cmdOp_of_masked (by decide) h
  have hinst := cmdInst_of_masked (by decide) h
  rw [cmdOp_cmdWord] at hop
  rw [cmdInst_cmdWord] at hinst
  conv_rhs => rw [← cmdWord_fields w, hop, hinst]

/-- Format I: beside the operation code the word holds the number of the hardware unit (spec/30_encoding.md R92). -/
theorem cmdWord_of_formatI {w : Cmd} {op : BitVec 4} (h : w &&& 0xF0FF = cmdWord op 0 0) :
    cmdWord op (cmdInst w) 0 = w := by
  have hop := cmdOp_of_masked (by decide) h
  have harg := cmdArg_of_masked (by decide) h
  rw [cmdOp_cmdWord] at hop
  rw [cmdArg_cmdWord] at harg
  conv_rhs => rw [← cmdWord_fields w, hop, harg]

end Sys2Proof
end

section
/-! PROOFS. Decoding and encoding are inverse to each other (spec/30_encoding.md R91 to R95): the rows of the opcode map do not
overlap, so a word that matches a row is that row's command, and the row's mask fixes every field that the command does not
carry. -/

namespace Sys2Proof

/-! ### The rows of the opcode map -/

/-- The rows do not overlap: their operation codes differ (spec/30_encoding.md R95). -/
theorem opcodeRows_op_nodup : (opcodeRows.map fun row => cmdOp row.pattern).Nodup := by decide

/-- Every row fixes the operation code (spec/30_encoding.md R94). -/
theorem cmdOp_of_matches {p : Port} {w : Cmd} {row : OpcodeRow} (hrow : row ∈ opcodeRows)
    (h : row.matches p w = true) : cmdOp w = cmdOp row.pattern := by
  have hmasks : ∀ m ∈ opcodeRows.map fun row => cmdOp row.mask, m = BitVec.allOnes 4 := by decide
  have hmask := hmasks _ (List.mem_map_of_mem hrow)
  simp only [OpcodeRow.matches, Bool.and_eq_true, beq_iff_eq] at h
  obtain ⟨-, hpattern⟩ := h
  exact cmdOp_of_masked hmask hpattern

/-- A word is the command of whichever row it matches: the order of the rows does not matter (spec/30_encoding.md R95). -/
theorem decode_of_matches {p : Port} {w : Cmd} {row : OpcodeRow} (hrow : row ∈ opcodeRows)
    (h : row.matches p w = true) : decode p w = .ok (row.instr p w) := by
  unfold decode
  split
  next found hfind =>
    have hsame : found = row := by
      refine List.inj_on_of_nodup_map opcodeRows_op_nodup (List.mem_of_find?_eq_some hfind) hrow ?_
      rw [← cmdOp_of_matches (List.mem_of_find?_eq_some hfind) (List.find?_some hfind), cmdOp_of_matches hrow h]
    rw [hsame]
  next hnone => exact absurd h (List.find?_eq_none.mp hnone row hrow)

/-- A word that decodes is the command of a row it matches. -/
theorem exists_row_of_decode {p : Port} {w : Cmd} {i : Instr} (h : decode p w = .ok i) :
    ∃ row ∈ opcodeRows, w &&& row.mask = row.pattern ∧ row.instr p w = i := by
  unfold decode at h
  split at h
  next row hfind =>
    have hmatch := List.find?_some hfind
    simp only [OpcodeRow.matches, Bool.and_eq_true, beq_iff_eq] at hmatch
    obtain ⟨-, hpattern⟩ := hmatch
    cases h
    exact ⟨row, List.mem_of_find?_eq_some hfind, hpattern, rfl⟩
  next => cases h

/-! ### From the command to its word and back -/

/-- A command whose word matches a row that reads this command is decoded from its word. -/
theorem decode_encode_of_row {i : Instr} (row : OpcodeRow) (hrow : row ∈ opcodeRows) (hport : i.port ∈ row.ports)
    (hpattern : encode i &&& row.mask = row.pattern) (hinstr : row.instr i.port (encode i) = i) :
    decode i.port (encode i) = .ok i := by
  have hmatch : row.matches i.port (encode i) = true := by simp [OpcodeRow.matches, hport, hpattern]
  rw [decode_of_matches hrow hmatch, hinstr]

theorem decode_encode {i : Instr} (h : i.wellFormed = true) : decode i.port (encode i) = .ok i := by
  cases i with
  | nop p =>
    exact decode_encode_of_row opcodeRows[0] (List.getElem_mem _) (by cases p <;> decide) (Laws.RowMatch.nop p h) rfl
  | rxbyte b =>
    exact decode_encode_of_row opcodeRows[1] (List.getElem_mem _) List.mem_cons_self (Laws.RowMatch.rxbyte b h)
      (congrArg Instr.rxbyte (cmdArg_cmdWord 1 0 b))
  | rxidle => exact decode_encode_of_row opcodeRows[2] (List.getElem_mem _) (by decide) (Laws.RowMatch.rxidle h) rfl
  | tick => exact decode_encode_of_row opcodeRows[3] (List.getElem_mem _) (by decide) (Laws.RowMatch.tick h) rfl
  | irq i =>
    have hi : i < 16 := of_decide_eq_true h
    refine decode_encode_of_row opcodeRows[4] (List.getElem_mem _) List.mem_cons_self (Laws.RowMatch.irq i h)
      (congrArg Instr.irq ?_)
    rw [encode, cmdInst_cmdWord]
    exact Nat.mod_eq_of_lt hi
  | arm n =>
    have hn : n < 256 := of_decide_eq_true h
    refine decode_encode_of_row opcodeRows[5] (List.getElem_mem _) List.mem_cons_self (Laws.RowMatch.arm n h)
      (congrArg Instr.arm ?_)
    rw [encode, cmdArg_cmdWord]
    exact Nat.mod_eq_of_lt hn
  | stop => exact decode_encode_of_row opcodeRows[6] (List.getElem_mem _) (by decide) (Laws.RowMatch.stop h) rfl
  | push b =>
    exact decode_encode_of_row opcodeRows[7] (List.getElem_mem _) List.mem_cons_self (Laws.RowMatch.push b h)
      (congrArg Instr.push (cmdArg_cmdWord 7 0 b))
  | poll => exact decode_encode_of_row opcodeRows[8] (List.getElem_mem _) (by decide) (Laws.RowMatch.poll h) rfl
  | pop => exact decode_encode_of_row opcodeRows[9] (List.getElem_mem _) (by decide) (Laws.RowMatch.pop h) rfl
  | len => exact decode_encode_of_row opcodeRows[10] (List.getElem_mem _) (by decide) (Laws.RowMatch.len h) rfl

/-- The row's mask fixes every field that the command does not carry, so the command's word is the one it was read from; an
operand read from a field fits that field. -/
theorem encode_of_decode {p : Port} {w : Cmd} {i : Instr} (h : decode p w = .ok i) :
    encode i = w ∧ i.wellFormed = true := by
  obtain ⟨row, hrow, hpattern, rfl⟩ := exists_row_of_decode h
  simp only [opcodeRows, List.mem_cons, List.not_mem_nil, or_false] at hrow
  obtain rfl | rfl | rfl | rfl | rfl | rfl | rfl | rfl | rfl | rfl | rfl := hrow
  · exact ⟨cmdWord_of_formatN (op := 0) hpattern, rfl⟩
  · exact ⟨cmdWord_of_formatB (op := 1) hpattern, rfl⟩
  · exact ⟨cmdWord_of_formatN (op := 2) hpattern, rfl⟩
  · exact ⟨cmdWord_of_formatN (op := 3) hpattern, rfl⟩
  · exact ⟨by simpa [encode] using cmdWord_of_formatI (op := 4) hpattern, decide_eq_true (cmdInst w).isLt⟩
  · exact ⟨by simpa [encode] using cmdWord_of_formatB (op := 5) hpattern, decide_eq_true (cmdArg w).isLt⟩
  · exact ⟨cmdWord_of_formatN (op := 6) hpattern, rfl⟩
  · exact ⟨cmdWord_of_formatB (op := 7) hpattern, rfl⟩
  · exact ⟨cmdWord_of_formatN (op := 8) hpattern, rfl⟩
  · exact ⟨cmdWord_of_formatN (op := 9) hpattern, rfl⟩
  · exact ⟨cmdWord_of_formatN (op := 10) hpattern, rfl⟩

/-- On each port the decoder reads exactly the words of that port's well-formed commands. -/
theorem decode_eq_ok_iff {p : Port} {w : Cmd} {i : Instr} :
    decode p w = .ok i ↔ encode i = w ∧ i.port = p ∧ i.wellFormed = true := by
  constructor
  · intro h
    obtain ⟨hword, hfits⟩ := encode_of_decode h
    exact ⟨hword, Machine.port_of_decode h, hfits⟩
  · rintro ⟨rfl, rfl, h⟩
    exact decode_encode h

/-- No command has a reserved operation code (spec/30_encoding.md R94, R96). -/
theorem cmdOp_encode_lt (i : Instr) : (cmdOp (encode i)).toNat < 0xB := by
  cases i <;> simp [encode]

/-- Settles O1: one row of the opcode map for each constructor. -/
theorem decodeOfEncodeIsIdentity : Obligations.DecodeOfEncodeIsIdentity := fun _ h => decode_encode h

/-- Settles O2: the first direction of the decoder's characterisation. -/
theorem decodedWordReencodes : Obligations.DecodedWordReencodes := fun _ _ _ h => decode_eq_ok_iff.mp h

/-- Settles O4: the written-out words are the encoder's, and the last one's operation code belongs to the other port. -/
theorem writtenWordsDecode : Obligations.WrittenWordsDecode :=
  ⟨decode_encode (i := .nop .w) rfl, decode_encode (i := .nop .r) rfl, decode_encode (i := .rxbyte 0x48) rfl,
    decode_encode (i := .irq 15) rfl, decode_encode (i := .arm 128) rfl, decode_encode (i := .push 0xAA) rfl,
    decode_encode (i := .len) rfl, rfl⟩

end Sys2Proof
end

section
/-! PROOFS. Which words are commands, by their fields (spec/30_encoding.md R91, R92, R94, R95): each line of the table of fields
is the encoder's word of one command, and no other word decodes. -/

namespace Sys2Proof

/-- A word with the fields of a command's word is that command. -/
theorem toOption_decode_of_fields {c : Cmd} {op inst : BitVec 4} {arg : Byte} (i : Instr)
    (hword : encode i = cmdWord op inst arg) (h : i.wellFormed = true) (hop : (cmdOp c).toNat = op.toNat)
    (hinst : (cmdInst c).toNat = inst.toNat) (harg : (cmdArg c).toNat = arg.toNat) : (decode i.port c).toOption = some i := by
  have hc : c = encode i := by
    rw [hword, ← BitVec.eq_of_toNat_eq hop, ← BitVec.eq_of_toNat_eq hinst, ← BitVec.eq_of_toNat_eq harg, cmdWord_fields]
  rw [hc, decode_encode h, Except.toOption]

/-- Settles O3: a line's word is its command's; where no line applies, a command read from the word would be a line. -/
theorem decodeReadsTheFields : Obligations.DecodeReadsTheFields := by
  intro p c
  split
  next hop hinst harg => exact toOption_decode_of_fields (.nop _) rfl rfl hop hinst harg
  next hop hinst => exact toOption_decode_of_fields (.rxbyte _) rfl rfl hop hinst rfl
  next hop hinst harg => exact toOption_decode_of_fields .rxidle rfl rfl hop hinst harg
  next hop hinst harg => exact toOption_decode_of_fields .tick rfl rfl hop hinst harg
  next hop harg =>
    exact toOption_decode_of_fields (.irq _) rfl (decide_eq_true (cmdInst c).isLt) hop (by simp) harg
  next hop hinst =>
    exact toOption_decode_of_fields (.arm _) rfl (decide_eq_true (cmdArg c).isLt) hop hinst (by simp)
  next hop hinst harg => exact toOption_decode_of_fields .stop rfl rfl hop hinst harg
  next hop hinst => exact toOption_decode_of_fields (.push _) rfl rfl hop hinst rfl
  next hop hinst harg => exact toOption_decode_of_fields .poll rfl rfl hop hinst harg
  next hop hinst harg => exact toOption_decode_of_fields .pop rfl rfl hop hinst harg
  next hop hinst harg => exact toOption_decode_of_fields .len rfl rfl hop hinst harg
  next hrxbyte harm hpush hirq hnop hrxidle htick hstop hpoll hpop hlen =>
    cases hdecode : decode _ c with
    | error e => rfl
    | ok i =>
      exfalso
      obtain ⟨rfl, rfl, -⟩ := decode_eq_ok_iff.mp hdecode
      cases i with
      | nop p => exact hnop (by simp [encode]) (by simp [encode]) (by simp [encode])
      | rxbyte b => exact hrxbyte rfl (by simp [encode]) (by simp [encode])
      | rxidle => exact hrxidle rfl rfl rfl rfl
      | tick => exact htick rfl rfl rfl rfl
      | irq i => exact hirq rfl (by simp [encode]) (by simp [encode])
      | arm n => exact harm rfl (by simp [encode]) (by simp [encode])
      | stop => exact hstop rfl rfl rfl rfl
      | push b => exact hpush rfl (by simp [encode]) (by simp [encode])
      | poll => exact hpoll rfl rfl rfl rfl
      | pop => exact hpop rfl rfl rfl rfl
      | len => exact hlen rfl rfl rfl rfl

end Sys2Proof
end

section
/-! PROOFS. Taking a word (spec/30_encoding.md R95, R96, R98): what a port does with a legal and with an illegal word, and how
the R port waits while a poll runs. -/

namespace Sys2Proof.Machine

/-! ### A word on its port -/

theorem runWord_of_decode {p : Port} {c : Cmd} {i : Instr} (s : State) (h : decode p c = .ok i) :
    runWord p c s = exec i s := by
  rw [runWord, h]

theorem runWord_of_illegal {p : Port} {c : Cmd} {e : DecodeError} (s : State) (h : decode p c = .error e) :
    runWord p c s = .next (illegalWord p s) := by
  rw [runWord, h]

/-- Settles O5: the two ports' records, and no word with a reserved operation code is a command's. -/
theorem illegalWordOnlyRecords : Obligations.IllegalWordOnlyRecords := by
  refine ⟨fun c e s h => runWord_of_illegal s h, fun c e s h => runWord_of_illegal s h, fun p c hreserved => ?_⟩
  cases hdecode : decode p c with
  | error e => exact ⟨e, rfl⟩
  | ok i =>
    obtain ⟨rfl, -⟩ := encode_of_decode hdecode
    exact absurd (cmdOp_encode_lt i) (not_lt.mpr hreserved)

/-! ### The R port -/

theorem whenReady_of_busy (s : State) (k : State → Result) (h : s.r.pStep ≠ .idle) : whenReady s k = .next s := if_neg h

theorem takeR_of_busy {s : State} (h : s.r.pStep ≠ .idle) : takeR s = .next s := if_neg h

/-- A ready R port takes the oldest waiting word (spec/30_encoding.md R98). -/
theorem takeR_of_waiting {s : State} {c : Cmd} {ws : List Cmd} (hidle : s.r.pStep = .idle) (hwait : s.rWait = c :: ws) :
    takeR s = runWord .r c { s with rWait := ws } := by
  rw [takeR, if_pos hidle, hwait]

/-- An offered word joins the queue's end before a ready R port takes the queue's head (spec/30_encoding.md R98). -/
theorem offerR_of_ready {s : State} {c d : Cmd} {ws : List Cmd} (hidle : s.r.pStep = .idle)
    (hqueue : s.rWait ++ [d] = c :: ws) : offerR d s = runWord .r c { s with rWait := ws } :=
  takeR_of_waiting (s := { s with rWait := s.rWait ++ [d] }) hidle hqueue

/-- While a poll runs no command of the R port has an effect (spec/30_encoding.md R98). -/
theorem exec_of_busy {i : Instr} {s : State} (hbusy : s.r.pStep ≠ .idle) (hport : i.port = .r) : exec i s = .next s := by
  cases i with
  | nop p => cases hport; rw [exec, execNop, whenReady_of_busy s _ hbusy]
  | poll => rw [exec, execPoll, whenReady_of_busy s _ hbusy]
  | pop => rw [exec, execPop, whenReady_of_busy s _ hbusy]
  | len => rw [exec, execLen, whenReady_of_busy s _ hbusy]
  | rxbyte | rxidle | tick | irq | arm | stop | push => cases hport

/-- Settles O7: an offered word joins the queue, and only a ready port takes the queue's head. -/
theorem runningPollHoldsTheRPort : Obligations.RunningPollHoldsTheRPort := by
  refine ⟨fun s c hbusy => ⟨?_, ?_⟩, fun s i hbusy hport => exec_of_busy hbusy hport,
    fun s c d ws hidle hwait => ⟨?_, ?_⟩⟩
  · exact takeR_of_busy (s := queued s (s.rWait ++ [c])) hbusy
  · exact takeR_of_busy (s := quiet s) hbusy
  · exact takeR_of_waiting (s := quiet s) hidle hwait
  · exact offerR_of_ready (s := quiet s) hidle (congrArg (· ++ [d]) hwait)

/-! ### The step -/

theorem step_of_agenda {s : State} {e : Event} {rest : List Event} (h : s.agenda = e :: rest) :
    step s = perform e { s with agenda := rest } := by
  rw [step, pendingEvent, drawEvent, h]

theorem step_of_no_agenda {s : State} (h : s.agenda = []) :
    step s = perform (Config.nextEvent s.choice) { s with choice := s.choice + 1 } := by
  rw [step, pendingEvent, drawEvent, h]

theorem perform_wWord {c : Cmd} {i : Instr} (s : State) (h : decode .w c = .ok i) :
    perform (.wWord c) s = exec i (quiet s) := runWord_of_decode (quiet s) h

theorem perform_rWord_of_free {c : Cmd} {i : Instr} {s : State} (h : decode .r c = .ok i) (hidle : s.r.pStep = .idle)
    (hwait : s.rWait = []) : perform (.rWord c) s = exec i (quiet s) := by
  have hqueue : s.rWait ++ [c] = c :: s.rWait := by rw [hwait, List.nil_append]
  exact (offerR_of_ready (s := quiet s) hidle hqueue).trans (runWord_of_decode (quiet s) h)

theorem perform_rTake_of_waiting {c : Cmd} {ws : List Cmd} {i : Instr} {s : State} (h : decode .r c = .ok i)
    (hidle : s.r.pStep = .idle) (hwait : s.rWait = c :: ws) : perform .rTake s = exec i (queued s ws) :=
  (takeR_of_waiting (s := quiet s) hidle hwait).trans (runWord_of_decode (queued s ws) h)

/-- Settles O6: the step performs the event it draws, and each way of taking a word runs the decoded command. -/
theorem stepRunsTheDecodedCommand : Obligations.StepRunsTheDecodedCommand := by
  refine ⟨fun s c rest i hagenda h => ?_, fun s c rest i hagenda h hidle hwait => ?_,
    fun s c ws rest i hagenda h hidle hwait => ?_, fun s e rest hagenda => step_of_agenda hagenda,
    fun s hnone => step_of_no_agenda hnone, fun s c i h => perform_wWord s h,
    fun s c i h hidle hwait => perform_rWord_of_free h hidle hwait⟩
  · exact (step_of_agenda hagenda).trans (perform_wWord _ h)
  · exact (step_of_agenda hagenda).trans (perform_rWord_of_free h hidle hwait)
  · exact (step_of_agenda hagenda).trans (perform_rTake_of_waiting h hidle hwait)

end Sys2Proof.Machine
end

section
/-! SUPPORT. The commands of the line, forwards: what a W-port answer leaves unchanged, and for each command an equation per branch
of its rule (spec/40_line_capture.md). -/

namespace Sys2Proof.Machine

variable {s : State}

/-! ### The answer on the W port -/

/-- An answer on the W port after any change of the W registers and of one memory keeps the rest of the state. -/
theorem wCommandFrame_store (s : State) (sp : Space) (m : Memory) (w' : WRegs) (code : RspCode) (val : Byte) :
    wCommandFrame s (State.respondW { s.setMem sp m with w := w' } code val) code val := by
  cases sp <;> exact ⟨rfl, rfl, rfl, rfl, rfl, rfl, rfl, rfl, rfl⟩

theorem wCommandFrame_answer (s : State) (w' : WRegs) (code : RspCode) (val : Byte) :
    wCommandFrame s (State.respondW { s with w := w' } code val) code val :=
  wCommandFrame_store s .capb s.capb w' code val

theorem sameMemory_answer (s : State) (w' : WRegs) (code : RspCode) (val : Byte) :
    sameMemory s (State.respondW { s with w := w' } code val) := fun _ _ => rfl

/-- A refusal without a record: the W port answers `(NAK, 0)` and no register moves. -/
theorem wCommandFrame_nak (s : State) : wCommandFrame s (s.respondW .nak 0) .nak 0 := wCommandFrame_answer s s.w .nak 0

theorem sameMemory_nak (s : State) : sameMemory s (s.respondW .nak 0) := sameMemory_answer s s.w .nak 0

/-! ### The line's signals -/

theorem exec_nop_w (s : State) : exec (.nop .w) s = .next (s.respondW .ok 0) := rfl

theorem exec_nop_r_of_ready (hidle : s.r.pStep = .idle) : exec (.nop .r) s = .next (s.respondR .ok 0) :=
  whenReady_of_idle s (fun s => .next (s.respondR .ok 0)) hidle

/-- The stored byte raises the boundary event exactly where it fills the buffer under a policy that has a handler. -/
theorem pending_or_full (pending : Bool) (handled full : Prop) [Decidable handled] [Decidable full] :
    (pending || (decide handled && decide full)) = if handled ∧ full then true else pending := by
  by_cases h : handled ∧ full
  · rw [if_pos h, decide_eq_true h.1, decide_eq_true h.2, Bool.and_self, Bool.or_true]
  · rw [if_neg h, ← Bool.decide_and, decide_eq_false h, Bool.or_false]

/-- The W registers after `RXBYTE` stored a byte. -/
def wStored (s : State) : WRegs :=
  { s.w with
    lastTime := s.w.now, cePtr := s.w.cePtr + 1
    irqPending := if s.build.policy ≠ .timeout ∧ s.w.cePtr.toNat + 1 = s.w.ceLen.toNat then true else s.w.irqPending }

theorem exec_rxbyte_of_room {b : Byte} (hcap : s.w.ceLen.toNat ≤ s.build.cap)
    (hroom : s.w.ceArmed = true ∧ s.w.cePtr.toNat < s.w.ceLen.toNat) :
    exec (.rxbyte b) s =
      .next (State.respondW { s.setMem .capb (s.capb.insert s.w.cePtr.toNat b) with w := wStored s } .ok 0) := by
  have hindex : s.w.cePtr.toNat < (stampLine s).build.size .capb := lt_of_lt_of_le hroom.2 hcap
  rw [exec, execRxbyte, if_pos hroom, writeThen_of_lt _ _ _ _ _ hindex, wStored, ← pending_or_full]
  rfl

theorem exec_rxbyte_of_no_room {b : Byte} (hfull : ¬ (s.w.ceArmed = true ∧ s.w.cePtr.toNat < s.w.ceLen.toNat)) :
    exec (.rxbyte b) s = .next ((raise .lineOverrun 1 (stampLine s)).respondW .nak 0) := if_neg hfull

theorem exec_rxidle_of_captured (h : s.build.policy ≠ .timeout ∧ s.w.ceArmed = true ∧ 0 < s.w.cePtr.toNat) :
    exec .rxidle s = .next (State.respondW { s with w := { s.w with irqPending := true } } .ok 0) := if_pos h

theorem exec_rxidle_of_nothing (h : ¬ (s.build.policy ≠ .timeout ∧ s.w.ceArmed = true ∧ 0 < s.w.cePtr.toNat)) :
    exec .rxidle s = .next (s.respondW .nak 0) := if_neg h

theorem exec_tick (s : State) :
    exec .tick s = .next (State.respondW { s with w := { s.w with now := s.w.now + 1 } } .ok 0) := rfl

/-! ### The Capture Engine's commands -/

theorem exec_arm_of_free {n : Nat}
    (h : (1 ≤ n ∧ n ≤ s.build.cap) ∧ s.w.ceArmed = false ∧ s.w.hStep = .idle ∧ s.r.toReady = false) :
    exec (.arm n) s =
      .next (State.respondW
        { s with w := { s.w with ceLen := BitVec.ofNat 8 n, cePtr := 0, ceArmed := true, irqPending := false } } .ok 0) :=
  if_pos h

theorem exec_arm_refused {n : Nat}
    (h : ¬ ((1 ≤ n ∧ n ≤ s.build.cap) ∧ s.w.ceArmed = false ∧ s.w.hStep = .idle ∧ s.r.toReady = false)) :
    exec (.arm n) s = .next (s.respondW .nak 0) := if_neg h

theorem exec_stop_of_armed (h : s.w.ceArmed = true ∧ s.w.hStep = .idle) :
    exec .stop s = .next (State.respondW { s with w := { s.w with ceArmed := false, irqPending := false } } .ok 0) :=
  if_pos h

theorem exec_stop_refused (h : ¬ (s.w.ceArmed = true ∧ s.w.hStep = .idle)) :
    exec .stop s = .next (s.respondW .nak 0) := if_neg h

end Sys2Proof.Machine
end

section
/-! PROOFS. The line and the Capture Engine (spec/40_line_capture.md): each command against its rule, branch by branch, and the
boundary state that the idle signal and reset leave (spec/10_state.md R42). -/

namespace Sys2Proof.Machine

/-! ### The line -/

/-- Settles O8: on the W port always, on the R port where it is ready. -/
theorem nopOnlyAnswers : Obligations.NopOnlyAnswers :=
  ⟨exec_nop_w, fun _ hidle => exec_nop_r_of_ready hidle⟩

/-- Settles O9: where there is room the index is inside `CAPB`, since `ce_ptr < ce_len ≤ CAP`. -/
theorem rxbyteStoresOrDrops : Obligations.RxbyteStoresOrDrops := by
  intro b s hcap
  by_cases hroom : s.w.ceArmed = true ∧ s.w.cePtr.toNat < s.w.ceLen.toNat
  · refine ⟨_, exec_rxbyte_of_room hcap hroom, ?_⟩
    rw [if_pos hroom]
    exact ⟨wCommandFrame_store s .capb _ _ .ok 0, rfl, byteAt_insert_self s .capb s.w.cePtr.toNat b,
      sameMemoryBut_insert .capb s.w.cePtr.toNat b ⟨rfl, rfl⟩⟩
  · refine ⟨_, exec_rxbyte_of_no_room hroom, ?_⟩
    rw [if_neg hroom]
    exact ⟨wCommandFrame_answer s _ .nak 0, sameMemory_answer s _ .nak 0, rfl⟩

/-- Settles O10: the two branches of the rule. -/
theorem rxidleRaisesTheEvent : Obligations.RxidleRaisesTheEvent := by
  intro s
  by_cases hcaptured : s.build.policy ≠ .timeout ∧ s.w.ceArmed = true ∧ 0 < s.w.cePtr.toNat
  · refine ⟨_, exec_rxidle_of_captured hcaptured, sameMemory_answer s _ .ok 0, ?_⟩
    rw [if_pos hcaptured]
    exact ⟨wCommandFrame_answer s _ .ok 0, rfl⟩
  · refine ⟨_, exec_rxidle_of_nothing hcaptured, sameMemory_nak s, ?_⟩
    rw [if_neg hcaptured]
    exact ⟨wCommandFrame_nak s, rfl⟩

/-- Settles O11: the 32-bit sum is the sum modulo `2 ^ 32`. -/
theorem tickAdvancesTime : Obligations.TickAdvancesTime := fun s =>
  ⟨_, exec_tick s, wCommandFrame_answer s _ .ok 0, sameMemory_answer s _ .ok 0, rfl, BitVec.toNat_add s.w.now 1⟩

/-! ### The Capture Engine -/

/-- A count that the engine can be armed with fits the 8 bits of `ce_len`, since `CAP ≤ 128`. -/
theorem toNat_ofNat_of_le_cap {b : Build} {n : Nat} (h : n ≤ b.cap) : (BitVec.ofNat 8 n).toNat = n := by
  have hcap := b.cap_le
  exact Nat.mod_eq_of_lt (show n < 256 by omega)

/-- Settles O13: the two branches of the rule; an accepted count is kept whole. -/
theorem armLoadsTheEngine : Obligations.ArmLoadsTheEngine := by
  intro n s
  by_cases hfree : (1 ≤ n ∧ n ≤ s.build.cap) ∧ s.w.ceArmed = false ∧ s.w.hStep = .idle ∧ s.r.toReady = false
  · have hfits : n ≤ s.build.cap := hfree.1.2
    refine ⟨_, exec_arm_of_free hfree, sameMemory_answer s _ .ok 0, ?_⟩
    rw [if_pos hfree]
    exact ⟨wCommandFrame_answer s _ .ok 0, toNat_ofNat_of_le_cap hfits, rfl⟩
  · refine ⟨_, exec_arm_refused hfree, sameMemory_nak s, ?_⟩
    rw [if_neg hfree]
    exact ⟨wCommandFrame_nak s, rfl⟩

/-- Settles O14: the two branches of the rule. -/
theorem stopHaltsTheEngine : Obligations.StopHaltsTheEngine := by
  intro s
  by_cases harmed : s.w.ceArmed = true ∧ s.w.hStep = .idle
  · refine ⟨_, exec_stop_of_armed harmed, sameMemory_answer s _ .ok 0, ?_⟩
    rw [if_pos harmed]
    exact ⟨wCommandFrame_answer s _ .ok 0, rfl⟩
  · refine ⟨_, exec_stop_refused harmed, sameMemory_nak s, ?_⟩
    rw [if_neg harmed]
    exact ⟨wCommandFrame_nak s, rfl⟩

/-! ### The boundary state -/

/-- A pending event is a ready boundary under a policy that has a handler (spec/10_state.md R42). -/
theorem bdState_of_pending {s : State} (hpolicy : s.build.policy ≠ .timeout) (hpending : s.w.irqPending = true) :
    s.bdState = .ready := by
  have hready : s.readyTrue = true := by
    unfold State.readyTrue
    cases hp : s.build.policy with
    | timeout => exact absurd hp hpolicy
    | idle | ring => simp only [hpending, Bool.true_or]
  exact if_pos hready

/-- After reset nothing is pending, no handler runs, the slot is free and the ring is empty, so no policy has a ready boundary. -/
theorem readyTrue_resetOf (b : Build) : (State.resetOf b).readyTrue = false := by
  have hempty : (State.resetOf b).lenTrue = 0 := by
    obtain ⟨hmodulus, -⟩ := Build.modulus_bounds b
    exact ptrDiff_self b 0 (show 0 < b.modulus by omega)
  unfold State.readyTrue
  cases hp : (State.resetOf b).build.policy with
  | timeout | idle => rfl
  | ring => simp only [hempty]; rfl

/-- Settles O59: the idle signal sets the pending bit that `Ready` reads; after reset nothing is ready and no byte captured. -/
theorem idleSignalMakesReady : Obligations.IdleSignalMakesReady := by
  refine ⟨fun s hpolicy harmed hsome => ⟨_, exec_rxidle_of_captured ⟨hpolicy, harmed, hsome⟩, ?_⟩, fun b => ?_⟩
  · exact bdState_of_pending hpolicy rfl
  · rw [State.bdState, readyTrue_resetOf]
    rfl

end Sys2Proof.Machine
end

section
/-! SUPPORT. The boundary handler, forwards: the state after each branch of `IRQ` and of `HSTEP`, and an equation per branch
(spec/41_boundary_handler.md R151 to R158). -/

namespace Sys2Proof.Machine

variable {s : State}

/-! ### `IRQ` -/

theorem exec_irq_foreign {i : Nat} (hi : i ≠ s.build.inst.toNat) :
    exec (.irq i) s = .next ((raise .spurious 1 s).respondW .nak 0) := if_pos hi

/-- The interrupt has no boundary to serve. -/
abbrev nothingToServe (s : State) : Prop := s.build.policy = .timeout ∨ s.w.irqPending = false ∨ s.w.hStep ≠ .idle

theorem exec_irq_of_nothing (h : nothingToServe s) : exec (.irq s.build.inst.toNat) s = .next (s.respondW .nak 0) :=
  (if_neg (not_not_intro rfl)).trans (if_pos h)

theorem exec_irq_accepted (h : ¬ nothingToServe s) :
    exec (.irq s.build.inst.toNat) s = .next ((boundaryEntry s).respondW .ok s.w.cePtr) :=
  (if_neg (not_not_intro rfl)).trans (if_neg h)

/-- A pending boundary is served: no handler runs yet and the policy has one (spec/10_state.md R45 b). -/
theorem not_nothingToServe_of_pending (h : captureOrdered s) (hpending : s.w.irqPending = true) : ¬ nothingToServe s := by
  obtain ⟨-, -, hirq, -, -⟩ := h
  obtain ⟨-, hidle, -, hpolicy⟩ := hirq hpending
  simp [nothingToServe, hpolicy, hpending, hidle]

/-- The W registers of a handler that starts to copy. -/
def wEntered (s : State) : WRegs :=
  { s.w with ceArmed := false, hCount := s.w.cePtr, hIdx := 0, irqPending := false, hStep := .copy }

/-- The W registers of a handler whose frame the occupied slot has rejected. -/
def wRejected (s : State) : WRegs :=
  { s.w with
    ceArmed := false, hCount := s.w.cePtr, hIdx := 0, irqPending := false, ovfSlot := true
    dropSlotCnt := satAdd s.w.dropSlotCnt s.w.cePtr.toNat, hStep := .clear }

theorem boundaryEntry_of_occupied (h : s.build.policy = .idle ∧ s.slotOccW = true) :
    boundaryEntry s = { s with w := wRejected s } := by
  obtain ⟨-, -, hentry⟩ | ⟨hfree, -⟩ := boundaryEntry_cases s
  · exact hentry
  · exact absurd h hfree

theorem boundaryEntry_of_free (h : ¬ (s.build.policy = .idle ∧ s.slotOccW = true)) :
    boundaryEntry s = { s with w := wEntered s } := by
  obtain ⟨hidle, hocc, -⟩ | ⟨-, hentry⟩ := boundaryEntry_cases s
  · exact absurd ⟨hidle, hocc⟩ h
  · exact hentry

/-! ### The states `HSTEP` leaves -/

/-- One byte of the event is in the ring. -/
def handlerPushed (s : State) : State :=
  { (quiet s).setMem .ring (s.ring.insert s.tail (s.byteAt .capb s.w.hIdx.toNat)) with
    w := { s.w with wbin := ptrNext s.build s.w.wbin, hIdx := s.w.hIdx + 1 } }

/-- The rest of the event is given up. -/
def handlerGaveUp (s : State) : State :=
  { quiet s with
    w := { s.w with
      ovfRing := true, dropRingCnt := satAdd s.w.dropRingCnt (s.w.hCount.toNat - s.w.hIdx.toNat), hIdx := s.w.hCount } }

/-- The copy into the ring is over. -/
def handlerEnded (s : State) : State := { quiet s with w := { s.w with hStep := .clear } }

/-- One byte of the event is in the slot. -/
def handlerFilled (s : State) : State :=
  { (quiet s).setMem .xfer (s.xfer.insert s.w.hIdx.toNat (s.byteAt .capb s.w.hIdx.toNat)) with
    w := { s.w with hIdx := s.w.hIdx + 1 } }

/-- The slot is published. -/
def handlerPublished (s : State) : State :=
  { quiet s with w := { s.w with xferLen := s.w.hCount, xw := !s.w.xw, hStep := .clear } }

/-- `CAPB` is clear. -/
def handlerCleared (s : State) : State :=
  { (quiet s).setMem .capb (Memory.filled s.build.cap 0) with w := { s.w with hStep := .rearm } }

/-- The engine is armed again. -/
def handlerReturned (s : State) : State :=
  { quiet s with w := { s.w with cePtr := 0, ceArmed := true, hStep := .idle } }

/-! ### `HSTEP` -/

theorem perform_hstep_ring (hcopy : s.w.hStep = .copy) (hpolicy : s.build.policy = .ring) :
    perform .hstep s = handlerCopyRing (quiet s) := by
  simp only [perform, hstep, handlerCopy, quiet_w, quiet_build, hcopy, hpolicy]

theorem perform_hstep_idle (hcopy : s.w.hStep = .copy) (hpolicy : s.build.policy = .idle) :
    perform .hstep s = handlerCopyIdle (quiet s) := by
  simp only [perform, hstep, handlerCopy, quiet_w, quiet_build, hcopy, hpolicy]

theorem perform_hstep_clear (hclear : s.w.hStep = .clear) : perform .hstep s = .next (handlerCleared s) := by
  simp only [perform, hstep, quiet_w, hclear]
  rfl

theorem perform_hstep_rearm (hrearm : s.w.hStep = .rearm) : perform .hstep s = .next (handlerReturned s) := by
  simp only [perform, hstep, quiet_w, hrearm]
  rfl

section Copying

variable (hcopy : s.w.hStep = .copy) (hcount : s.w.hCount.toNat ≤ s.build.cap)

include hcopy hcount in
/-- The byte pushed is one of `CAPB`, since `h_idx < h_count ≤ CAP` (spec/41_boundary_handler.md R153). -/
theorem perform_hstep_push (hpolicy : s.build.policy = .ring) (hleft : s.w.hIdx.toNat < s.w.hCount.toNat)
    (hroom : s.lenW < s.build.c) : perform .hstep s = .next (handlerPushed s) := by
  have hindex : s.w.hIdx.toNat < (quiet s).build.size .capb := lt_of_lt_of_le hleft hcount
  calc perform .hstep s = handlerCopyRing (quiet s) := perform_hstep_ring hcopy hpolicy
    _ = readThen (quiet s) .capb s.w.hIdx.toNat _ := (if_pos hleft).trans (if_pos hroom)
    _ = .next (handlerPushed s) := by rw [readThen_of_lt _ _ _ _ hindex, ringAppend_eq]; rfl

include hcopy in
theorem perform_hstep_giveUp (hpolicy : s.build.policy = .ring) (hleft : s.w.hIdx.toNat < s.w.hCount.toNat)
    (hfull : ¬ s.lenW < s.build.c) : perform .hstep s = .next (handlerGaveUp s) :=
  (perform_hstep_ring hcopy hpolicy).trans ((if_pos hleft).trans (if_neg hfull))

include hcopy in
theorem perform_hstep_end (hpolicy : s.build.policy = .ring) (hdone : ¬ s.w.hIdx.toNat < s.w.hCount.toNat) :
    perform .hstep s = .next (handlerEnded s) :=
  (perform_hstep_ring hcopy hpolicy).trans (if_neg hdone)

include hcopy hcount in
/-- The byte is copied between two memories of `CAP` bytes (spec/41_boundary_handler.md R154). -/
theorem perform_hstep_fill (hpolicy : s.build.policy = .idle) (hleft : s.w.hIdx.toNat < s.w.hCount.toNat) :
    perform .hstep s = .next (handlerFilled s) := by
  have hindex : s.w.hIdx.toNat < s.build.cap := lt_of_lt_of_le hleft hcount
  calc perform .hstep s = handlerCopyIdle (quiet s) := perform_hstep_idle hcopy hpolicy
    _ = readThen (quiet s) .capb s.w.hIdx.toNat _ := if_pos hleft
    _ = writeThen (quiet s) .xfer s.w.hIdx.toNat _ _ := readThen_of_lt _ .capb _ _ hindex
    _ = .next (handlerFilled s) := writeThen_of_lt _ .xfer _ _ _ hindex

include hcopy in
theorem perform_hstep_publish (hpolicy : s.build.policy = .idle) (hdone : ¬ s.w.hIdx.toNat < s.w.hCount.toNat) :
    perform .hstep s = .next (handlerPublished s) :=
  (perform_hstep_idle hcopy hpolicy).trans (if_neg hdone)

end Copying

end Sys2Proof.Machine
end

section
/-! PROOFS. The boundary handler's rules (spec/41_boundary_handler.md): `IRQ` and each state of `HSTEP`, branch by branch. -/

namespace Sys2Proof.Machine

/-! ### A silent step -/

/-- A silent step after any change of the W registers and of one memory keeps the rest of the state. -/
theorem autonomousFrame_store (s : State) (sp : Space) (m : Memory) (w' : WRegs) :
    autonomousFrame s { (quiet s).setMem sp m with w := w' } := by
  cases sp <;> exact ⟨rfl, rfl, rfl, rfl, rfl, rfl, rfl, rfl⟩

theorem autonomousFrame_w (s : State) (w' : WRegs) : autonomousFrame s { quiet s with w := w' } :=
  autonomousFrame_store s .capb s.capb w'

theorem sameMemory_w (s : State) (w' : WRegs) : sameMemory s { quiet s with w := w' } := fun _ _ => rfl

/-! ### `IRQ` -/

/-- Settles O12: the four branches of the rule. -/
theorem irqCountsRefusesOrEnters : Obligations.IrqCountsRefusesOrEnters := by
  intro i s
  by_cases hi : i = s.build.inst.toNat
  · subst hi
    by_cases hnothing : nothingToServe s
    · refine ⟨_, exec_irq_of_nothing hnothing, sameMemory_nak s, ?_⟩
      rw [if_neg (not_not_intro rfl), if_pos hnothing]
      exact ⟨wCommandFrame_nak s, rfl⟩
    · refine ⟨_, exec_irq_accepted hnothing, ?_⟩
      rw [if_neg (not_not_intro rfl), if_neg hnothing]
      by_cases hocc : s.build.policy = .idle ∧ s.w.xw ≠ s.w.xrW2
      · rw [if_pos hocc, boundaryEntry_of_occupied ⟨hocc.1, bne_iff_ne.mpr hocc.2⟩]
        exact ⟨sameMemory_answer s _ .ok _, wCommandFrame_answer s _ .ok _, rfl⟩
      · rw [if_neg hocc, boundaryEntry_of_free fun h => hocc ⟨h.1, bne_iff_ne.mp h.2⟩]
        exact ⟨sameMemory_answer s _ .ok _, wCommandFrame_answer s _ .ok _, rfl⟩
  · refine ⟨_, exec_irq_foreign hi, sameMemory_answer s _ .nak 0, ?_⟩
    rw [if_pos hi]
    exact ⟨wCommandFrame_answer s _ .nak 0, rfl⟩

/-! ### `HSTEP` -/

/-- Settles O20: the three branches of the rule. -/
theorem handlerPushesOneByte : Obligations.HandlerPushesOneByte := by
  intro s hpolicy hcopy hcount
  by_cases hleft : s.w.hIdx.toNat < s.w.hCount.toNat
  · by_cases hroom : s.lenW < s.build.c
    · refine ⟨_, perform_hstep_push hcopy hcount hpolicy hleft hroom, autonomousFrame_store s .ring _ _, rfl, ?_⟩
      rw [if_pos hleft, if_pos hroom]
      exact ⟨rfl, ptrNext_toNat s.build s.w.wbin, byteAt_insert_self s .ring s.tail _,
        sameMemoryBut_insert (s := s) .ring s.tail _ ⟨rfl, rfl⟩⟩
    · refine ⟨_, perform_hstep_giveUp hcopy hpolicy hleft hroom, autonomousFrame_w s _, rfl, ?_⟩
      rw [if_pos hleft, if_neg hroom]
      exact ⟨sameMemory_w s _, rfl⟩
  · refine ⟨_, perform_hstep_end hcopy hpolicy hleft, autonomousFrame_w s _, rfl, ?_⟩
    rw [if_neg hleft]
    exact ⟨sameMemory_w s _, rfl⟩

/-- Settles O21: the two branches of the rule. -/
theorem handlerFillsAndPublishesTheSlot : Obligations.HandlerFillsAndPublishesTheSlot := by
  intro s hpolicy hcopy hcount
  by_cases hleft : s.w.hIdx.toNat < s.w.hCount.toNat
  · refine ⟨_, perform_hstep_fill hcopy hcount hpolicy hleft, autonomousFrame_store s .xfer _ _, rfl, ?_⟩
    rw [if_pos hleft]
    exact ⟨rfl, byteAt_insert_self s .xfer s.w.hIdx.toNat _, sameMemoryBut_insert (s := s) .xfer s.w.hIdx.toNat _ ⟨rfl, rfl⟩⟩
  · refine ⟨_, perform_hstep_publish hcopy hpolicy hleft, autonomousFrame_w s _, rfl, ?_⟩
    rw [if_neg hleft]
    exact ⟨sameMemory_w s _, rfl⟩

/-- Settles O22: `CAPB` filled with zeros, the only memory written. -/
theorem handlerClearsTheCaptureBuffer : Obligations.HandlerClearsTheCaptureBuffer := fun s hclear =>
  ⟨_, perform_hstep_clear hclear, autonomousFrame_store s .capb _ _, rfl, rfl,
    fun i hi => byteAt_memFill s .capb 0 i hi, sameMemoryBut_memFill .capb 0 fun _ => rfl⟩

/-- Settles O23: the handler's return. -/
theorem handlerRearmsTheEngine : Obligations.HandlerRearmsTheEngine := fun s hrearm =>
  ⟨_, perform_hstep_rearm hrearm, autonomousFrame_w s _, rfl, sameMemory_w s _, rfl⟩

end Sys2Proof.Machine
end

section
/-! PROOFS. The two sequencers come to their end (spec/41_boundary_handler.md R152, spec/43_consumer.md R223): which
steps move a running sequencer, how far each of its own steps takes it, and that it ends with the engine armed
(spec/41_boundary_handler.md R161, spec/60_exceptions.md R256). -/

namespace Sys2Proof.Machine

variable {e : Event} {s t : State}

/-! ### The steps that move a running sequencer -/

/-- Only the handler's own step has the name of `HSTEP`. -/
theorem event_of_name_hstep (h : stepName e s = some "HSTEP") : e = .hstep := by
  cases htaken : takenCommand e s with
  | some i => cases i <;> simp [stepName, htaken, Instr.mnemonic] at h
  | none => cases e <;> simp [stepName, htaken] at h ⊢

/-- Only the poll's own step has the name of `PSTEP`. -/
theorem event_of_name_pstep (h : stepName e s = some "PSTEP") : e = .pstep := by
  cases htaken : takenCommand e s with
  | some i => cases i <;> simp [stepName, htaken, Instr.mnemonic] at h
  | none => cases e <;> simp [stepName, htaken] at h ⊢

/-- A step of the name of `POLL` executes a `POLL`. -/
theorem takenCommand_of_name_poll (h : stepName e s = some "POLL") : takenCommand e s = some .poll := by
  cases htaken : takenCommand e s with
  | some i => cases i <;> simp [stepName, htaken, Instr.mnemonic] at h ⊢
  | none => cases e <;> simp [stepName, htaken] at h

/-- The handler's sequencer and its counts are the same. -/
def sameHandler (s t : State) : Prop := t.w.hStep = s.w.hStep ∧ t.w.hCount = s.w.hCount ∧ t.w.hIdx = s.w.hIdx

/-- The poll's sequencer and its counts are the same. -/
def samePoll (s t : State) : Prop := t.r.pStep = s.r.pStep ∧ t.r.pCount = s.r.pCount ∧ t.r.pIdx = s.r.pIdx

/-- `IRQ` has nothing to serve while a handler runs (spec/41_boundary_handler.md R151). -/
theorem execIrq_sameHandler {i : Nat} (hrun : s.w.hStep ≠ .idle) (h : execIrq i s = .next t) : sameHandler s t := by
  obtain ⟨-, rfl⟩ | ⟨-, -, rfl⟩ | ⟨-, -, -, hidle, -⟩ := execIrq_cases h
  · exact ⟨rfl, rfl, rfl⟩
  · exact ⟨rfl, rfl, rfl⟩
  · exact absurd hidle hrun

/-- A running handler is moved by `HSTEP` alone, reset apart: the only other writer of its registers is `IRQ`. -/
theorem perform_sameHandler (hrun : s.w.hStep ≠ .idle) (hown : e ≠ .hstep) (hreset : e ≠ .reset)
    (h : perform e s = .next t) : sameHandler s t := by
  have hname : stepName e s ≠ some "HSTEP" := fun hn => hown (event_of_name_hstep hn)
  by_cases hirq : stepName e s = some "IRQ"
  · obtain ⟨i, htaken⟩ := takenCommand_of_name_irq hirq
    obtain ⟨ws, hexec⟩ := exec_of_takenCommand htaken h
    exact execIrq_sameHandler (s := queued s ws) hrun hexec
  · obtain ⟨-, -, -, -, -, -, hstep, hcount, hidx, -⟩ := wRegistersHaveTheirWriters e s t hreset h
    exact ⟨by_contra fun hne => by simpa [hirq, hname] using hstep hne, by_contra fun hne => hirq (hcount hne),
      by_contra fun hne => by simpa [hirq, hname] using hidx hne⟩

/-- A running poll is moved by `PSTEP` alone, reset apart: the only other writer is `POLL`, which is not taken. -/
theorem perform_samePoll (hrun : s.r.pStep ≠ .idle) (hown : e ≠ .pstep) (hreset : e ≠ .reset)
    (h : perform e s = .next t) : samePoll s t := by
  have hname : stepName e s ≠ some "PSTEP" := fun hn => hown (event_of_name_pstep hn)
  by_cases hpoll : stepName e s = some "POLL"
  · obtain ⟨ws, hexec⟩ := exec_of_takenCommand (takenCommand_of_name_poll hpoll) h
    rw [exec_of_busy (s := queued s ws) hrun rfl] at hexec
    cases hexec
    exact ⟨rfl, rfl, rfl⟩
  · obtain ⟨-, -, -, hstep, hcount, -⟩ := rRegistersHaveTheirWriters e s t hreset h
    exact ⟨by_contra fun hne => by simpa [hpoll, hname] using hstep (.inl hne), by_contra fun hne => hpoll (hcount hne),
      by_contra fun hne => by simpa [hpoll, hname] using hstep (.inr hne)⟩

/-! ### The steps still needed -/

theorem handlerMeasure_congr (h : sameHandler s t) : handlerMeasure t = handlerMeasure s := by
  obtain ⟨hstep, hcount, hidx⟩ := h
  simp only [handlerMeasure, hstep, hcount, hidx]

theorem pollMeasure_congr (h : samePoll s t) : pollMeasure t = pollMeasure s := by
  obtain ⟨hstep, hcount, hidx⟩ := h
  simp only [pollMeasure, hstep, hcount, hidx]

/-- A byte pushed takes one step off, the rest given up leaves three, and the end of the copy two. -/
theorem handlerCopyRing_lowers_measure (hcopy : s.w.hStep = .copy) (h : handlerCopyRing s = .next t) :
    handlerMeasure t < handlerMeasure s := by
  obtain ⟨hleft, -, -, rfl⟩ | ⟨hleft, -, rfl⟩ | ⟨-, rfl⟩ := handlerCopyRing_cases h
  · simp only [handlerMeasure, hcopy, toNat_succ_of_lt hleft]
    omega
  · simp only [handlerMeasure, hcopy]
    omega
  · simp only [handlerMeasure, hcopy]
    omega

/-- A byte copied takes one step off, and the publication leaves two. -/
theorem handlerCopyIdle_lowers_measure (hcopy : s.w.hStep = .copy) (h : handlerCopyIdle s = .next t) :
    handlerMeasure t < handlerMeasure s := by
  obtain ⟨hleft, -, rfl⟩ | ⟨-, rfl⟩ := handlerCopyIdle_cases h
  · simp only [handlerMeasure, hcopy, toNat_succ_of_lt hleft]
    omega
  · simp only [handlerMeasure, hcopy]
    omega

/-- Each `HSTEP` of a running handler comes nearer to its end; under `TIMEOUT` none runs
(spec/41_boundary_handler.md R155). -/
theorem hstep_lowers_measure (hinv : s.Inv) (hrun : s.w.hStep ≠ .idle) (h : hstep s = .next t) :
    handlerMeasure t < handlerMeasure s := by
  obtain ⟨hidle, -⟩ | ⟨-, hpolicy, -⟩ | ⟨hcopy, -, h⟩ | ⟨hcopy, -, h⟩ | ⟨hclear, rfl⟩ | ⟨hrearm, rfl⟩ := hstep_cases h
  · exact absurd hidle hrun
  · exact absurd (no_boundary_of_timeout hinv.capture hpolicy).2 hrun
  · exact handlerCopyRing_lowers_measure hcopy h
  · exact handlerCopyIdle_lowers_measure hcopy h
  · simp only [handlerMeasure, hclear, Nat.one_lt_two]
  · simp only [handlerMeasure, hrearm, boundaryReturn_w, Nat.zero_lt_one]

/-- An accepted `IRQ` starts with nothing copied, or past the copy (spec/41_boundary_handler.md R159). -/
theorem handlerMeasure_of_execIrq {i : Nat} (hidle : s.w.hStep = .idle) (h : execIrq i s = .next t) :
    handlerMeasure t ≤ t.w.hCount.toNat + 3 := by
  have hnone : handlerMeasure s ≤ s.w.hCount.toNat + 3 := by simp only [handlerMeasure, hidle, Nat.zero_le]
  obtain ⟨-, rfl⟩ | ⟨-, -, rfl⟩ | ⟨-, -, -, -, rfl⟩ := execIrq_cases h
  · exact hnone
  · exact hnone
  · obtain ⟨-, -, hentry⟩ | ⟨-, hentry⟩ := boundaryEntry_cases s <;> rw [hentry]
    · exact Nat.le_add_left 2 (s.w.cePtr.toNat + 1)
    · exact Nat.add_le_add_right (Nat.sub_le _ _) 3

/-- A byte drained takes one step off, and the end of the drain leaves three. -/
theorem pollCopy_counts_down (hcopy : s.r.pStep = .copy) (h : pollCopy s = .next t) :
    pollMeasure t + 1 = pollMeasure s := by
  obtain ⟨hleft, -, -, rfl⟩ | ⟨hleft, -, -, sp, -, rfl⟩ | ⟨hdone, rfl⟩ := pollCopy_cases h
  · simp only [pollMeasure, hcopy, toNat_succ_of_lt hleft]
    omega
  · simp only [pollMeasure, hcopy, toNat_succ_of_lt hleft]
    omega
  · simp only [pollMeasure, hcopy, Nat.sub_eq_zero_of_le hdone]

/-- Each `PSTEP` of a running poll takes exactly one off the steps it needs. -/
theorem pstep_counts_down (hrun : s.r.pStep ≠ .idle) (h : pstep s = .next t) : pollMeasure t + 1 = pollMeasure s := by
  obtain ⟨hidle, -⟩ | ⟨hcopy, h⟩ | ⟨hdeliver, h⟩ | ⟨hclear, rfl⟩ | ⟨hreset, rfl⟩ := pstep_cases h
  · exact absurd hidle hrun
  · exact pollCopy_counts_down hcopy h
  · obtain ⟨-, rfl⟩ := pollDeliver_cases h
    simp only [pollMeasure, hdeliver]
  · simp only [pollMeasure, hclear]
  · simp only [pollMeasure, hreset]

/-- A ready `POLL` starts its drain with nothing copied (spec/43_consumer.md R230). -/
theorem pollMeasure_of_execPoll (hidle : s.r.pStep = .idle) (hready : pollReady s = true) (h : execPoll s = .next t) :
    pollMeasure t = t.r.pCount.toNat + 4 := by
  obtain ⟨hbusy, -⟩ | ⟨-, ⟨-, -, rfl⟩ | ⟨-, -, rfl⟩ | ⟨-, -, rfl⟩ | ⟨htimeout, hslot, hring, -⟩⟩ := execPoll_cases h
  · exact absurd hidle hbusy
  · rfl
  · rfl
  · rfl
  · exfalso
    unfold pollReady at hready
    split at hready
    next hp => exact absurd hready (Bool.eq_false_iff.mp (htimeout hp))
    next hp => exact absurd hready (Bool.eq_false_iff.mp (hslot hp))
    next hp => simp [hring hp] at hready

/-- Settles O46: a sequencer's own steps count down, and no other step moves it. -/
theorem sequencersCountDown : Obligations.SequencersCountDown := by
  intro s hinv
  refine ⟨fun hrun => ?_, fun e t hrun hown hreset h => handlerMeasure_congr (perform_sameHandler hrun hown hreset h),
    fun i t hidle h => handlerMeasure_of_execIrq hidle h, fun hrun => ?_,
    fun e t hrun hown hreset h => pollMeasure_congr (perform_samePoll hrun hown hreset h), fun hidle hready => ?_⟩
  · obtain ⟨t, ht⟩ := perform_completes hinv .hstep
    exact ⟨t, ht, hstep_lowers_measure (s := quiet s) (hinv.queued s.rWait) hrun ht⟩
  · obtain ⟨t, ht⟩ := perform_completes hinv .pstep
    exact ⟨t, ht, pstep_counts_down (s := quiet s) hrun ht⟩
  · obtain ⟨t, ht⟩ := exec_completes hinv .poll
    exact ⟨t, ht, pollMeasure_of_execPoll hidle hready ht⟩

/-! ### The end -/

/-- The engine is armed at offset 0 with its count kept. -/
def rearmed (s t : State) : Prop := t.w.ceArmed = true ∧ t.w.cePtr = 0 ∧ t.w.ceLen = s.w.ceLen

/-- The handler ends by its return (spec/41_boundary_handler.md R158). -/
theorem hstep_ends_armed (hrun : s.w.hStep ≠ .idle) (hend : t.w.hStep = .idle) (h : hstep s = .next t) :
    rearmed s t := by
  obtain ⟨hidle, -⟩ | ⟨-, -, rfl⟩ | ⟨hcopy, -, h⟩ | ⟨hcopy, -, h⟩ | ⟨-, rfl⟩ | ⟨-, rfl⟩ := hstep_cases h
  · exact absurd hidle hrun
  · exact absurd hend hrun
  · obtain ⟨-, -, -, rfl⟩ | ⟨-, -, rfl⟩ | ⟨-, rfl⟩ := handlerCopyRing_cases h
    · exact absurd hend hrun
    · exact absurd hend hrun
    · cases hend
  · obtain ⟨-, -, rfl⟩ | ⟨-, rfl⟩ := handlerCopyIdle_cases h
    · exact absurd hend hrun
    · cases hend
  · cases hend
  · exact ⟨rfl, rfl, rfl⟩

/-- No `POLL` withdraws a declared boundary. -/
theorem execPoll_keeps_toReady (hto : s.r.toReady = true) (h : execPoll s = .next t) : t.r.toReady = true := by
  obtain ⟨-, rfl⟩ | ⟨-, ⟨-, -, rfl⟩ | ⟨-, -, rfl⟩ | ⟨-, -, rfl⟩ | ⟨-, -, -, rfl⟩⟩ := execPoll_cases h
  · exact hto
  · rfl
  · exact hto
  · exact hto
  · exact hto

/-- A declared boundary is withdrawn by the last step of its drain (spec/43_consumer.md R229). -/
theorem pstep_ends_armed (hto : s.r.toReady = true) (hend : t.r.toReady = false) (h : pstep s = .next t) :
    rearmed s t := by
  have hkept : ¬ s.r.toReady = false := by simp [hto]
  obtain ⟨-, rfl⟩ | ⟨-, h⟩ | ⟨-, h⟩ | ⟨-, rfl⟩ | ⟨-, rfl⟩ := pstep_cases h
  · exact absurd hend hkept
  · obtain ⟨-, -, -, rfl⟩ | ⟨-, -, -, sp, -, rfl⟩ | ⟨-, rfl⟩ := pollCopy_cases h <;> exact absurd hend hkept
  · obtain ⟨-, rfl⟩ := pollDeliver_cases h
    exact absurd hend hkept
  · exact absurd hend hkept
  · revert hend
    unfold pollRelease
    split
    case h_1 => exact fun _ => ⟨rfl, rfl, rfl⟩
    case h_2 => exact fun hend => absurd hend hkept
    case h_3 => exact fun hend => absurd hend hkept

/-- Settles O57: the only steps that end a sequence are its own, and the last of them arms the engine. -/
theorem everySequenceEndsArmed : Obligations.EverySequenceEndsArmed := by
  intro e s t hreset h
  refine ⟨fun hrun hend => ?_, fun hto hend => ?_⟩
  · by_cases hown : e = .hstep
    · subst hown
      exact hstep_ends_armed (s := quiet s) hrun hend h
    · obtain ⟨hkept, -⟩ := perform_sameHandler hrun hown hreset h
      exact absurd (hkept.symm.trans hend) hrun
  · obtain ⟨-, -, -, -, -, -, hwriters, -⟩ := rRegistersHaveTheirWriters e s t hreset h
    obtain ⟨hname, -⟩ := hwriters (by simp [hto, hend])
    simp only [List.mem_cons, List.not_mem_nil, or_false] at hname
    obtain hpoll | hpstep := hname
    · obtain ⟨ws, hexec⟩ := exec_of_takenCommand (takenCommand_of_name_poll hpoll) h
      exact absurd hend (by simp [execPoll_keeps_toReady (s := queued s ws) hto hexec])
    · obtain rfl := event_of_name_pstep hpstep
      exact pstep_ends_armed (s := quiet s) hto hend h

end Sys2Proof.Machine
end

section
/-! SUPPORT. Whole runs of the handler (spec/41_boundary_handler.md R159): steps in sequence, a byte joining the ring's
back, the bytes of an event copied one after another, and the two steps that follow the copy. -/

namespace Sys2Proof.Machine

variable {s t u : State}

/-! ### Steps in sequence -/

/-- One more step of the same agent. -/
theorem iterate_snoc {e : Event} {m : Nat} (h : iterate e m s = .next t) (hlast : perform e t = .next u) :
    iterate e (m + 1) s = .next u := by
  induction m generalizing s with
  | zero =>
    cases h
    rw [iterate, hlast]
    rfl
  | succ m ih =>
    obtain ⟨v, hfirst, hrest⟩ := andThen_cases h
    rw [iterate, hfirst]
    exact ih hrest

/-! ### The ring's back -/

/-- The front one step on is one step farther, as long as it does not go around the circle. -/
theorem ptrDiff_ptrNext_left (b : Build) {x y : Ptr} (hx : x.toNat < b.modulus) (hy : y.toNat < b.modulus)
    (hroom : ptrDiff b x y < b.c) : ptrDiff b (ptrNext b x) y = ptrDiff b x y + 1 := by
  have hm := Build.c_lt_modulus b
  rw [ptrDiff_of_lt b x y hx hy] at hroom ⊢
  rw [ptrDiff_of_lt b _ y (ptrNext_lt b x) hy, ptrNext_of_lt b x hx]
  split_ifs at hroom ⊢ <;> omega

/-- The state with a byte appended at the ring's tail. -/
def ringAppended (s : State) (v : Byte) : State :=
  { s with ring := s.ring.insert s.tail v, w := { s.w with wbin := ptrNext s.build s.w.wbin } }

/-- The producer sees one byte more after it appended one. -/
theorem lenW_ringAppended (hp : pointersInRange s) (hroom : s.lenW < s.build.c) (v : Byte) :
    (ringAppended s v).lenW = s.lenW + 1 := by
  obtain ⟨⟨hwbin, -, hrg2⟩, -⟩ := hp
  exact ptrDiff_ptrNext_left s.build hwbin (g2b_lt s.build hrg2) hroom

/-- There is one unread byte more. -/
theorem lenTrue_ringAppended (hp : pointersInRange s) (hroom : s.lenTrue < s.build.c) (v : Byte) :
    (ringAppended s v).lenTrue = s.lenTrue + 1 := by
  obtain ⟨⟨hwbin, -⟩, hrbin, -⟩ := hp
  exact ptrDiff_ptrNext_left s.build hwbin hrbin hroom

/-- The place after the last unread byte is the tail. -/
theorem ring_index_lenTrue (hp : pointersInRange s) : (s.r.rbin.toNat + s.lenTrue) % s.build.c = s.tail := by
  obtain ⟨⟨hwbin, -⟩, hrbin, -⟩ := hp
  exact ring_end_index s.build hwbin hrbin

/-- Unread bytes of a ring that is not full lie at other places than its tail. -/
theorem ring_index_ne_tail (hp : pointersInRange s) (hroom : s.lenTrue < s.build.c) {k : Nat} (hk : k < s.lenTrue) :
    (s.r.rbin.toNat + k) % s.build.c ≠ s.tail := by
  intro hsame
  have hmod : s.r.rbin.toNat + k ≡ s.r.rbin.toNat + s.lenTrue [MOD s.build.c] :=
    hsame.trans (ring_index_lenTrue hp).symm
  exact hk.ne (Nat.ModEq.eq_of_lt_of_lt (Nat.ModEq.add_left_cancel' _ hmod) (hk.trans hroom) hroom)

/-- A byte appended at the tail joins the unread bytes at the back (spec/42_ring.md R181, R204). -/
theorem ringContents_ringAppended (hp : pointersInRange s) (hroom : s.lenTrue < s.build.c) (v : Byte) :
    (ringAppended s v).ringContents = s.ringContents ++ [v] := by
  have hold : ∀ k ∈ List.range s.lenTrue, (ringAppended s v).byteAt .ring ((s.r.rbin.toNat + k) % s.build.c) =
      s.byteAt .ring ((s.r.rbin.toNat + k) % s.build.c) := fun k hk =>
    byteAt_insert_of_ne s .ring .ring s.tail _ v fun hsame =>
      ring_index_ne_tail hp hroom (List.mem_range.mp hk) hsame.2
  have hnew : (ringAppended s v).byteAt .ring ((s.r.rbin.toNat + s.lenTrue) % s.build.c) = v := by
    rw [ring_index_lenTrue hp]
    exact byteAt_insert_self s .ring s.tail v
  rw [State.ringContents, lenTrue_ringAppended hp hroom, List.range_succ, List.map_append, List.map_singleton]
  exact congrArg₂ (fun front back => front ++ [back]) (List.map_congr_left hold) hnew

/-! ### The copy -/

/-- The handler has gone through the next `k` bytes of its event: of the W registers only the ring's write pointer
and the index have moved, and the event's bytes are where they were. -/
structure CopyRun (k : Nat) (s t : State) : Prop where
  regs : t.w = { s.w with wbin := t.w.wbin, hIdx := t.w.hIdx }
  index : t.w.hIdx.toNat = s.w.hIdx.toNat + k
  rside : t.r = s.r
  build : t.build = s.build
  source : t.capb = s.capb
  epoch : t.epoch = s.epoch

theorem CopyRun.refl (s : State) : CopyRun 0 s s := ⟨rfl, rfl, rfl, rfl, rfl, rfl⟩

theorem CopyRun.cons {k : Nat} (h : CopyRun 1 s t) (h' : CopyRun k t u) : CopyRun (k + 1) s u where
  regs := h'.regs.trans (by rw [h.regs])
  index := by rw [h'.index, h.index, Nat.add_assoc, Nat.add_comm 1 k]
  rside := h'.rside.trans h.rside
  build := h'.build.trans h.build
  source := h'.source.trans h.source
  epoch := h'.epoch.trans h.epoch

/-- Every other W register is as it was. -/
theorem CopyRun.reg {α : Type} {k : Nat} (h : CopyRun k s t) (f : WRegs → α)
    (hother : ∀ w p i, f { w with wbin := p, hIdx := i } = f w) : f t.w = f s.w :=
  (congrArg f h.regs).trans (hother _ _ _)

theorem CopyRun.hStep {k : Nat} (h : CopyRun k s t) : t.w.hStep = s.w.hStep := h.reg WRegs.hStep fun _ _ _ => rfl

theorem CopyRun.hCount {k : Nat} (h : CopyRun k s t) : t.w.hCount = s.w.hCount := h.reg WRegs.hCount fun _ _ _ => rfl

theorem CopyRun.byteAt_capb {k : Nat} (h : CopyRun k s t) (i : Nat) : t.byteAt .capb i = s.byteAt .capb i :=
  byteAt_congr (sp := .capb) h.source h.epoch i

theorem copyRun_pushed (hleft : s.w.hIdx.toNat < s.w.hCount.toNat) : CopyRun 1 s (handlerPushed s) :=
  ⟨rfl, toNat_succ_of_lt hleft, rfl, rfl, rfl, rfl⟩

theorem copyRun_filled (hleft : s.w.hIdx.toNat < s.w.hCount.toNat) : CopyRun 1 s (handlerFilled s) :=
  ⟨rfl, toNat_succ_of_lt hleft, rfl, rfl, rfl, rfl⟩

/-- As many bytes as fit join the ring in order, one a step (spec/41_boundary_handler.md R153). -/
theorem iterate_push (k : Nat) (hinv : s.Inv) (hpolicy : s.build.policy = .ring) (hcopy : s.w.hStep = .copy)
    (hleft : s.w.hIdx.toNat + k ≤ s.w.hCount.toNat) (hfits : s.lenW + k ≤ s.build.c) :
    ∃ t, iterate .hstep k s = .next t ∧ CopyRun k s t ∧ t.lenW = s.lenW + k ∧
      t.ringContents = s.ringContents ++ (List.range' s.w.hIdx.toNat k).map fun i => s.byteAt .capb i := by
  induction k generalizing s with
  | zero => exact ⟨s, rfl, .refl s, rfl, by simp⟩
  | succ k ih =>
    obtain ⟨-, ⟨-, hcount⟩, -⟩ := hinv.capture
    obtain ⟨-, htrue, -⟩ := hinv.views
    have hnext : s.w.hIdx.toNat < s.w.hCount.toNat := by omega
    have hroom : s.lenW < s.build.c := by omega
    have hstep := perform_hstep_push hcopy hcount hpolicy hnext hroom
    have hone := copyRun_pushed hnext
    have hlen : (handlerPushed s).lenW = s.lenW + 1 :=
      lenW_ringAppended hinv.pointers hroom (s.byteAt .capb s.w.hIdx.toNat)
    have hjoined : (handlerPushed s).ringContents = s.ringContents ++ [s.byteAt .capb s.w.hIdx.toNat] :=
      ringContents_ringAppended hinv.pointers (by omega) _
    obtain ⟨t, ht, hrun, hlen', hjoined'⟩ := ih (perform_keeps_inv hinv hstep) hpolicy hcopy
      (by rw [hone.index, hone.hCount]; omega) (by rw [hlen, hone.build]; omega)
    refine ⟨t, ?_, hone.cons hrun, by omega, ?_⟩
    · rw [iterate, hstep]
      exact ht
    · simp only [hjoined', hjoined, hone.index, hone.byteAt_capb, List.range'_succ, List.map_cons, List.append_assoc,
        List.singleton_append]

/-- The slot holds the event's bytes as far as they are copied. -/
def slotHolds (s : State) : Prop := ∀ i, i < s.w.hIdx.toNat → s.byteAt .xfer i = s.byteAt .capb i

theorem slotHolds_filled (hleft : s.w.hIdx.toNat < s.w.hCount.toNat) (h : slotHolds s) :
    slotHolds (handlerFilled s) := by
  intro i hi
  rw [(copyRun_filled hleft).index] at hi
  rw [(copyRun_filled hleft).byteAt_capb]
  by_cases hlast : i = s.w.hIdx.toNat
  · subst hlast
    exact byteAt_insert_self s .xfer _ _
  · exact (byteAt_insert_of_ne s .xfer .xfer _ i _ fun hsame => hlast hsame.2).trans (h i (by omega))

/-- The next bytes are copied into the slot, one a step (spec/41_boundary_handler.md R154). -/
theorem iterate_fill (k : Nat) (hcount : s.w.hCount.toNat ≤ s.build.cap) (hpolicy : s.build.policy = .idle)
    (hcopy : s.w.hStep = .copy) (hleft : s.w.hIdx.toNat + k ≤ s.w.hCount.toNat) (hslot : slotHolds s) :
    ∃ t, iterate .hstep k s = .next t ∧ CopyRun k s t ∧ slotHolds t := by
  induction k generalizing s with
  | zero => exact ⟨s, rfl, .refl s, hslot⟩
  | succ k ih =>
    have hnext : s.w.hIdx.toNat < s.w.hCount.toNat := by omega
    have hone := copyRun_filled hnext
    obtain ⟨t, ht, hrun, hslot'⟩ := ih (s := handlerFilled s) hcount hpolicy hcopy
      (by rw [hone.index, hone.hCount]; omega) (slotHolds_filled hnext hslot)
    refine ⟨t, ?_, hone.cons hrun, hslot'⟩
    rw [iterate, perform_hstep_fill hcopy hcount hpolicy hnext]
    exact ht

/-! ### The start and the end -/

/-- The state of a handler that starts to copy. -/
def handlerEntered (s : State) : State := State.respondW { s with w := wEntered s } .ok s.w.cePtr

/-- The state of a handler whose frame the occupied slot has rejected. -/
def handlerRejected (s : State) : State := State.respondW { s with w := wRejected s } .ok s.w.cePtr

theorem exec_irq_enters (h : captureOrdered s) (hpending : s.w.irqPending = true)
    (hfree : ¬ (s.build.policy = .idle ∧ s.slotOccW = true)) :
    exec (.irq s.build.inst.toNat) s = .next (handlerEntered s) := by
  rw [exec_irq_accepted (not_nothingToServe_of_pending h hpending), boundaryEntry_of_free hfree, handlerEntered]

theorem exec_irq_rejects (h : captureOrdered s) (hpending : s.w.irqPending = true)
    (hocc : s.build.policy = .idle ∧ s.slotOccW = true) :
    exec (.irq s.build.inst.toNat) s = .next (handlerRejected s) := by
  rw [exec_irq_accepted (not_nothingToServe_of_pending h hpending), boundaryEntry_of_occupied hocc, handlerRejected]

/-- Two steps after the copy the handler is over (spec/41_boundary_handler.md R156, R158). -/
theorem iterate_hstep_return {m : Nat} (h : iterate .hstep m s = .next t) (hclear : t.w.hStep = .clear) :
    iterate .hstep (m + 1) s = .next (handlerCleared t) ∧
      iterate .hstep (m + 2) s = .next (handlerReturned (handlerCleared t)) :=
  have hcleared := iterate_snoc h (perform_hstep_clear hclear)
  ⟨hcleared, iterate_snoc hcleared (perform_hstep_rearm rfl)⟩

theorem byteAt_capb_handlerCleared {i : Nat} (hi : i < s.build.cap) : (handlerCleared s).byteAt .capb i = 0 :=
  byteAt_memFill s .capb 0 i hi

/-- The first bytes of an event, by index. -/
theorem take_span (s : State) (sp : Space) {k n : Nat} (h : k ≤ n) : (s.span sp n).take k = s.span sp k := by
  rw [State.span, ← List.map_take, List.take_range, Nat.min_eq_left h, State.span]

end Sys2Proof.Machine
end

section
/-! PROOFS. A whole boundary handling, from the accepted interrupt to the engine armed again
(spec/41_boundary_handler.md R159, R161): the frame in the ring, the part of it that fits, and the frame in the slot. -/

namespace Sys2Proof.Machine

variable {s v : State} {k : Nat}

theorem CopyRun.hIdx_of_entered (h : CopyRun k (handlerEntered s) v) : v.w.hIdx.toNat = k :=
  h.index.trans (Nat.zero_add k)

theorem CopyRun.hCount_of_entered (h : CopyRun k (handlerEntered s) v) : v.w.hCount = s.w.cePtr := h.hCount

/-- Once it has gone through all the captured bytes the copy has none left. -/
theorem CopyRun.done (h : CopyRun s.w.cePtr.toNat (handlerEntered s) v) : ¬ v.w.hIdx.toNat < v.w.hCount.toNat := by
  rw [h.hIdx_of_entered, h.hCount_of_entered]
  exact lt_irrefl _

/-- The whole event in the slot. -/
theorem span_xfer_of_slotHolds (h : CopyRun s.w.cePtr.toNat (handlerEntered s) v) (hslot : slotHolds v) :
    v.span .xfer s.w.cePtr.toNat = s.span .capb s.w.cePtr.toNat :=
  List.map_congr_left fun i hi =>
    (hslot i (lt_of_lt_of_eq (List.mem_range.mp hi) h.hIdx_of_entered.symm)).trans (h.byteAt_capb i)

/-- Under `RING` the handler is entered and its first `k` bytes are pushed, where they fit. -/
theorem handler_pushes_first (hinv : s.Inv) (hpolicy : s.build.policy = .ring) (hpending : s.w.irqPending = true)
    (hk : k ≤ s.w.cePtr.toNat) (hfits : s.lenW + k ≤ s.build.c) :
    exec (.irq s.build.inst.toNat) s = .next (handlerEntered s) ∧
      ∃ v, iterate .hstep k (handlerEntered s) = .next v ∧ CopyRun k (handlerEntered s) v ∧ v.lenW = s.lenW + k ∧
        v.ringContents = s.ringContents ++ s.span .capb k := by
  have hirq := exec_irq_enters hinv.capture hpending (by simp [hpolicy])
  have hleft : 0 + k ≤ s.w.cePtr.toNat := by omega
  obtain ⟨v, hv, hrun, hlen, hjoined⟩ := iterate_push k (exec_keeps_inv hinv hirq) hpolicy rfl hleft hfits
  refine ⟨hirq, v, hv, hrun, hlen, hjoined.trans ?_⟩
  rw [State.span, List.range_eq_range']
  rfl

/-- Settles O42: `n` bytes pushed, the copy ended, `CAPB` cleared, the engine armed again. -/
theorem handlerRunMovesTheFrame : Obligations.HandlerRunMovesTheFrame := by
  intro s hinv hpolicy hpending hfits
  obtain ⟨hirq, v, hv, hrun, -, hjoined⟩ := handler_pushes_first hinv hpolicy hpending (le_refl _) hfits
  have hend := iterate_snoc hv (perform_hstep_end hrun.hStep (by rw [hrun.build]; exact hpolicy) hrun.done)
  obtain ⟨hu, ht⟩ := iterate_hstep_return hend rfl
  have hclear : ∀ i, i < s.build.cap → (handlerCleared (handlerEnded v)).byteAt .capb i = 0 := fun i hi =>
    byteAt_capb_handlerCleared (s := handlerEnded v) (lt_of_lt_of_eq hi (congrArg Build.cap hrun.build).symm)
  exact ⟨_, _, _, hirq, hu, rfl, ht, rfl, hjoined, rfl, rfl, hrun.reg WRegs.ceLen fun _ _ _ => rfl,
    hrun.reg WRegs.dropRingCnt fun _ _ _ => rfl, hclear, hrun.rside⟩

/-- Settles O43: the `k` bytes that fit pushed, the rest given up where the ring is full, and the run ended as above. -/
theorem handlerRunRejectsTheRest : Obligations.HandlerRunRejectsTheRest := by
  intro s hinv hpolicy hpending hover
  obtain ⟨-, -, hle⟩ := hinv.views
  have hk : s.build.c - s.lenW < s.w.cePtr.toNat := by omega
  obtain ⟨hirq, v, hv, hrun, hlen, hjoined⟩ :=
    handler_pushes_first hinv hpolicy hpending hk.le (Nat.add_sub_cancel' hle).le
  have hidx := hrun.hIdx_of_entered
  have hcount := hrun.hCount_of_entered
  have hbuild : v.build = s.build := hrun.build
  have hring : v.build.policy = .ring := by rw [hbuild, hpolicy]
  have hfull : ¬ v.lenW < v.build.c := by rw [hlen, hbuild]; omega
  have hgaveUp := iterate_snoc hv (perform_hstep_giveUp hrun.hStep hring (by rw [hidx, hcount]; exact hk) hfull)
  have hend := iterate_snoc hgaveUp (perform_hstep_end (s := handlerGaveUp v) hrun.hStep hring (lt_irrefl _))
  obtain ⟨hu, ht⟩ := iterate_hstep_return hend rfl
  have hdrop : satAdd v.w.dropRingCnt (v.w.hCount.toNat - v.w.hIdx.toNat) =
      satAdd s.w.dropRingCnt (s.w.cePtr.toNat - (s.build.c - s.lenW)) := by
    rw [hidx, hcount]
    exact congrArg (satAdd · _) (hrun.reg WRegs.dropRingCnt fun _ _ _ => rfl)
  rw [← take_span s .capb hk.le] at hjoined
  exact ⟨_, _, _, hirq, hu, rfl, ht, rfl, hjoined, rfl, hdrop, rfl, rfl, hrun.rside⟩

/-- Settles O44: an occupied slot skips the copy; a free one is filled and published, and the run ended as above. -/
theorem handlerRunPublishesTheSlot : Obligations.HandlerRunPublishesTheSlot := by
  intro s hinv hpolicy hpending
  by_cases hocc : s.slotOccW = true
  · obtain ⟨hu, ht⟩ := iterate_hstep_return (m := 0) (s := handlerRejected s) rfl rfl
    refine ⟨_, handlerCleared (handlerRejected s), handlerReturned (handlerCleared (handlerRejected s)),
      exec_irq_rejects hinv.capture hpending ⟨hpolicy, hocc⟩, rfl, rfl, rfl, rfl, rfl, ?_⟩
    rw [if_pos hocc]
    exact ⟨hu, ht, rfl, rfl, fun _ => rfl⟩
  · have hirq := exec_irq_enters hinv.capture hpending fun h => hocc h.2
    obtain ⟨⟨hptr, hcap⟩, -⟩ := hinv.capture
    have hleft : 0 + s.w.cePtr.toNat ≤ s.w.cePtr.toNat := by omega
    have hnothing : slotHolds (handlerEntered s) := fun i hi => absurd hi (Nat.not_lt_zero i)
    obtain ⟨v, hv, hrun, hslot⟩ :=
      iterate_fill (s := handlerEntered s) s.w.cePtr.toNat (hptr.trans hcap) hpolicy rfl hleft hnothing
    have hend := iterate_snoc hv (perform_hstep_publish hrun.hStep (by rw [hrun.build]; exact hpolicy) hrun.done)
    obtain ⟨hu, ht⟩ := iterate_hstep_return hend rfl
    have hpublished := span_xfer_of_slotHolds hrun hslot
    refine ⟨_, handlerCleared (handlerPublished v), handlerReturned (handlerCleared (handlerPublished v)), hirq, rfl,
      rfl, rfl, rfl, hrun.rside, ?_⟩
    rw [if_neg hocc]
    exact ⟨hu, ht, hrun.reg (fun w => !w.xw) fun _ _ _ => rfl, hrun.hCount_of_entered, hpublished⟩

end Sys2Proof.Machine
end

section
/-! SUPPORT. The ring's commands, forwards: what an R-port answer leaves unchanged, and for each command an equation per branch of
its rule (spec/42_ring.md R181, R186, R190). -/

namespace Sys2Proof.Machine

variable {s : State}

/-! ### The answer on the R port -/

/-- An answer on the R port after any change of the R registers keeps the rest of the state. -/
theorem rCommandFrame_answer (s : State) (r' : RRegs) (code : RspCode) (val : Byte) :
    rCommandFrame s (State.respondR { s with r := r' } code val) code val :=
  ⟨rfl, rfl, rfl, rfl, rfl, rfl, rfl, rfl, rfl⟩

theorem sameMemory_answerR (s : State) (r' : RRegs) (code : RspCode) (val : Byte) :
    sameMemory s (State.respondR { s with r := r' } code val) := fun _ _ => rfl

/-! ### `PUSH` -/

/-- The write port is the handler's (spec/42_ring.md R181). -/
abbrev handlerOwnsRing (s : State) : Prop := s.build.policy = .ring ∧ s.w.hStep ≠ .idle

theorem exec_push_owned {b : Byte} (hown : handlerOwnsRing s) : exec (.push b) s = .next (s.respondW .nak 0) := if_pos hown

theorem exec_push_full {b : Byte} (hfree : ¬ handlerOwnsRing s) (hfull : s.lenW = s.build.c) :
    exec (.push b) s = .next ((raise .ringOverrun 1 s).respondW .nak 0) := (if_neg hfree).trans (if_pos hfull)

theorem exec_push_room {b : Byte} (hfree : ¬ handlerOwnsRing s) (hroom : s.lenW ≠ s.build.c) :
    exec (.push b) s = .next ((ringAppended s b).respondW .ok 0) := by
  rw [exec, execPush, if_neg hfree, if_neg hroom, ringAppend_eq]
  rfl

/-! ### `POP` and `LEN` -/

/-- The state with the byte at the ring's head removed. -/
def ringRemoved (s : State) : State := { s with r := { s.r with rbin := ptrNext s.build s.r.rbin } }

theorem exec_pop_empty (hidle : s.r.pStep = .idle) (hempty : s.lenR = 0) : exec .pop s = .next (s.respondR .nak 0) := by
  rw [exec, execPop, whenReady_of_idle s _ hidle, if_pos hempty]

theorem exec_pop_some (hidle : s.r.pStep = .idle) (hsome : s.lenR ≠ 0) :
    exec .pop s = .next ((ringRemoved s).respondR .ok (s.byteAt .ring s.head)) := by
  rw [exec, execPop, whenReady_of_idle s _ hidle, if_neg hsome, ringRemove_eq]
  rfl

theorem exec_len_of_ready (hidle : s.r.pStep = .idle) :
    exec .len s = .next (s.respondR .ok (BitVec.ofNat 8 s.lenR)) :=
  whenReady_of_idle s (fun s => .next (s.respondR .ok (BitVec.ofNat 8 s.lenR))) hidle

/-- The consumer's count fits the response value (spec/42_ring.md R190). -/
theorem toNat_ofNat_lenR (s : State) : (BitVec.ofNat 8 s.lenR).toNat = s.lenR := by
  obtain ⟨-, hm⟩ := Build.modulus_bounds s.build
  have hlen : s.lenR < s.build.modulus := ptrDiff_lt s.build _ _
  rw [BitVec.toNat_ofNat, Nat.mod_eq_of_lt (by omega)]

end Sys2Proof.Machine
end

section
/-! PROOFS. The ring's commands and the synchronisers (spec/42_ring.md): each against its rule, branch by branch, and the views
after `SETTLE`. -/

namespace Sys2Proof.Machine

/-! ### The commands -/

/-- Settles O15: the three branches of the rule. -/
theorem pushAppendsOrRejects : Obligations.PushAppendsOrRejects := by
  intro b s
  by_cases hown : handlerOwnsRing s
  · refine ⟨_, exec_push_owned hown, ?_⟩
    rw [if_pos hown]
    exact ⟨wCommandFrame_nak s, rfl, sameMemory_nak s⟩
  · by_cases hfull : s.lenW = s.build.c
    · refine ⟨_, exec_push_full hown hfull, ?_⟩
      rw [if_neg hown, if_pos hfull]
      exact ⟨wCommandFrame_answer s _ .nak 0, sameMemory_answer s _ .nak 0, rfl⟩
    · refine ⟨_, exec_push_room hown hfull, ?_⟩
      rw [if_neg hown, if_neg hfull]
      exact ⟨wCommandFrame_store s .ring _ (ringAppended s b).w .ok 0, rfl, ptrNext_toNat s.build s.w.wbin,
        byteAt_insert_self s .ring s.tail b, sameMemoryBut_insert (s := s) .ring s.tail b ⟨rfl, rfl⟩⟩

/-- Settles O16: the two branches of the rule. -/
theorem popRemovesOrAnswersEmpty : Obligations.PopRemovesOrAnswersEmpty := by
  intro s hidle
  by_cases hempty : s.lenR = 0
  · refine ⟨_, exec_pop_empty hidle hempty, sameMemory_answerR s s.r .nak 0, ?_⟩
    rw [if_pos hempty]
    exact ⟨rCommandFrame_answer s s.r .nak 0, rfl⟩
  · refine ⟨_, exec_pop_some hidle hempty, sameMemory_answerR s _ .ok _, ?_⟩
    rw [if_neg hempty]
    exact ⟨rCommandFrame_answer s _ .ok _, rfl, ptrNext_toNat s.build s.r.rbin⟩

/-- Settles O17: the count fits the response value. -/
theorem lenAnswersTheConsumerView : Obligations.LenAnswersTheConsumerView := fun s hidle =>
  ⟨_, toNat_ofNat_lenR s, exec_len_of_ready hidle⟩

/-! ### The synchronisers -/

/-- Settles O19: both stages of each synchroniser in one step, from the values before it. -/
theorem synchronisersMoveBothStages : Obligations.SynchronisersMoveBothStages :=
  ⟨fun s => ⟨syncW (quiet s), rfl, autonomousFrame_w s _, sameMemory_w s _, rfl, rfl⟩,
    fun s => ⟨syncR (quiet s), rfl, ⟨rfl, rfl, rfl, rfl, rfl, rfl, rfl, rfl⟩, fun _ _ => rfl, rfl, rfl⟩⟩

/-- A producer whose synchronised pointer is current sees the true length. -/
theorem lenW_of_synced {s : State} (h : s.w.rgW2 = b2g s.r.rbin) : s.lenW = s.lenTrue := by
  rw [State.lenW, h, g2b_b2g, State.lenTrue]

/-- A consumer whose synchronised pointer is current sees the true length. -/
theorem lenR_of_synced {s : State} (h : s.r.wgR2 = b2g s.w.wbin) : s.lenR = s.lenTrue := by
  rw [State.lenR, h, g2b_b2g, State.lenTrue]

theorem slotOccW_of_synced {s : State} (h : s.w.xrW2 = s.r.xr) : s.slotOccW = s.slotOccTrue := by
  rw [State.slotOccW, h, State.slotOccTrue]

theorem slotRdyR_of_synced {s : State} (h : s.r.xwR2 = s.w.xw) : s.slotRdyR = s.slotOccTrue := by
  rw [State.slotRdyR, h, State.slotOccTrue]

/-- Settles O39: two edges carry each source through both stages of its synchroniser, and no step between moves a source. -/
theorem settledViewsAgree : Obligations.SettledViewsAgree := fun _ =>
  ⟨_, rfl, rfl, rfl, rfl, rfl, lenW_of_synced rfl, lenR_of_synced rfl, slotOccW_of_synced rfl, slotRdyR_of_synced rfl⟩

end Sys2Proof.Machine
end

section
/-! SUPPORT. The unread bytes under each kind of step (spec/42_ring.md R204): what leaves them as they are, and the byte at the
head. -/

namespace Sys2Proof.Machine

variable {e : Event} {s t : State}

/-! ### The step's command and its port -/

/-- The W port takes the word of its own step; the R port takes words in R steps only, and only while no poll runs. -/
theorem port_of_takenCommand {i : Instr} (h : takenCommand e s = some i) :
    (i.port = .w ∧ ∃ c, e = .wWord c) ∨ (i.port = .r ∧ isRStep e = true ∧ s.r.pStep = .idle) := by
  obtain ⟨⟨p, c⟩, hword, hdecode⟩ := Option.bind_eq_some_iff.mp h
  have hport : i.port = p := by
    cases hd : decode p c with
    | ok j =>
      rw [hd] at hdecode
      cases hdecode
      exact port_of_decode hd
    | error cause => rw [hd] at hdecode; cases hdecode
  cases e with
  | wWord => cases hword; exact .inl ⟨hport, _, rfl⟩
  | rWord | rTake =>
    simp only [takenWord, Option.ite_none_right_eq_some, Option.map_eq_some_iff, Prod.mk.injEq] at hword
    obtain ⟨hidle, -, -, rfl, -⟩ := hword
    exact .inr ⟨hport, rfl, hidle⟩
  | hstep | pstep | syncW | syncR | reset => cases hword

theorem takenCommand_of_name_push (h : stepName e s = some "PUSH") : ∃ b, takenCommand e s = some (.push b) := by
  cases htaken : takenCommand e s with
  | some i => cases i <;> simp [stepName, htaken, Instr.mnemonic] at h ⊢
  | none => cases e <;> simp [stepName, htaken] at h

theorem takenCommand_of_name_pop (h : stepName e s = some "POP") : takenCommand e s = some .pop := by
  cases htaken : takenCommand e s with
  | some i => cases i <;> simp [stepName, htaken, Instr.mnemonic] at h ⊢
  | none => cases e <;> simp [stepName, htaken] at h

/-! ### Steps that leave the ring alone -/

/-- The unread bytes are a function of the two pointers, the ring's bytes and the build. -/
theorem ringContents_congr (hbuild : t.build = s.build) (hwbin : t.w.wbin = s.w.wbin) (hrbin : t.r.rbin = s.r.rbin)
    (hbytes : ∀ i, t.byteAt .ring i = s.byteAt .ring i) : t.ringContents = s.ringContents := by
  simp only [State.ringContents, State.lenTrue, hbuild, hwbin, hrbin, hbytes]

/-- The steps that can move a byte into the ring or out of it. -/
def ringSteps : List (Option String) := [some "PUSH", some "POP", some "HSTEP", some "PSTEP"]

/-- Only `PUSH`, the handler and reset write the ring (spec/20_memory.md R65). -/
theorem not_mayWrite_ring (hreset : e ≠ .reset) (hname : stepName e s ∉ ringSteps) (i : Nat) : ¬ mayWrite e s .ring i := by
  cases htaken : takenCommand e s with
  | some j => cases j <;> simp [stepName, mayWrite, htaken, ringSteps, Instr.mnemonic] at hname ⊢
  | none => cases e <;> simp [stepName, mayWrite, htaken, ringSteps] at hname hreset ⊢

theorem perform_keeps_ringContents (hreset : e ≠ .reset) (hname : stepName e s ∉ ringSteps) (h : perform e s = .next t) :
    t.ringContents = s.ringContents := by
  obtain ⟨-, -, -, -, -, -, -, -, -, -, -, hwbin, -⟩ := wRegistersHaveTheirWriters e s t hreset h
  obtain ⟨hrbin, -⟩ := rRegistersHaveTheirWriters e s t hreset h
  simp only [ringSteps, List.mem_cons, List.not_mem_nil, or_false, not_or] at hname
  obtain ⟨hpush, hpop, hhandler, hpoll⟩ := hname
  refine ringContents_congr (perform_keeps_build h) ?_ ?_ fun i =>
    stepsWriteOnlyTheirCells e s t h .ring i (not_mayWrite_ring hreset (by simp [ringSteps, *]) i)
  · exact by_contra fun hne => by simpa [hpush, hhandler] using hwbin hne
  · exact by_contra fun hne => by simpa [hpop, hpoll] using hrbin hne

/-- A command that neither pushes nor pops leaves the queue as it is. -/
theorem queueAfter_of_command {i : Instr} (htaken : takenCommand e s = some i) (hpush : ∀ b, i ≠ .push b) (hpop : i ≠ .pop) :
    queueAfter e s = s.ringContents := by
  cases e with
  | wWord | rWord | rTake =>
    cases i with
    | push b => exact absurd rfl (hpush b)
    | pop => exact absurd rfl hpop
    | nop | rxbyte | rxidle | tick | irq | arm | stop | poll | len => simp only [queueAfter, htaken]
  | hstep | pstep | syncW | syncR | reset => cases htaken

/-- What a step other than reset can do to the queue, and under which name (spec/42_ring.md R204). -/
theorem queueAfter_cases (hreset : e ≠ .reset) :
    queueAfter e s = s.ringContents ∨
    ((stepName e s = some "PUSH" ∨ stepName e s = some "HSTEP") ∧ ∃ b, queueAfter e s = s.ringContents ++ [b]) ∨
    ((stepName e s = some "POP" ∨ stepName e s = some "PSTEP") ∧ queueAfter e s = s.ringContents.tail) := by
  cases htaken : takenCommand e s with
  | some i =>
    cases i with
    | push b =>
      simp only [queueAfter, stepName, htaken]
      split
      · exact .inl rfl
      · exact .inr (.inl ⟨.inl rfl, b, rfl⟩)
    | pop =>
      simp only [queueAfter, stepName, htaken]
      split
      · exact .inl rfl
      · exact .inr (.inr ⟨.inl rfl, rfl⟩)
    | nop | rxbyte | rxidle | tick | irq | arm | stop | poll | len => exact .inl (queueAfter_of_command htaken nofun nofun)
  | none =>
    cases e with
    | hstep =>
      simp only [queueAfter, htaken]
      split
      · exact .inr (.inl ⟨.inr rfl, _, rfl⟩)
      · exact .inl rfl
    | pstep =>
      simp only [queueAfter, htaken]
      split
      · exact .inr (.inr ⟨.inr rfl, rfl⟩)
      · exact .inl rfl
    | reset => exact absurd rfl hreset
    | wWord | rWord | rTake | syncW | syncR => exact .inl (by simp only [queueAfter, htaken])

theorem queueAfter_of_other (hreset : e ≠ .reset) (hname : stepName e s ∉ ringSteps) :
    queueAfter e s = s.ringContents := by
  obtain hsame | ⟨hpush | hpush, -⟩ | ⟨hpop | hpop, -⟩ := queueAfter_cases (s := s) hreset
  · exact hsame
  all_goals exact absurd (by simp [ringSteps, *]) hname

/-! ### The ring's front -/

/-- The byte at the head is the oldest, and the rest is what stays when it is removed (spec/42_ring.md R186, R204). -/
theorem ringContents_eq_cons (hp : pointersInRange s) (hsome : s.lenTrue ≠ 0) :
    s.ringContents = s.byteAt .ring s.head :: (ringRemoved s).ringContents := by
  obtain ⟨⟨hwbin, -⟩, hrbin, -⟩ := hp
  have hfewer : s.lenTrue = (ringRemoved s).lenTrue + 1 := (ptrDiff_ptrNext_right s.build hwbin hrbin hsome).symm
  rw [State.ringContents, hfewer, List.range_succ_eq_map, List.map_cons, List.map_map, State.ringContents]
  exact congrArg _ (List.map_congr_left fun k _ => congrArg (s.byteAt .ring) (ring_next_index s.build s.r.rbin k).symm)

theorem ringContents_ringRemoved (hp : pointersInRange s) (hsome : s.lenTrue ≠ 0) :
    (ringRemoved s).ringContents = s.ringContents.tail := by
  rw [ringContents_eq_cons hp hsome, List.tail_cons]

theorem ringContents_of_empty (hempty : s.lenTrue = 0) : s.ringContents = [] := by
  rw [State.ringContents, hempty, List.range_zero, List.map_nil]

end Sys2Proof.Machine
end

section
/-! PROOFS. The ring is a queue (spec/42_ring.md R204): the four steps that move a byte, reset, and every other step. -/

namespace Sys2Proof.Machine

variable {e : Event} {s t : State}

/-- A `PUSH` that is not refused finds true room, since the producer sees at least what is there. -/
theorem execPush_queue {b : Byte} (hinv : s.Inv) (h : execPush b s = .next t) :
    t.ringContents =
      if handlerOwnsRing s ∨ s.lenW = s.build.c then s.ringContents else s.ringContents ++ [b] := by
  obtain ⟨-, htrue, hle⟩ := hinv.views
  obtain ⟨hown, rfl⟩ | ⟨-, hfull, rfl⟩ | ⟨hfree, hroom, rfl⟩ := execPush_cases h
  · rw [if_pos (.inl hown)]; rfl
  · rw [if_pos (.inr hfull)]; rfl
  · rw [if_neg (not_or.mpr ⟨hfree, hroom⟩)]
    exact ringContents_ringAppended hinv.pointers (by omega) b

/-- A `POP` that the port takes removes the head, where the consumer sees one. -/
theorem execPop_queue (hinv : s.Inv) (hidle : s.r.pStep = .idle) (h : execPop s = .next t) :
    t.ringContents = if s.lenR = 0 then s.ringContents else s.ringContents.tail := by
  obtain ⟨hbusy, -⟩ | ⟨-, hempty, rfl⟩ | ⟨-, hsome, rfl⟩ := execPop_cases h
  · exact absurd hidle hbusy
  · rw [if_pos hempty]; rfl
  · rw [if_neg hsome]
    exact ringContents_ringRemoved hinv.pointers (hinv.lenTrue_ne_zero hsome)

/-- The handler appends the next byte of its event where the producer sees room (spec/41_boundary_handler.md R153). -/
theorem hstep_queue (hinv : s.Inv) (h : hstep s = .next t) : t.ringContents = queueAfter .hstep s := by
  obtain ⟨-, htrue, -⟩ := hinv.views
  change t.ringContents = if _ then _ else _
  obtain ⟨hidle, rfl⟩ | ⟨-, htimeout, rfl⟩ | ⟨hcopy, hring, hrun⟩ | ⟨-, hslot, hrun⟩ | ⟨hclear, rfl⟩ | ⟨hrearm, rfl⟩ :=
    hstep_cases h
  · rw [if_neg (by simp [hidle])]
  · rw [if_neg (by simp [htimeout])]
  · obtain ⟨hleft, hroom, -, rfl⟩ | ⟨-, hfull, rfl⟩ | ⟨hdone, rfl⟩ := handlerCopyRing_cases hrun
    · rw [if_pos ⟨hring, hcopy, hleft, hroom⟩]
      exact ringContents_ringAppended hinv.pointers (by omega) _
    · rw [if_neg (by omega)]; rfl
    · rw [if_neg (by omega)]; rfl
  · rw [if_neg (by simp [hslot])]
    obtain ⟨-, -, rfl⟩ | ⟨-, rfl⟩ := handlerCopyIdle_cases hrun <;> rfl
  · rw [if_neg (by simp [hclear])]; rfl
  · rw [if_neg (by simp [hrearm])]; rfl

/-- The drain pops one byte a step under `RING`; the consumer saw each of them when the poll was accepted
(spec/43_consumer.md R224). -/
theorem pstep_queue (hinv : s.Inv) (h : pstep s = .next t) : t.ringContents = queueAfter .pstep s := by
  change t.ringContents = if _ then _ else _
  obtain ⟨hidle, rfl⟩ | ⟨hcopy, hrun⟩ | ⟨hdeliver, hrun⟩ | ⟨hclear, rfl⟩ | ⟨hreset, rfl⟩ := pstep_cases h
  · rw [if_neg (by simp [hidle])]
  · obtain ⟨hleft, hring, -, rfl⟩ | ⟨-, -, -, sp, hsource, rfl⟩ | ⟨hdone, rfl⟩ := pollCopy_cases hrun
    · rw [if_pos ⟨hring, hcopy, hleft⟩]
      exact ringContents_ringRemoved hinv.pointers
        (hinv.lenTrue_ne_zero (hinv.lenR_ne_zero_of_draining hcopy hring hleft))
    · obtain ⟨hpolicy, -⟩ | ⟨hpolicy, -⟩ := hsource <;> rw [if_neg (by simp [hpolicy])] <;> rfl
    · rw [if_neg (by omega)]; rfl
  · obtain ⟨-, rfl⟩ := pollDeliver_cases hrun
    rw [if_neg (by simp [hdeliver])]; rfl
  · rw [if_neg (by simp [hclear])]; rfl
  · rw [if_neg (by simp [hreset])]
    unfold pollRelease
    split <;> rfl

/-- Settles O38: a step moves a byte only by one of four names. -/
theorem ringRefinesAQueue : Obligations.RingRefinesAQueue := by
  intro e s t hinv h
  by_cases hreset : e = .reset
  · subst hreset
    cases h
    exact ringContents_of_empty (ptrDiff_self s.build 0 (Nat.two_pow_pos s.build.pw))
  by_cases hname : stepName e s ∈ ringSteps
  · simp only [ringSteps, List.mem_cons, List.not_mem_nil, or_false] at hname
    obtain hpush | hpop | hhandler | hpoll := hname
    · obtain ⟨b, htaken⟩ := takenCommand_of_name_push hpush
      obtain ⟨ws, hexec⟩ := exec_of_takenCommand htaken h
      simp only [queueAfter, htaken]
      exact execPush_queue (s := queued s ws) (hinv.queued ws) hexec
    · have htaken := takenCommand_of_name_pop hpop
      obtain ⟨hport, -⟩ | ⟨-, -, hidle⟩ := port_of_takenCommand htaken
      · cases hport
      obtain ⟨ws, hexec⟩ := exec_of_takenCommand htaken h
      simp only [queueAfter, htaken]
      exact execPop_queue (s := queued s ws) (hinv.queued ws) hidle hexec
    · obtain rfl := event_of_name_hstep hhandler
      exact hstep_queue (s := quiet s) (hinv.queued s.rWait) h
    · obtain rfl := event_of_name_pstep hpoll
      exact pstep_queue (s := quiet s) (hinv.queued s.rWait) h
  · exact (perform_keeps_ringContents hreset hname h).trans (queueAfter_of_other hreset hname).symm

end Sys2Proof.Machine
end

section
/-! SUPPORT. What a sequence of steps does, from what each of them does. -/

namespace Sys2Proof.Machine

variable {s : State}

/-- From a state with the invariant a sequence of steps completes, and a relation that composes and that each of the steps
keeps holds between its ends. -/
theorem performAll_completes {R : State → State → Prop} {allowed : Event → Prop} (hrefl : ∀ s, s.Inv → R s s)
    (htrans : ∀ s t u, R s t → R t u → R s u)
    (hstep : ∀ e s t, s.Inv → allowed e → perform e s = .next t → R s t) (es : List Event) (hinv : s.Inv)
    (hallowed : ∀ e ∈ es, allowed e) : ∃ u, performAll es s = .next u ∧ R s u := by
  induction es generalizing s with
  | nil => exact ⟨s, rfl, hrefl s hinv⟩
  | cons e es ih =>
    obtain ⟨he, hrest⟩ := List.forall_mem_cons.mp hallowed
    obtain ⟨t, ht⟩ := perform_completes hinv e
    obtain ⟨u, hu, hsteps⟩ := ih (perform_keeps_inv hinv ht) hrest
    exact ⟨u, by rw [performAll, ht]; exact hu, htrans s t u (hstep e s t hinv he ht) hsteps⟩

end Sys2Proof.Machine
end

section
/-! PROOFS. `PUT` (spec/42_ring.md R200): one `PUSH` of it, what the R domain and `SYNC_W` can do between two of them, and the
bytes accepted, alone and with such steps between. -/

namespace Sys2Proof.Machine

variable {e : Event} {s t u v : State}

/-! ### One `PUSH` of a `PUT` -/

/-- The state after an accepted `PUSH`. -/
def putAccepted (s : State) (b : Byte) : State := (ringAppended (quiet s) b).respondW .ok 0

/-- The state after a `PUSH` that the full ring rejected. -/
def putRejected (s : State) : State := (raise .ringOverrun 1 (quiet s)).respondW .nak 0

/-- No handler owns the write port. -/
abbrev portOfProducer (s : State) : Prop := s.build.policy = .ring → s.w.hStep = .idle

theorem portOfProducer_iff : portOfProducer s ↔ ¬ handlerOwnsRing s := by
  rw [not_and, not_not]

theorem putAmong_of_full {others : List Event} {b : Byte} {rest : List (List Event × Byte)}
    (hothers : performAll others s = .next u) (hfree : portOfProducer u) (hfull : u.lenW = u.build.c) :
    putAmong ((others, b) :: rest) s = .next (0, putRejected u) := by
  rw [putAmong, hothers, andThen_next, exec_push_full (s := quiet u) (portOfProducer_iff.mp hfree) hfull]
  rfl

theorem putAmong_of_room {others : List Event} {b : Byte} {rest : List (List Event × Byte)} {n : Nat}
    (hothers : performAll others s = .next u) (hfree : portOfProducer u) (hroom : u.lenW ≠ u.build.c)
    (hrest : putAmong rest (putAccepted u b) = .next (n, t)) :
    putAmong ((others, b) :: rest) s = .next (n + 1, t) := by
  rw [putAmong, hothers, andThen_next, exec_push_room (s := quiet u) (portOfProducer_iff.mp hfree) hroom, andThen_next]
  change andThen (putAmong rest (putAccepted u b)) _ = _
  rw [hrest]
  rfl

section Accepted

variable (hinv : s.Inv) (hroom : s.lenW < s.build.c) (b : Byte)

include hinv hroom

theorem putAccepted_inv (hfree : portOfProducer s) : (putAccepted s b).Inv :=
  exec_keeps_inv (hinv.queued s.rWait) (exec_push_room (s := quiet s) (portOfProducer_iff.mp hfree) hroom.ne)

theorem lenW_putAccepted : (putAccepted s b).lenW = s.lenW + 1 := lenW_ringAppended hinv.pointers hroom b

theorem ringContents_putAccepted : (putAccepted s b).ringContents = s.ringContents ++ [b] := by
  obtain ⟨-, htrue, -⟩ := hinv.views
  exact ringContents_ringAppended hinv.pointers (htrue.trans_lt hroom) b

end Accepted

/-! ### Nothing between -/

/-- Exactly the bytes that fit are accepted: each takes one place of the producer's view. -/
theorem put_accepts_what_fits (bs : List Byte) (hinv : s.Inv) (hfree : portOfProducer s) :
    ∃ t, put bs s = .next (min bs.length (s.build.c - s.lenW), t) ∧
      t.ringContents = s.ringContents ++ bs.take (s.build.c - s.lenW) ∧
      t.w.dropRingCnt = (if bs.length ≤ s.build.c - s.lenW then s.w.dropRingCnt else satAdd s.w.dropRingCnt 1) := by
  obtain ⟨-, -, hle⟩ := hinv.views
  induction bs generalizing s with
  | nil => exact ⟨s, by simp [put, putAmong]⟩
  | cons b bs ih =>
    by_cases hfull : s.lenW = s.build.c
    · have hnone : s.build.c - s.lenW = 0 := by omega
      refine ⟨putRejected s, ?_, ?_, ?_⟩
      · rw [hnone, Nat.min_zero]
        exact putAmong_of_full rfl hfree hfull
      · rw [hnone, List.take_zero, List.append_nil]
        rfl
      · rw [hnone, if_neg (by simp)]
        rfl
    · have hroom : s.lenW < s.build.c := lt_of_le_of_ne hle hfull
      have hlen := lenW_putAccepted hinv hroom b
      obtain ⟨k, hk⟩ : ∃ k, s.build.c - s.lenW = k + 1 := ⟨s.build.c - s.lenW - 1, by omega⟩
      have hrest : (putAccepted s b).build.c - (putAccepted s b).lenW = k := by
        rw [hlen]; change s.build.c - _ = k; omega
      have hle' : (putAccepted s b).lenW ≤ (putAccepted s b).build.c := by rw [hlen]; exact hroom
      obtain ⟨t, ht, hjoined, hcount⟩ := ih (putAccepted_inv hinv hroom b hfree) hfree hle'
      rw [hrest] at ht hjoined hcount
      refine ⟨t, ?_, ?_, ?_⟩
      · rw [hk, List.length_cons, Nat.succ_min_succ]
        exact putAmong_of_room rfl hfree hfull ht
      · rw [hjoined, ringContents_putAccepted hinv hroom, hk, List.take_succ_cons, List.append_assoc, List.singleton_append]
      · rw [hcount, hk, List.length_cons]
        simp only [Nat.add_le_add_iff_right]
        rfl

/-! ### Steps between -/

/-- What steps of the R domain and of `SYNC_W` do to the producer's side: bytes may leave at the front and room may become
visible, nothing else. -/
structure ConsumerProgress (s u : State) : Prop where
  inv : u.Inv
  build : u.build = s.build
  handler : u.w.hStep = s.w.hStep
  drops : u.w.dropRingCnt = s.w.dropRingCnt
  room : u.lenW ≤ s.lenW
  front : ∃ k, k ≤ s.ringContents.length ∧ u.ringContents = s.ringContents.drop k

theorem ConsumerProgress.refl (hinv : s.Inv) : ConsumerProgress s s :=
  ⟨hinv, rfl, rfl, rfl, le_rfl, 0, Nat.zero_le _, rfl⟩

theorem ConsumerProgress.trans (h : ConsumerProgress s u) (h' : ConsumerProgress u v) : ConsumerProgress s v where
  inv := h'.inv
  build := h'.build.trans h.build
  handler := h'.handler.trans h.handler
  drops := h'.drops.trans h.drops
  room := h'.room.trans h.room
  front := by
    obtain ⟨k, hk, hu⟩ := h.front
    obtain ⟨j, hj, hv⟩ := h'.front
    rw [hu, List.length_drop] at hj
    exact ⟨k + j, by omega, by rw [hv, hu, List.drop_drop]⟩

/-- No step of the R domain has the name of one of the producer's (spec/30_encoding.md R94). -/
theorem stepName_of_rStep (hr : isRStep e = true) (n : String) (hn : n ∈ ["PUSH", "IRQ", "HSTEP", "SYNC_W"]) :
    stepName e s ≠ some n := by
  intro h
  cases htaken : takenCommand e s with
  | some i =>
    obtain ⟨-, c, rfl⟩ | ⟨hport, -⟩ := port_of_takenCommand htaken
    · cases hr
    · simp only [stepName, htaken, Option.some.injEq] at h
      subst h
      cases i <;> simp [Instr.port, Instr.mnemonic] at hport hn
  | none =>
    simp only [stepName, htaken] at h
    cases e <;> simp [isRStep] at hr h <;> simp [← h] at hn

/-- A step with none of the producer's names leaves the handler, the drop counter and the write pointer, and at most takes
the head. -/
theorem producer_side_unmoved (hreset : e ≠ .reset) (hpush : stepName e s ≠ some "PUSH") (hirq : stepName e s ≠ some "IRQ")
    (hhandler : stepName e s ≠ some "HSTEP") (hinv : s.Inv) (h : perform e s = .next t) :
    t.w.hStep = s.w.hStep ∧ t.w.dropRingCnt = s.w.dropRingCnt ∧ t.w.wbin = s.w.wbin ∧
      ∃ k, k ≤ s.ringContents.length ∧ t.ringContents = s.ringContents.drop k := by
  obtain ⟨-, -, -, -, -, -, hstep, -, -, -, -, hwbin, -, -, hdrop, -⟩ := wRegistersHaveTheirWriters e s t hreset h
  refine ⟨by_contra fun hne => by simpa [hirq, hhandler] using hstep hne,
    by_contra fun hne => by simpa [hpush, hhandler] using hdrop (.inr hne),
    by_contra fun hne => by simpa [hpush, hhandler] using hwbin hne, ?_⟩
  rw [ringRefinesAQueue e s t hinv h]
  obtain hsame | ⟨hname | hname, -⟩ | ⟨-, htail⟩ := queueAfter_cases (s := s) hreset
  · exact ⟨0, Nat.zero_le _, hsame⟩
  · exact absurd hname hpush
  · exact absurd hname hhandler
  · refine ⟨min 1 s.ringContents.length, Nat.min_le_right _ _, ?_⟩
    rw [htail]
    cases s.ringContents <;> simp

/-- `SYNC_W` can only show room (spec/42_ring.md R196): it drops the oldest gap of the producer's view. -/
theorem lenW_syncW_le (hinv : s.Inv) : (syncW s).lenW ≤ s.lenW := by
  obtain ⟨hp, hr⟩ := ringOrdered_syncW hinv.pointers hinv.ring
  obtain ⟨-, hnow⟩ := views_of_ringOrdered hinv.pointers hinv.ring
  obtain ⟨-, hthen⟩ := views_of_ringOrdered hp hr
  obtain ⟨-, hrbin, -⟩ := hinv.pointers
  have hcaught := ptrDiff_self s.build s.r.rbin hrbin
  have htrue : (syncW s).lenTrue = s.lenTrue := rfl
  simp only [syncW_build, syncW_w, syncW_r, g2b_b2g] at hthen
  omega

theorem ConsumerProgress.of_step (hinv : s.Inv) (hside : isRStep e = true ∨ e = .syncW) (h : perform e s = .next u) :
    ConsumerProgress s u := by
  have hinv' := perform_keeps_inv hinv h
  have hbuild := perform_keeps_build h
  obtain hr | rfl := hside
  · have hreset : e ≠ .reset := by rintro rfl; cases hr
    obtain ⟨hstep, hdrop, hwbin, hfront⟩ := producer_side_unmoved hreset (stepName_of_rStep hr "PUSH" (by simp))
      (stepName_of_rStep hr "IRQ" (by simp)) (stepName_of_rStep hr "HSTEP" (by simp)) hinv h
    obtain ⟨-, -, -, -, -, -, -, -, -, -, -, -, hsync, -⟩ := wRegistersHaveTheirWriters e s u hreset h
    have hseen : u.w.rgW2 = s.w.rgW2 :=
      by_contra fun hne => stepName_of_rStep hr "SYNC_W" (by simp) (hsync (.inr (.inl hne)))
    exact ⟨hinv', hbuild, hstep, hdrop, by rw [State.lenW, hbuild, hwbin, hseen, State.lenW], hfront⟩
  · cases h
    exact ⟨hinv', rfl, rfl, rfl, lenW_syncW_le (hinv.queued s.rWait), 0, Nat.zero_le _, rfl⟩

/-- The steps between are of the R domain or `SYNC_W`. -/
abbrev consumerSteps (es : List Event) : Prop := ∀ e ∈ es, isRStep e = true ∨ e = .syncW

theorem ConsumerProgress.of_steps {others : List Event} (hinv : s.Inv) (hside : consumerSteps others) :
    ∃ u, performAll others s = .next u ∧ ConsumerProgress s u :=
  performAll_completes (fun _ h => .refl h) (fun _ _ _ h h' => h.trans h') (fun _ _ _ h he hx => .of_step h he hx) others hinv
    hside

/-- The accepted bytes are the first of the offered ones: a `PUSH` joins the back, while the steps before it take from the front
of what is there. -/
theorem putAmong_accepts_first (xs : List (List Event × Byte)) (hinv : s.Inv) (hfree : portOfProducer s)
    (hside : ∀ x ∈ xs, consumerSteps x.1) :
    ∃ n k t, putAmong xs s = .next (n, t) ∧ min xs.length (s.build.c - s.lenW) ≤ n ∧ n ≤ xs.length ∧
      k ≤ s.ringContents.length + n ∧ t.ringContents = (s.ringContents ++ (xs.map Prod.snd).take n).drop k ∧
      t.w.dropRingCnt = (if n = xs.length then s.w.dropRingCnt else satAdd s.w.dropRingCnt 1) := by
  induction xs generalizing s with
  | nil => exact ⟨0, 0, s, by simp [putAmong]⟩
  | cons x xs ih =>
    obtain ⟨others, b⟩ := x
    obtain ⟨hothers, hrest⟩ := List.forall_mem_cons.mp hside
    obtain ⟨u, hu, hprogress⟩ := ConsumerProgress.of_steps hinv hothers
    obtain ⟨hinv', hbuild, hstep, hdrop, hmore, k, hk, hfront⟩ := hprogress
    have hfree' : portOfProducer u := by rwa [portOfProducer, hbuild, hstep]
    by_cases hfull : u.lenW = u.build.c
    · refine ⟨0, k, _, putAmong_of_full hu hfree' hfull, ?_, Nat.zero_le _, hk, ?_, ?_⟩
      · rw [hbuild] at hfull; omega
      · rw [List.take_zero, List.append_nil]
        exact hfront
      · rw [if_neg (by simp), ← hdrop]
        rfl
    · obtain ⟨-, -, hle⟩ := hinv'.views
      have hroom : u.lenW < u.build.c := lt_of_le_of_ne hle hfull
      have hlen := lenW_putAccepted hinv' hroom b
      have hjoin := ringContents_putAccepted hinv' hroom b
      have hbuild' : (putAccepted u b).build = s.build := hbuild
      obtain ⟨n, j, t, ht, hmin, hn, hj, hjoined, hcount⟩ := ih (putAccepted_inv hinv' hroom b hfree') hfree' hrest
      have hback : (putAccepted u b).ringContents = (s.ringContents ++ [b]).drop k := by
        rw [hjoin, hfront, List.drop_append_of_le_length hk]
      have hk' : k ≤ (s.ringContents ++ [b]).length := by simp; omega
      rw [hback, List.length_drop, List.length_append, List.length_singleton] at hj
      rw [hlen, hbuild'] at hmin
      refine ⟨n + 1, k + j, t, putAmong_of_room hu hfree' hfull ht, ?_, ?_, ?_, ?_, ?_⟩
      · rw [List.length_cons]; omega
      · rw [List.length_cons]; omega
      · omega
      · rw [hjoined, hback, ← List.drop_append_of_le_length hk', List.drop_drop, List.append_assoc, List.singleton_append,
          List.map_cons, List.take_succ_cons]
      · rw [hcount, List.length_cons]
        simp only [Nat.add_right_cancel_iff]
        rw [show (putAccepted u b).w.dropRingCnt = s.w.dropRingCnt from hdrop]

/-- Settles O40: by the two inductions over the offered bytes. -/
theorem putAcceptsAPrefix : Obligations.PutAcceptsAPrefix :=
  ⟨fun bs _ hinv hfree => put_accepts_what_fits bs hinv hfree,
    fun xs _ hinv hfree hside => putAmong_accepts_first xs hinv hfree hside⟩

end Sys2Proof.Machine
end

section
/-! SUPPORT. The R port's queue (spec/30_encoding.md R98): commands and autonomous steps leave the waiting words alone, and a port
that serves its polls and its waiting words becomes free. -/

namespace Sys2Proof.Machine

variable {s t : State}

/-! ### The words that wait -/

/-- A command writes none of the build, the trace and the model's own fields. -/
theorem exec_sameSurroundings {i : Instr} (h : exec i s = .next t) : sameSurroundings s t := by
  have same : sameSurroundings s s := ⟨rfl, rfl, rfl, rfl, rfl, rfl⟩
  cases i with
  | nop p => obtain ⟨-, rfl⟩ | ⟨-, -, rfl⟩ | ⟨-, -, rfl⟩ := execNop_cases h <;> exact same
  | rxbyte b => obtain ⟨-, -, rfl⟩ | ⟨-, rfl⟩ := execRxbyte_cases h <;> exact same
  | rxidle => obtain ⟨-, rfl⟩ | ⟨-, rfl⟩ := execRxidle_cases h <;> exact same
  | tick => cases h; exact same
  | irq i =>
    obtain ⟨-, rfl⟩ | ⟨-, -, rfl⟩ | ⟨-, -, -, -, rfl⟩ := execIrq_cases h
    · exact same
    · exact same
    · simp [sameSurroundings]
  | arm n => obtain ⟨-, rfl⟩ | ⟨-, rfl⟩ := execArm_cases h <;> exact same
  | stop => obtain ⟨-, rfl⟩ | ⟨-, rfl⟩ := execStop_cases h <;> exact same
  | push b => obtain ⟨-, rfl⟩ | ⟨-, -, rfl⟩ | ⟨-, -, rfl⟩ := execPush_cases h <;> exact same
  | poll =>
    obtain ⟨-, rfl⟩ | ⟨-, ⟨-, -, rfl⟩ | ⟨-, -, rfl⟩ | ⟨-, -, rfl⟩ | ⟨-, -, -, rfl⟩⟩ := execPoll_cases h <;> exact same
  | pop => obtain ⟨-, rfl⟩ | ⟨-, -, rfl⟩ | ⟨-, -, rfl⟩ := execPop_cases h <;> exact same
  | len => obtain ⟨-, rfl⟩ | ⟨-, rfl⟩ := execLen_cases h <;> exact same

theorem runWord_keeps_rWait {p : Port} {c : Cmd} (h : runWord p c s = .next t) : t.rWait = s.rWait := by
  obtain ⟨i, -, hexec⟩ | ⟨e, -, rfl⟩ := runWord_cases h
  · obtain ⟨-, -, hwait, -⟩ := exec_sameSurroundings hexec
    exact hwait
  · exact illegalWord_rWait s p

theorem hstep_keeps_rWait (h : hstep s = .next t) : t.rWait = s.rWait := by
  obtain ⟨-, rfl⟩ | ⟨-, -, rfl⟩ | ⟨-, -, hring⟩ | ⟨-, -, hidle⟩ | ⟨-, rfl⟩ | ⟨-, rfl⟩ := hstep_cases h
  · rfl
  · rfl
  · obtain ⟨-, -, -, rfl⟩ | ⟨-, -, rfl⟩ | ⟨-, rfl⟩ := handlerCopyRing_cases hring <;> rfl
  · obtain ⟨-, -, rfl⟩ | ⟨-, rfl⟩ := handlerCopyIdle_cases hidle <;> rfl
  · rfl
  · exact boundaryReturn_rWait s

theorem pstep_keeps_rWait (h : pstep s = .next t) : t.rWait = s.rWait := by
  obtain ⟨-, rfl⟩ | ⟨-, hcopy⟩ | ⟨-, hdeliver⟩ | ⟨-, rfl⟩ | ⟨-, rfl⟩ := pstep_cases h
  · rfl
  · obtain ⟨-, -, -, rfl⟩ | ⟨-, -, -, sp, -, rfl⟩ | ⟨-, rfl⟩ := pollCopy_cases hcopy <;> rfl
  · obtain ⟨-, rfl⟩ := pollDeliver_cases hdeliver; rfl
  · rfl
  · exact pollRelease_rWait s

/-! ### The wait for the port -/

/-- A repeated step that lowers a measure until its end reaches it, if the bound is not below the measure. -/
theorem repeatUntil_reaches {done : State → Bool} {f : State → Result} (good : State → Prop) (measure : State → Nat)
    (hlower : ∀ s, good s → done s = false → ∃ t, f s = .next t ∧ good t ∧ measure t < measure s) (fuel : Nat)
    (hgood : good s) (hfuel : measure s ≤ fuel) :
    ∃ t, repeatUntil done f fuel s = .next t ∧ good t ∧ done t = true := by
  induction fuel generalizing s with
  | zero =>
    refine ⟨s, rfl, hgood, by_contra fun hheld => ?_⟩
    obtain ⟨t, -, -, hless⟩ := hlower s hgood (Bool.eq_false_iff.mpr hheld)
    omega
  | succ fuel ih =>
    cases hend : done s with
    | true => exact ⟨s, by rw [repeatUntil, if_pos hend], hgood, hend⟩
    | false =>
      obtain ⟨t, ht, hgood', hless⟩ := hlower s hgood hend
      obtain ⟨u, hu, hrest⟩ := ih hgood' (by omega)
      exact ⟨u, by rw [repeatUntil, if_neg (by simp [hend]), ht]; exact hu, hrest⟩

/-- The step a held port takes: the running poll's, else it takes a waiting word. -/
def awaitStep (s : State) : Result := perform (if s.r.pStep = .idle then .rTake else .pstep) s

/-- How many steps a held port still takes at most, a poll for each waiting word included (spec/43_consumer.md R223). -/
def awaitMeasure (s : State) : Nat := 260 * s.rWait.length + pollMeasure s

/-- A poll drains at most 255 bytes. -/
theorem pollMeasure_lt (s : State) : pollMeasure s < 260 := by
  have hcount := s.r.pCount.isLt
  unfold pollMeasure
  split <;> omega

theorem awaitStep_lowers (hinv : s.Inv) (hheld : portFree s = false) :
    ∃ t, awaitStep s = .next t ∧ t.Inv ∧ awaitMeasure t < awaitMeasure s := by
  obtain ⟨t, ht⟩ := perform_completes hinv (if s.r.pStep = .idle then .rTake else .pstep)
  refine ⟨t, ht, perform_keeps_inv hinv ht, ?_⟩
  unfold awaitMeasure
  by_cases hidle : s.r.pStep = .idle
  · rw [if_pos hidle] at ht
    obtain ⟨hbusy, -⟩ | ⟨-, hempty, -⟩ | ⟨c, rest, -, hwait, hrun⟩ := takeR_cases (s := quiet s) ht
    · exact absurd hidle hbusy
    · exact absurd ((portFree_iff s).mpr ⟨hidle, hempty⟩) (Bool.eq_false_iff.mp hheld)
    · change s.rWait = c :: rest at hwait
      have hone : t.rWait = rest := runWord_keeps_rWait hrun
      have hpoll := pollMeasure_lt t
      rw [hone, hwait, List.length_cons]
      omega
  · rw [if_neg hidle] at ht
    have hone := pstep_counts_down (s := quiet s) hidle ht
    change pollMeasure t + 1 = pollMeasure s at hone
    rw [pstep_keeps_rWait (s := quiet s) ht, quiet_rWait]
    omega

/-- Every wait for the R port ends (spec/30_encoding.md R98). -/
theorem awaitPort_reaches (hinv : s.Inv) : ∃ t, awaitPort s = .next t ∧ t.Inv ∧ portFree t = true := by
  refine repeatUntil_reaches State.Inv awaitMeasure (fun s hinv hheld => awaitStep_lowers hinv hheld) _ hinv ?_
  have hpoll := pollMeasure_lt s
  unfold awaitMeasure
  omega

end Sys2Proof.Machine
end

section
/-! PROOFS. `GET` (spec/42_ring.md R201): its `LEN` and its `POP`s at a free port, what the W domain and `SYNC_R` can do between
them, and the bytes returned, alone, after a wait, and with such steps between. -/

namespace Sys2Proof.Machine

variable {e : Event} {s t u v : State}

/-! ### The commands of a `GET` -/

/-- The state after the `LEN`. -/
def getCounted (s : State) : State := (quiet s).respondR .ok (BitVec.ofNat 8 s.lenR)

/-- The state after a `POP` of a byte. -/
def getPopped (s : State) : State := (ringRemoved (quiet s)).respondR .ok (s.byteAt .ring s.head)

theorem consumerTurn_of_reached {others : List Event} (i : Instr) (hothers : performAll others s = .next u)
    (hfree : portFree u = true) : consumerTurn others i s = exec i (quiet u) := by
  rw [consumerTurn, hothers, andThen_next, awaitPort_of_free hfree, andThen_next]

/-- The `LEN` sees `len_r`, and the `POP`s follow. -/
theorem getAmong_eq {n : Nat} {others : List (List Event)} (hothers : performAll (others.headD []) s = .next u)
    (hfree : portFree u = true) : getAmong n others s = popAmong (min n u.lenR) others.tail (getCounted u) := by
  obtain ⟨hidle, -⟩ := (portFree_iff u).mp hfree
  rw [getAmong, consumerTurn_of_reached .len hothers hfree, exec_len_of_ready (s := quiet u) hidle, andThen_next]
  change popAmong (min n (BitVec.ofNat 8 u.lenR).toNat) others.tail (getCounted u) = _
  rw [toNat_ofNat_lenR]

/-- A `POP` that finds a byte returns the head, and the others follow. -/
theorem popAmong_succ {k : Nat} {others : List (List Event)} {out : List Byte}
    (hothers : performAll (others.headD []) s = .next u) (hfree : portFree u = true) (hsome : u.lenR ≠ 0)
    (hrest : popAmong k others.tail (getPopped u) = .next (out, t)) :
    popAmong (k + 1) others s = .next (u.byteAt .ring u.head :: out, t) := by
  obtain ⟨hidle, -⟩ := (portFree_iff u).mp hfree
  rw [popAmong, consumerTurn_of_reached .pop hothers hfree, exec_pop_some (s := quiet u) hidle hsome, andThen_next]
  change andThen (popAmong k others.tail (getPopped u)) _ = _
  rw [hrest]
  rfl

theorem getPopped_inv (hinv : s.Inv) (hfree : portFree s = true) (hsome : s.lenR ≠ 0) : (getPopped s).Inv :=
  exec_keeps_inv (hinv.queued s.rWait) (exec_pop_some (s := quiet s) ((portFree_iff s).mp hfree).1 hsome)

theorem lenR_getPopped (hinv : s.Inv) (hsome : s.lenR ≠ 0) : (getPopped s).lenR + 1 = s.lenR :=
  lenR_remove hinv.pointers hsome

theorem ringContents_getPopped (hinv : s.Inv) (hsome : s.lenR ≠ 0) :
    s.ringContents = s.byteAt .ring s.head :: (getPopped s).ringContents :=
  ringContents_eq_cons hinv.pointers (hinv.lenTrue_ne_zero hsome)

/-! ### Nothing between -/

/-- What `k` `POP`s do that find a byte each. -/
structure PopRun (k : Nat) (s t : State) : Prop where
  front : t.ringContents = s.ringContents.drop k
  view : t.lenR = s.lenR - k
  wside : t.w = s.w
  regs : t.r = { s.r with rbin := t.r.rbin }
  memory : sameMemory s t
  idle : k = 0 → t.r = s.r

theorem PopRun.cons {k : Nat} (hinv : s.Inv) (hsome : s.lenR ≠ 0) (h : PopRun k (getPopped s) t) : PopRun (k + 1) s t where
  front := by rw [h.front, ringContents_getPopped hinv hsome, List.drop_succ_cons]
  view := by
    have hfewer := lenR_getPopped hinv hsome
    rw [h.view]
    omega
  wside := h.wside
  regs := h.regs
  memory := h.memory
  idle := nofun

theorem popAmong_alone (k : Nat) (hinv : s.Inv) (hfree : portFree s = true) (hseen : k ≤ s.lenR) :
    ∃ t, popAmong k [] s = .next (s.ringContents.take k, t) ∧ PopRun k s t := by
  induction k generalizing s with
  | zero => exact ⟨s, rfl, rfl, rfl, rfl, rfl, fun _ _ => rfl, fun _ => rfl⟩
  | succ k ih =>
    have hsome : s.lenR ≠ 0 := by omega
    have hfewer := lenR_getPopped hinv hsome
    obtain ⟨t, ht, hrun⟩ := ih (getPopped_inv hinv hfree hsome) hfree (by omega)
    refine ⟨t, ?_, hrun.cons hinv hsome⟩
    rw [ringContents_getPopped hinv hsome, List.take_succ_cons]
    exact popAmong_succ (others := []) rfl hfree hsome ht

theorem get_alone (n : Nat) (hinv : s.Inv) (hfree : portFree s = true) :
    ∃ t, get n s = .next (s.ringContents.take (min n s.lenR), t) ∧ PopRun (min n s.lenR) s t := by
  obtain ⟨t, ht, hfront, hview, hw, hregs, hmemory, hidle⟩ :=
    popAmong_alone (s := getCounted s) (min n s.lenR) ((hinv.queued s.rWait).respondR .ok _) hfree (Nat.min_le_right _ _)
  exact ⟨t, (getAmong_eq (others := []) rfl hfree).trans ht, hfront, hview, hw, hregs, hmemory, hidle⟩

/-! ### After a wait -/

/-- A `GET` that waits for the port does what it does where the wait ends. -/
theorem get_of_awaitPort (n : Nat) (hwait : awaitPort s = .next u) (hfree : portFree u = true) : get n s = get n u := by
  have hturn : consumerTurn [] .len s = consumerTurn [] .len u := by
    rw [consumerTurn_of_free .len hfree, consumerTurn, performAll, andThen_next, hwait, andThen_next]
  simp only [get, getAmong, List.headD_nil, hturn]

/-! ### Steps between -/

/-- What steps of the W domain and of `SYNC_R` do to the consumer's side: bytes may join at the back and become visible, and the
port stays free. -/
structure ProducerProgress (s u : State) : Prop where
  inv : u.Inv
  port : portFree u = portFree s
  seen : s.lenR ≤ u.lenR
  back : ∃ added, u.ringContents = s.ringContents ++ added

theorem ProducerProgress.refl (hinv : s.Inv) : ProducerProgress s s := ⟨hinv, rfl, le_rfl, [], (List.append_nil _).symm⟩

theorem ProducerProgress.trans (h : ProducerProgress s u) (h' : ProducerProgress u v) : ProducerProgress s v where
  inv := h'.inv
  port := h'.port.trans h.port
  seen := h.seen.trans h'.seen
  back := by
    obtain ⟨front, hu⟩ := h.back
    obtain ⟨back, hv⟩ := h'.back
    exact ⟨front ++ back, by rw [hv, hu, List.append_assoc]⟩

/-- A step of the W domain leaves the R domain and its waiting words alone (spec/20_memory.md R73). -/
theorem wStep_keeps_r (hw : isWStep e = true) (h : perform e s = .next t) : t.r = s.r ∧ t.rWait = s.rWait := by
  by_cases hsync : e = .syncW
  · subst hsync
    cases h
    exact ⟨rfl, rfl⟩
  refine ⟨(wStep_ignores_r hw hsync rfl h).2, ?_⟩
  cases e with
  | wWord c => exact runWord_keeps_rWait (s := quiet s) h
  | hstep => exact hstep_keeps_rWait (s := quiet s) h
  | syncW => exact absurd rfl hsync
  | rWord | rTake | pstep | syncR | reset => cases hw

/-- No step of the W domain, and not `SYNC_R`, has the name of a step that takes from the ring. -/
theorem stepName_of_wStep (hside : isWStep e = true ∨ e = .syncR) :
    stepName e s ≠ some "POP" ∧ stepName e s ≠ some "PSTEP" := by
  constructor <;> intro h
  · have htaken := takenCommand_of_name_pop h
    obtain ⟨hport, -⟩ | ⟨-, hr, -⟩ := port_of_takenCommand htaken
    · cases hport
    · cases e with
      | syncR => cases htaken
      | rWord | rTake | pstep => simp [isWStep] at hside
      | wWord | hstep | syncW | reset => cases hr
  · obtain rfl := event_of_name_pstep h
    simp [isWStep] at hside

theorem ProducerProgress.of_step (hinv : s.Inv) (hside : isWStep e = true ∨ e = .syncR) (h : perform e s = .next u) :
    ProducerProgress s u := by
  have hinv' := perform_keeps_inv hinv h
  have hreset : e ≠ .reset := by rintro rfl; simp [isWStep] at hside
  have hback : ∃ added, u.ringContents = s.ringContents ++ added := by
    obtain ⟨hpop, hpoll⟩ := stepName_of_wStep (s := s) hside
    rw [ringRefinesAQueue e s u hinv h]
    obtain hsame | ⟨-, b, hjoined⟩ | ⟨hname | hname, -⟩ := queueAfter_cases (s := s) hreset
    · exact ⟨[], by rw [hsame, List.append_nil]⟩
    · exact ⟨[b], hjoined⟩
    · exact absurd hname hpop
    · exact absurd hname hpoll
  obtain hw | rfl := hside
  · obtain ⟨hr, hwait⟩ := wStep_keeps_r hw h
    exact ⟨hinv', by rw [portFree, hr, hwait, portFree], by rw [State.lenR, State.lenR, perform_keeps_build h, hr], hback⟩
  · cases h
    obtain ⟨-, -, hseen⟩ := ringOrdered_syncR hinv.pointers hinv.ring
    exact ⟨hinv', rfl, hseen, hback⟩

/-- The steps between are of the W domain or `SYNC_R`. -/
abbrev producerSteps (es : List Event) : Prop := ∀ e ∈ es, isWStep e = true ∨ e = .syncR

theorem ProducerProgress.of_steps {others : List Event} (hinv : s.Inv) (hside : producerSteps others) :
    ∃ u, performAll others s = .next u ∧ ProducerProgress s u :=
  performAll_completes (fun _ h => .refl h) (fun _ _ _ h h' => h.trans h') (fun _ _ _ h he hx => .of_step h he hx) others hinv
    hside

/-- What holds of each of several lists holds of the first and of each of the rest, if there are any. -/
theorem forall_headD_tail {α : Type} {p : List α → Prop} {xss : List (List α)} (hnil : p []) (h : ∀ xs ∈ xss, p xs) :
    p (xss.headD []) ∧ ∀ xs ∈ xss.tail, p xs := by
  cases xss with
  | nil => exact ⟨hnil, nofun⟩
  | cons xs xss => exact List.forall_mem_cons.mp h

/-- The `POP`s return the oldest bytes, as many as were seen: what joins meanwhile joins behind them. -/
theorem popAmong_returns_front (k : Nat) (others : List (List Event)) (hinv : s.Inv) (hfree : portFree s = true)
    (hseen : k ≤ s.lenR) (hside : ∀ es ∈ others, producerSteps es) :
    ∃ t added, popAmong k others s = .next (s.ringContents.take k, t) ∧ t.ringContents = s.ringContents.drop k ++ added := by
  induction k generalizing s others with
  | zero => exact ⟨s, [], rfl, (List.append_nil _).symm⟩
  | succ k ih =>
    obtain ⟨hhead, htail⟩ := forall_headD_tail (p := producerSteps) nofun hside
    obtain ⟨u, hu, hinv', hport, hmore, front, hback⟩ := ProducerProgress.of_steps hinv hhead
    have hfree' : portFree u = true := hport.trans hfree
    have hsome : u.lenR ≠ 0 := by omega
    have hfewer := lenR_getPopped hinv' hsome
    obtain ⟨t, back, ht, hrest⟩ := ih others.tail (getPopped_inv hinv' hfree' hsome) hfree' (by omega) htail
    have hold : k + 1 ≤ s.ringContents.length := by
      obtain ⟨hle, -⟩ := hinv.views
      rw [ringContents_length]
      omega
    have hqueue : s.ringContents ++ front = u.byteAt .ring u.head :: (getPopped u).ringContents :=
      hback.symm.trans (ringContents_getPopped hinv' hsome)
    refine ⟨t, front ++ back, ?_, ?_⟩
    · rw [← List.take_append_of_le_length hold (l₂ := front), hqueue, List.take_succ_cons]
      exact popAmong_succ hu hfree' hsome ht
    · rw [← List.append_assoc, ← List.drop_append_of_le_length hold, hqueue, List.drop_succ_cons]
      exact hrest

theorem getAmong_returns_front (n : Nat) (others : List (List Event)) (hinv : s.Inv) (hfree : portFree s = true)
    (hside : ∀ es ∈ others, producerSteps es) :
    ∃ u t added, performAll (others.headD []) s = .next u ∧ u.Inv ∧
      getAmong n others s = .next (u.ringContents.take (min n u.lenR), t) ∧
      t.ringContents = u.ringContents.drop (min n u.lenR) ++ added := by
  obtain ⟨hhead, htail⟩ := forall_headD_tail (p := producerSteps) nofun hside
  obtain ⟨u, hu, hinv', hport, -, -⟩ := ProducerProgress.of_steps hinv hhead
  have hfree' : portFree u = true := hport.trans hfree
  obtain ⟨t, added, ht, hrest⟩ := popAmong_returns_front (s := getCounted u) (min n u.lenR) others.tail
    ((hinv'.queued u.rWait).respondR .ok _) hfree' (Nat.min_le_right _ _) htail
  exact ⟨u, t, added, hu, hinv', (getAmong_eq hu hfree').trans ht, hrest⟩

/-- Settles O41: alone, after a wait, and with steps between. -/
theorem getReturnsTheFront : Obligations.GetReturnsTheFront := by
  refine ⟨fun n s hinv hfree => ?_, fun n s hinv _ => ?_, fun n others s hinv hfree hside => ?_⟩
  · obtain ⟨t, ht, hrun⟩ := get_alone n hinv hfree
    exact ⟨t, ht, hrun.front, hrun.view, hrun.wside, hrun.regs, hrun.memory,
      fun hempty => hrun.idle (by rw [hempty, Nat.min_zero])⟩
  · obtain ⟨u, hu, hinv', hfree⟩ := awaitPort_reaches hinv
    exact ⟨u, hu, hinv', hfree, get_of_awaitPort n hu hfree⟩
  · obtain ⟨u, t, added, hu, hinv', ht, hrest⟩ := getAmong_returns_front n others hinv hfree hside
    obtain ⟨hle, -⟩ := hinv'.views
    refine ⟨_, u, t, added, ht, hu, ?_, rfl, hrest⟩
    rw [List.length_take, ringContents_length]
    omega

end Sys2Proof.Machine
end

section
/-! SUPPORT. The Consumer Task, forwards: when a `POLL` is accepted, the byte a drain takes next, the state after each branch of `POLL`
and of `PSTEP`, and an equation per branch (spec/43_consumer.md R221 to R229). -/

namespace Sys2Proof.Machine

variable {s : State}

/-! ### `POLL` -/

theorem pollReady_iff_of_timeout (hpolicy : s.build.policy = .timeout) :
    pollReady s = true ↔ s.w.ceArmed = true ∧ 0 < s.w.cePtr.toNat ∧ s.build.t < (s.w.now - s.w.lastTime).toNat := by
  simp only [pollReady, hpolicy, Bool.and_eq_true, decide_eq_true_eq, and_assoc]

theorem pollReady_iff_of_idle (hpolicy : s.build.policy = .idle) : pollReady s = true ↔ s.r.xwR2 ≠ s.r.xr := by
  simp only [pollReady, hpolicy, bne_iff_ne]

theorem pollReady_iff_of_ring (hpolicy : s.build.policy = .ring) : pollReady s = true ↔ 0 < s.lenR := by
  simp only [pollReady, hpolicy, decide_eq_true_eq]

/-- The W registers after an accepted `POLL`: under `TIMEOUT` the engine is halted. -/
def wPolled (s : State) : WRegs :=
  match s.build.policy with
  | .timeout => { s.w with ceArmed := false }
  | .idle | .ring => s.w

/-- How many bytes an accepted `POLL` drains. -/
def pollCount (s : State) : Byte :=
  match s.build.policy with
  | .timeout => s.w.cePtr
  | .idle => s.w.xferLen
  | .ring => BitVec.ofNat 8 s.lenR

/-- The R registers after an accepted `POLL`: the drain of what is ready starts. -/
def rPolled (s : State) : RRegs :=
  { s.r with
    toReady := if s.build.policy = .timeout then true else s.r.toReady
    pCount := pollCount s, pIdx := 0, pStep := .copy }

/-- The state of a poll that starts its drain. -/
def pollAccepted (s : State) : State := { s with w := wPolled s, r := rPolled s }

theorem exec_poll_accepted (hidle : s.r.pStep = .idle) (hready : pollReady s = true) :
    exec .poll s = .next (pollAccepted s) := by
  rw [exec, execPoll, whenReady_of_idle s _ hidle]
  unfold pollReady at hready
  unfold pollAccepted wPolled rPolled pollCount
  cases hpolicy : s.build.policy with
  | timeout => rw [hpolicy] at hready; exact if_pos hready
  | idle => rw [hpolicy] at hready; exact if_pos hready
  | ring => rw [hpolicy] at hready; exact if_pos (of_decide_eq_true hready)

theorem exec_poll_declined (hidle : s.r.pStep = .idle) (hnot : ¬ pollReady s = true) :
    exec .poll s = .next (s.respondR .nak 0) := by
  rw [exec, execPoll, whenReady_of_idle s _ hidle]
  unfold pollReady at hnot
  cases hpolicy : s.build.policy with
  | timeout => rw [hpolicy] at hnot; exact if_neg hnot
  | idle => rw [hpolicy] at hnot; exact if_neg hnot
  | ring => rw [hpolicy] at hnot; exact if_neg fun h => hnot (decide_eq_true h)

theorem pollCount_of_timeout (hpolicy : s.build.policy = .timeout) : pollCount s = s.w.cePtr := by
  rw [pollCount, hpolicy]

theorem pollCount_of_idle (hpolicy : s.build.policy = .idle) : pollCount s = s.w.xferLen := by
  rw [pollCount, hpolicy]

theorem pollCount_of_ring (hpolicy : s.build.policy = .ring) : (pollCount s).toNat = s.lenR := by
  rw [pollCount, hpolicy]
  exact toNat_ofNat_lenR s

/-! ### The drain's source -/

/-- The byte the drain takes next (spec/43_consumer.md R224). -/
def pollByte (s : State) : Byte :=
  match s.build.policy with
  | .timeout => s.byteAt .capb s.r.pIdx.toNat
  | .idle => s.byteAt .xfer s.r.pIdx.toNat
  | .ring => s.byteAt .ring s.head

/-- The read pointer after that byte is taken: under `RING` the byte is popped. -/
def pollRbin (s : State) : Ptr :=
  match s.build.policy with
  | .timeout | .idle => s.r.rbin
  | .ring => ptrNext s.build s.r.rbin

theorem pollByte_of_timeout (hpolicy : s.build.policy = .timeout) : pollByte s = s.byteAt .capb s.r.pIdx.toNat := by
  rw [pollByte, hpolicy]

theorem pollByte_of_idle (hpolicy : s.build.policy = .idle) : pollByte s = s.byteAt .xfer s.r.pIdx.toNat := by
  rw [pollByte, hpolicy]

theorem pollByte_of_ring (hpolicy : s.build.policy = .ring) : pollByte s = s.byteAt .ring s.head := by
  rw [pollByte, hpolicy]

theorem pollRbin_of_ring (hpolicy : s.build.policy = .ring) : pollRbin s = ptrNext s.build s.r.rbin := by
  rw [pollRbin, hpolicy]

theorem pollRbin_of_not_ring (hpolicy : s.build.policy ≠ .ring) : pollRbin s = s.r.rbin := by
  cases hp : s.build.policy with
  | timeout | idle => rw [pollRbin, hp]
  | ring => exact absurd hp hpolicy

/-- The source gives its byte where the index is one of the buffers' (spec/10_state.md R46). -/
theorem pollSource_eq {k : Byte → State → Result} (hindex : s.build.policy ≠ .ring → s.r.pIdx.toNat < s.build.cap) :
    pollSource s k = k (pollByte s) { s with r := { s.r with rbin := pollRbin s } } := by
  unfold pollSource pollByte pollRbin
  cases hpolicy : s.build.policy with
  | timeout => exact readThen_of_lt s .capb _ _ (hindex (by simp [hpolicy]))
  | idle => exact readThen_of_lt s .xfer _ _ (hindex (by simp [hpolicy]))
  | ring => exact ringRemove_eq s k

/-! ### The states `PSTEP` leaves -/

/-- One byte of the source is in `FRMB`. -/
def pollDrained (s : State) : State :=
  { (quiet s).setMem .frmb (s.frmb.insert s.r.pIdx.toNat (pollByte s)) with
    r := { s.r with rbin := pollRbin s, pIdx := s.r.pIdx + 1 } }

/-- The drain is over. -/
def pollEnded (s : State) : State := { quiet s with r := { s.r with fbLen := s.r.pCount, pStep := .deliver } }

/-- The frame is handed over. -/
def pollDelivered (s : State) : State :=
  { quiet s with
    outFrames := s.outFrames ++ [s.span .frmb s.r.fbLen.toNat], r := { s.r with pStep := .fbclr } }

/-- `FRMB` is clear. -/
def pollCleared (s : State) : State :=
  { (quiet s).setMem .frmb (Memory.filled s.build.fb 0) with r := { s.r with fbLen := 0, pStep := .reset } }

/-- The pending data is released and the `POLL` answered. -/
def pollAnswered (s : State) : State :=
  State.respondR
    { pollRelease (quiet s) with r := { (pollRelease (quiet s)).r with pStep := .idle } } .ok s.r.pCount

/-! ### `PSTEP` -/

theorem perform_pstep_copy (hcopy : s.r.pStep = .copy) : perform .pstep s = pollCopy (quiet s) := by
  simp only [perform, pstep, quiet_r, hcopy]

/-- The byte drained is one of its memory's, and its place one of `FRMB`'s: `p_idx < p_count`, which is at most `FB` and, of
the two buffers, at most `CAP`. -/
theorem perform_pstep_drain (hcopy : s.r.pStep = .copy) (hfb : s.r.pCount.toNat ≤ s.build.fb)
    (hcap : s.build.policy ≠ .ring → s.r.pCount.toNat ≤ s.build.cap) (hleft : s.r.pIdx.toNat < s.r.pCount.toNat) :
    perform .pstep s = .next (pollDrained s) := by
  have hindex : s.build.policy ≠ .ring → s.r.pIdx.toNat < s.build.cap := fun hp => lt_of_lt_of_le hleft (hcap hp)
  have hplace : s.r.pIdx.toNat < s.build.fb := lt_of_lt_of_le hleft hfb
  calc perform .pstep s = pollCopy (quiet s) := perform_pstep_copy hcopy
    _ = pollSource (quiet s) _ := if_pos hleft
    _ = writeThen _ .frmb s.r.pIdx.toNat (pollByte s) _ := pollSource_eq (s := quiet s) hindex
    _ = .next (pollDrained s) := writeThen_of_lt _ .frmb _ _ _ hplace

theorem perform_pstep_end (hcopy : s.r.pStep = .copy) (hdone : ¬ s.r.pIdx.toNat < s.r.pCount.toNat) :
    perform .pstep s = .next (pollEnded s) :=
  (perform_pstep_copy hcopy).trans (if_neg hdone)

theorem perform_pstep_deliver (hdeliver : s.r.pStep = .deliver) (hfits : s.r.fbLen.toNat ≤ s.build.fb) :
    perform .pstep s = .next (pollDelivered s) := by
  simp only [perform, pstep, quiet_r, hdeliver]
  exact if_pos hfits

theorem perform_pstep_clear (hclear : s.r.pStep = .fbclr) : perform .pstep s = .next (pollCleared s) := by
  simp only [perform, pstep, quiet_r, hclear]
  rfl

theorem perform_pstep_reset (hreset : s.r.pStep = .reset) : perform .pstep s = .next (pollAnswered s) := by
  simp only [perform, pstep, quiet_r, hreset]
  rfl

/-! ### The release of the pending data -/

theorem pollRelease_of_timeout (hpolicy : s.build.policy = .timeout) :
    pollRelease s =
      { s.memFill .capb 0 with w := { s.w with cePtr := 0, ceArmed := true }, r := { s.r with toReady := false } } := by
  rw [pollRelease, hpolicy]
  rfl

theorem pollRelease_of_idle (hpolicy : s.build.policy = .idle) :
    pollRelease s = { s with r := { s.r with xr := !s.r.xr } } := by
  rw [pollRelease, hpolicy]

theorem pollRelease_of_ring (hpolicy : s.build.policy = .ring) : pollRelease s = s := by
  rw [pollRelease, hpolicy]

end Sys2Proof.Machine
end

section
/-! PROOFS. The Consumer Task's rules (spec/43_consumer.md): `POLL` and each state of `PSTEP`, branch by branch. -/

namespace Sys2Proof.Machine

/-- A silent step after any change of the R registers and of one memory keeps the rest of the state. -/
theorem autonomousFrame_storeR (s : State) (sp : Space) (m : Memory) (r' : RRegs) :
    autonomousFrame s { (quiet s).setMem sp m with r := r' } := by
  cases sp <;> exact ⟨rfl, rfl, rfl, rfl, rfl, rfl, rfl, rfl⟩

theorem autonomousFrame_r (s : State) (r' : RRegs) : autonomousFrame s { quiet s with r := r' } :=
  autonomousFrame_storeR s .frmb s.frmb r'

theorem sameMemory_r (s : State) (r' : RRegs) : sameMemory s { quiet s with r := r' } := fun _ _ => rfl

/-! ### `POLL` -/

/-- Settles O18: for each policy the two branches of the rule. -/
theorem pollStartsOrDeclines : Obligations.PollStartsOrDeclines := by
  intro s hidle
  by_cases hready : pollReady s = true
  · refine ⟨_, exec_poll_accepted hidle hready, fun _ _ => rfl, ⟨rfl, rfl, rfl, rfl, rfl, rfl⟩, rfl, ?_⟩
    unfold pollAccepted wPolled rPolled pollCount
    cases hpolicy : s.build.policy with
    | timeout =>
      dsimp only
      rw [if_pos ((pollReady_iff_of_timeout hpolicy).mp hready)]
      exact ⟨rfl, rfl, rfl⟩
    | idle =>
      dsimp only
      rw [if_pos ((pollReady_iff_of_idle hpolicy).mp hready)]
      exact ⟨rfl, rfl, rfl⟩
    | ring =>
      dsimp only
      rw [if_pos ((pollReady_iff_of_ring hpolicy).mp hready)]
      exact ⟨rfl, rfl, toNat_ofNat_lenR s, rfl⟩
  · refine ⟨_, exec_poll_declined hidle hready, sameMemory_answerR s s.r .nak 0, ⟨rfl, rfl, rfl, rfl, rfl, rfl⟩, rfl, ?_⟩
    cases hpolicy : s.build.policy with
    | timeout =>
      dsimp only
      rw [if_neg fun h => hready ((pollReady_iff_of_timeout hpolicy).mpr h)]
      exact ⟨rfl, rfl, rfl⟩
    | idle =>
      dsimp only
      rw [if_neg fun h => hready ((pollReady_iff_of_idle hpolicy).mpr h)]
      exact ⟨rfl, rfl, rfl⟩
    | ring =>
      dsimp only
      rw [if_neg fun h => hready ((pollReady_iff_of_ring hpolicy).mpr h)]
      exact ⟨rfl, rfl, rfl⟩

/-! ### `PSTEP` -/

/-- Settles O24: a byte drained, from each policy's source, or the drain ended. -/
theorem pollCopiesOneByte : Obligations.PollCopiesOneByte := by
  intro s hcopy hfb hcap
  by_cases hleft : s.r.pIdx.toNat < s.r.pCount.toNat
  · have hstored : (pollDrained s).byteAt .frmb s.r.pIdx.toNat = pollByte s := byteAt_insert_self s .frmb s.r.pIdx.toNat _
    have hregs : (pollDrained s).r = { s.r with rbin := pollRbin s, pIdx := s.r.pIdx + 1 } := rfl
    refine ⟨_, perform_pstep_drain hcopy hfb hcap hleft, autonomousFrame_storeR s .frmb _ _, rfl, ?_⟩
    rw [if_pos hleft]
    refine ⟨sameMemoryBut_insert (s := s) .frmb s.r.pIdx.toNat _ ⟨rfl, rfl⟩, ?_⟩
    cases hpolicy : s.build.policy with
    | timeout =>
      rw [pollRbin_of_not_ring (by simp [hpolicy])] at hregs
      exact ⟨hregs, hstored.trans (pollByte_of_timeout hpolicy)⟩
    | idle =>
      rw [pollRbin_of_not_ring (by simp [hpolicy])] at hregs
      exact ⟨hregs, hstored.trans (pollByte_of_idle hpolicy)⟩
    | ring =>
      exact ⟨rfl, (congrArg BitVec.toNat (pollRbin_of_ring hpolicy)).trans (ptrNext_toNat s.build s.r.rbin),
        hstored.trans (pollByte_of_ring hpolicy)⟩
  · refine ⟨_, perform_pstep_end hcopy hleft, autonomousFrame_r s _, rfl, ?_⟩
    rw [if_neg hleft]
    exact ⟨sameMemory_r s _, rfl⟩

/-- Settles O25: the bytes of `FRMB` join the trace, which is all else that moves. -/
theorem pollDeliversTheFrame : Obligations.PollDeliversTheFrame := fun s hdeliver hfits =>
  ⟨_, perform_pstep_deliver hdeliver hfits, rfl, rfl, rfl, fun _ _ => rfl,
    autonomousFrame_r { s with outFrames := (pollDelivered s).outFrames } _⟩

/-- Settles O26: `FRMB` filled with zeros, the only memory written. -/
theorem pollClearsTheFrameBuffer : Obligations.PollClearsTheFrameBuffer := fun s hclear =>
  ⟨_, perform_pstep_clear hclear, autonomousFrame_storeR s .frmb _ _, rfl, rfl,
    fun i hi => byteAt_memFill s .frmb 0 i hi, sameMemoryBut_memFill (s := s) .frmb 0 fun _ => rfl⟩

/-- Settles O27: the answer, and what each policy releases. -/
theorem pollReleasesAndAnswers : Obligations.PollReleasesAndAnswers := by
  intro s hreset
  refine ⟨_, perform_pstep_reset hreset, rfl, pollRelease_wRsp (quiet s), ⟨pollRelease_build _, pollRelease_outFrames _,
    pollRelease_rWait _, pollRelease_agenda _, pollRelease_choice _, pollRelease_epoch _⟩, ?_⟩
  unfold pollAnswered
  cases hpolicy : s.build.policy with
  | timeout =>
    rw [pollRelease_of_timeout (s := quiet s) hpolicy]
    exact ⟨rfl, rfl, fun i hi => byteAt_memFill s .capb 0 i hi, sameMemoryBut_memFill (s := s) .capb 0 fun _ => rfl⟩
  | idle =>
    rw [pollRelease_of_idle (s := quiet s) hpolicy]
    exact ⟨rfl, rfl, fun _ _ => rfl⟩
  | ring =>
    rw [pollRelease_of_ring (s := quiet s) hpolicy]
    exact ⟨rfl, rfl, fun _ _ => rfl⟩

end Sys2Proof.Machine
end

section
/-! SUPPORT. Whole runs of the poll (spec/43_consumer.md R230): the bytes still to drain, the drain of one byte after another, and
the four steps that follow the last byte. -/

namespace Sys2Proof.Machine

variable {s t u : State}

/-! ### The frame of a running drain -/

theorem span_length (s : State) (sp : Space) (n : Nat) : (s.span sp n).length = n := by
  rw [State.span, List.length_map, List.length_range]

theorem span_succ (s : State) (sp : Space) (n : Nat) : s.span sp (n + 1) = s.span sp n ++ [s.byteAt sp n] := by
  rw [State.span, List.range_succ, List.map_append, List.map_singleton, State.span]

theorem drop_span (s : State) (sp : Space) {i n : Nat} (hi : i < n) :
    (s.span sp n).drop i = s.byteAt sp i :: (s.span sp n).drop (i + 1) := by
  rw [List.drop_eq_getElem_cons (by rwa [span_length])]
  simp only [State.span, List.getElem_map, List.getElem_range]

theorem span_congr {sp : Space} {n : Nat} (h : ∀ i, i < n → t.byteAt sp i = s.byteAt sp i) : t.span sp n = s.span sp n :=
  List.map_congr_left fun i hi => h i (List.mem_range.mp hi)

/-- The bytes the running drain has still to take. -/
def pollLeft (s : State) : List Byte :=
  match s.build.policy with
  | .timeout => (s.span .capb s.r.pCount.toNat).drop s.r.pIdx.toNat
  | .idle => (s.span .xfer s.r.pCount.toNat).drop s.r.pIdx.toNat
  | .ring => s.ringContents.take (s.r.pCount.toNat - s.r.pIdx.toNat)

/-- The frame the running drain makes: the bytes already in `FRMB`, then those still to take. -/
def pollFrame (s : State) : List Byte := s.span .frmb s.r.pIdx.toNat ++ pollLeft s

theorem pollLeft_of_timeout (hpolicy : s.build.policy = .timeout) :
    pollLeft s = (s.span .capb s.r.pCount.toNat).drop s.r.pIdx.toNat := by
  rw [pollLeft, hpolicy]

theorem pollLeft_of_idle (hpolicy : s.build.policy = .idle) :
    pollLeft s = (s.span .xfer s.r.pCount.toNat).drop s.r.pIdx.toNat := by
  rw [pollLeft, hpolicy]

theorem pollLeft_of_ring (hpolicy : s.build.policy = .ring) :
    pollLeft s = s.ringContents.take (s.r.pCount.toNat - s.r.pIdx.toNat) := by
  rw [pollLeft, hpolicy]

theorem pollLeft_of_done (hdone : s.r.pIdx = s.r.pCount) : pollLeft s = [] := by
  have hbuffer (sp : Space) : (s.span sp s.r.pCount.toNat).drop s.r.pCount.toNat = [] :=
    List.drop_eq_nil_of_le (span_length s sp _).le
  cases hpolicy : s.build.policy with
  | timeout => rw [pollLeft_of_timeout hpolicy, hdone, hbuffer]
  | idle => rw [pollLeft_of_idle hpolicy, hdone, hbuffer]
  | ring => rw [pollLeft_of_ring hpolicy, hdone, Nat.sub_self, List.take_zero]

/-- A drain that has taken all its bytes has made its frame in `FRMB`. -/
theorem pollFrame_of_done (hdone : s.r.pIdx = s.r.pCount) : pollFrame s = s.span .frmb s.r.pCount.toNat := by
  rw [pollFrame, pollLeft_of_done hdone, List.append_nil, hdone]

/-! ### One byte -/

section OneByte

variable (hinv : s.Inv) (hcopy : s.r.pStep = .copy) (hleft : s.r.pIdx.toNat < s.r.pCount.toNat)

include hinv hcopy hleft in
theorem perform_pstep_drain_of_inv : perform .pstep s = .next (pollDrained s) := by
  obtain ⟨⟨-, hfb⟩, hcap, -⟩ := hinv.consumer
  exact perform_pstep_drain hcopy hfb hcap hleft

/-- The drain writes only `FRMB[p_idx]`. -/
theorem byteAt_pollDrained_of_ne {sp : Space} {i : Nat} (h : ¬ (sp = .frmb ∧ i = s.r.pIdx.toNat)) :
    (pollDrained s).byteAt sp i = s.byteAt sp i :=
  byteAt_insert_of_ne s .frmb sp s.r.pIdx.toNat i _ h

/-- `FRMB` holds one byte more of the frame. -/
theorem span_frmb_pollDrained :
    (pollDrained s).span .frmb (s.r.pIdx.toNat + 1) = s.span .frmb s.r.pIdx.toNat ++ [pollByte s] := by
  have hold : (pollDrained s).span .frmb s.r.pIdx.toNat = s.span .frmb s.r.pIdx.toNat :=
    span_congr fun i hi => byteAt_pollDrained_of_ne fun hsame => hi.ne hsame.2
  have hnew : (pollDrained s).byteAt .frmb s.r.pIdx.toNat = pollByte s := byteAt_insert_self s .frmb s.r.pIdx.toNat _
  rw [span_succ, hold, hnew]

include hinv hcopy hleft in
/-- Under `RING` the byte taken is the oldest one unread; the other policies leave the ring alone
(spec/43_consumer.md R224). -/
theorem ringContents_pollDrained :
    (pollDrained s).ringContents = if s.build.policy = .ring then s.ringContents.tail else s.ringContents := by
  rw [ringRefinesAQueue .pstep s _ hinv (perform_pstep_drain_of_inv hinv hcopy hleft)]
  by_cases hpolicy : s.build.policy = .ring
  · rw [if_pos hpolicy]
    exact if_pos ⟨hpolicy, hcopy, hleft⟩
  · rw [if_neg hpolicy]
    exact if_neg fun h => hpolicy h.1

include hinv hcopy hleft in
/-- The byte taken is the first of those that were left. -/
theorem pollLeft_eq_cons : pollLeft s = pollByte s :: pollLeft (pollDrained s) := by
  have hindex : (pollDrained s).r.pIdx.toNat = s.r.pIdx.toNat + 1 := toNat_succ_of_lt hleft
  have hbuffer (sp : Space) (hsp : sp ≠ .frmb) : (s.span sp s.r.pCount.toNat).drop s.r.pIdx.toNat =
      s.byteAt sp s.r.pIdx.toNat :: ((pollDrained s).span sp s.r.pCount.toNat).drop (pollDrained s).r.pIdx.toNat := by
    rw [drop_span s sp hleft, hindex, span_congr fun i _ => byteAt_pollDrained_of_ne fun hsame => hsp hsame.1]
  cases hpolicy : s.build.policy with
  | timeout =>
    rw [pollLeft_of_timeout hpolicy, pollByte_of_timeout hpolicy, pollLeft_of_timeout (s := pollDrained s) hpolicy]
    exact hbuffer .capb nofun
  | idle =>
    rw [pollLeft_of_idle hpolicy, pollByte_of_idle hpolicy, pollLeft_of_idle (s := pollDrained s) hpolicy]
    exact hbuffer .xfer nofun
  | ring =>
    have hsome := hinv.lenTrue_ne_zero (hinv.lenR_ne_zero_of_draining hcopy hpolicy hleft)
    have hcount : s.r.pCount.toNat - s.r.pIdx.toNat =
        (pollDrained s).r.pCount.toNat - (pollDrained s).r.pIdx.toNat + 1 := by
      rw [hindex]
      change _ = s.r.pCount.toNat - (s.r.pIdx.toNat + 1) + 1
      omega
    have hrest : (pollDrained s).ringContents = s.ringContents.tail := by
      rw [ringContents_pollDrained hinv hcopy hleft, if_pos hpolicy]
    rw [pollLeft_of_ring hpolicy, pollByte_of_ring hpolicy, pollLeft_of_ring (s := pollDrained s) hpolicy, hcount, hrest,
      ringContents_eq_cons hinv.pointers hsome, List.take_succ_cons, List.tail_cons]

include hinv hcopy hleft in
/-- A byte that moves from the source into `FRMB` leaves the frame as it is. -/
theorem pollFrame_pollDrained : pollFrame (pollDrained s) = pollFrame s := by
  have hindex : (pollDrained s).r.pIdx.toNat = s.r.pIdx.toNat + 1 := toNat_succ_of_lt hleft
  rw [pollFrame, hindex, span_frmb_pollDrained, pollFrame, pollLeft_eq_cons hinv hcopy hleft, List.append_assoc,
    List.singleton_append]

end OneByte

/-! ### The drain -/

/-- The poll has drained the next `k` bytes: of the R registers only the ring's read pointer and the index have moved, the frame it
makes is the same, and under `RING` the `k` oldest bytes have left the ring. -/
structure DrainRun (k : Nat) (s t : State) : Prop where
  inv : t.Inv
  regs : t.r = { s.r with rbin := t.r.rbin, pIdx := t.r.pIdx }
  index : t.r.pIdx.toNat = s.r.pIdx.toNat + k
  build : t.build = s.build
  trace : t.outFrames = s.outFrames
  frame : pollFrame t = pollFrame s
  ring : t.ringContents = if s.build.policy = .ring then s.ringContents.drop k else s.ringContents

theorem DrainRun.refl (hinv : s.Inv) : DrainRun 0 s s := ⟨hinv, rfl, rfl, rfl, rfl, rfl, (ite_id _).symm⟩

theorem DrainRun.cons {k : Nat} (h : DrainRun 1 s t) (h' : DrainRun k t u) : DrainRun (k + 1) s u where
  inv := h'.inv
  regs := h'.regs.trans (by rw [h.regs])
  index := by rw [h'.index, h.index, Nat.add_assoc, Nat.add_comm 1 k]
  build := h'.build.trans h.build
  trace := h'.trace.trans h.trace
  frame := h'.frame.trans h.frame
  ring := by
    rw [h'.ring, h.ring, h.build]
    split_ifs
    · rw [List.drop_drop, Nat.add_comm 1 k]
    · rfl

/-- Every other R register is as it was. -/
theorem DrainRun.reg {α : Type} {k : Nat} (h : DrainRun k s t) (f : RRegs → α)
    (hother : ∀ r p i, f { r with rbin := p, pIdx := i } = f r) : f t.r = f s.r :=
  (congrArg f h.regs).trans (hother _ _ _)

theorem DrainRun.pStep {k : Nat} (h : DrainRun k s t) : t.r.pStep = s.r.pStep := h.reg RRegs.pStep fun _ _ _ => rfl

theorem DrainRun.pCount {k : Nat} (h : DrainRun k s t) : t.r.pCount = s.r.pCount := h.reg RRegs.pCount fun _ _ _ => rfl

theorem drainRun_drained (hinv : s.Inv) (hcopy : s.r.pStep = .copy) (hleft : s.r.pIdx.toNat < s.r.pCount.toNat) :
    DrainRun 1 s (pollDrained s) where
  inv := perform_keeps_inv hinv (perform_pstep_drain_of_inv hinv hcopy hleft)
  regs := rfl
  index := toNat_succ_of_lt hleft
  build := rfl
  trace := rfl
  frame := pollFrame_pollDrained hinv hcopy hleft
  ring := by rw [ringContents_pollDrained hinv hcopy hleft, List.drop_one]

/-- The bytes are drained in order, one a step (spec/43_consumer.md R224). -/
theorem iterate_drain (k : Nat) (hinv : s.Inv) (hcopy : s.r.pStep = .copy)
    (hleft : s.r.pIdx.toNat + k ≤ s.r.pCount.toNat) : ∃ t, iterate .pstep k s = .next t ∧ DrainRun k s t := by
  induction k generalizing s with
  | zero => exact ⟨s, rfl, .refl hinv⟩
  | succ k ih =>
    have hnext : s.r.pIdx.toNat < s.r.pCount.toNat := by omega
    have hone := drainRun_drained hinv hcopy hnext
    obtain ⟨t, ht, hrun⟩ := ih hone.inv hcopy (by rw [hone.index, hone.pCount]; omega)
    refine ⟨t, ?_, hone.cons hrun⟩
    rw [iterate, perform_pstep_drain_of_inv hinv hcopy hnext]
    exact ht

/-! ### The start and the end -/

theorem pollBytes_of_timeout (hpolicy : s.build.policy = .timeout) : pollBytes s = s.span .capb s.w.cePtr.toNat := by
  rw [pollBytes, hpolicy]

theorem pollBytes_of_idle (hpolicy : s.build.policy = .idle) : pollBytes s = s.span .xfer s.w.xferLen.toNat := by
  rw [pollBytes, hpolicy]

theorem pollBytes_of_ring (hpolicy : s.build.policy = .ring) : pollBytes s = s.ringContents.take s.lenR := by
  rw [pollBytes, hpolicy]

/-- The count a ready poll fixes is that of the bytes it has found: under `RING` as many are there as the consumer sees. -/
theorem pollBytes_length (hinv : s.Inv) : (pollBytes s).length = (pollCount s).toNat := by
  obtain ⟨hseen, -⟩ := hinv.views
  cases hpolicy : s.build.policy with
  | timeout => rw [pollBytes_of_timeout hpolicy, span_length, pollCount_of_timeout hpolicy]
  | idle => rw [pollBytes_of_idle hpolicy, span_length, pollCount_of_idle hpolicy]
  | ring =>
    rw [pollBytes_of_ring hpolicy, List.length_take, ringContents_length, Nat.min_eq_left hseen, pollCount_of_ring hpolicy]

/-- An accepted `POLL` leaves the unread bytes where they are. -/
theorem ringContents_pollAccepted (s : State) : (pollAccepted s).ringContents = s.ringContents := by
  have hwbin : (wPolled s).wbin = s.w.wbin := by
    unfold wPolled
    split <;> rfl
  exact ringContents_congr rfl hwbin rfl fun _ => rfl

/-- The frame of a poll that starts is made of the bytes it has found (spec/43_consumer.md R220, R221). -/
theorem pollFrame_pollAccepted (s : State) : pollFrame (pollAccepted s) = pollBytes s := by
  have hnone : pollFrame (pollAccepted s) = pollLeft (pollAccepted s) := List.nil_append _
  rw [hnone]
  cases hpolicy : s.build.policy with
  | timeout =>
    rw [pollLeft_of_timeout (s := pollAccepted s) hpolicy, pollBytes_of_timeout hpolicy, ← pollCount_of_timeout hpolicy]
    rfl
  | idle =>
    rw [pollLeft_of_idle (s := pollAccepted s) hpolicy, pollBytes_of_idle hpolicy, ← pollCount_of_idle hpolicy]
    rfl
  | ring =>
    rw [pollLeft_of_ring (s := pollAccepted s) hpolicy, pollBytes_of_ring hpolicy, ← pollCount_of_ring hpolicy,
      ringContents_pollAccepted]
    rfl

/-- Three steps after the drain the poll has answered (spec/43_consumer.md R226 to R229). -/
theorem iterate_pstep_answer {m : Nat} (h : iterate .pstep m s = .next t) (hdeliver : t.r.pStep = .deliver)
    (hfits : t.r.fbLen.toNat ≤ t.build.fb) :
    iterate .pstep (m + 2) s = .next (pollCleared (pollDelivered t)) ∧
      iterate .pstep (m + 3) s = .next (pollAnswered (pollCleared (pollDelivered t))) :=
  have hdelivered := iterate_snoc h (perform_pstep_deliver hdeliver hfits)
  have hcleared := iterate_snoc hdelivered (perform_pstep_clear rfl)
  ⟨hcleared, iterate_snoc hcleared (perform_pstep_reset rfl)⟩

/-! ### What the answer leaves -/

theorem pollAnswered_outFrames (s : State) : (pollAnswered s).outFrames = s.outFrames := pollRelease_outFrames (quiet s)

theorem byteAt_frmb_pollAnswered (s : State) (i : Nat) : (pollAnswered s).byteAt .frmb i = s.byteAt .frmb i :=
  byteAt_congr (sp := .frmb) (pollRelease_frmb (quiet s)) (pollRelease_epoch (quiet s)) i

/-- The release leaves `fb_len` and the ring alone, whatever the policy. -/
theorem pollAnswered_keeps (s : State) :
    (pollAnswered s).r.fbLen = s.r.fbLen ∧ (pollAnswered s).ringContents = s.ringContents := by
  unfold pollAnswered
  cases hpolicy : s.build.policy with
  | timeout =>
    rw [pollRelease_of_timeout (s := quiet s) hpolicy]
    exact ⟨rfl, rfl⟩
  | idle =>
    rw [pollRelease_of_idle (s := quiet s) hpolicy]
    exact ⟨rfl, rfl⟩
  | ring =>
    rw [pollRelease_of_ring (s := quiet s) hpolicy]
    exact ⟨rfl, rfl⟩

/-- Under `TIMEOUT` the engine is armed again at offset 0 and the boundary is withdrawn. -/
theorem pollAnswered_of_timeout (hpolicy : s.build.policy = .timeout) :
    (pollAnswered s).w.ceArmed = true ∧ (pollAnswered s).w.cePtr = 0 ∧ (pollAnswered s).r.toReady = false := by
  unfold pollAnswered
  rw [pollRelease_of_timeout (s := quiet s) hpolicy]
  exact ⟨rfl, rfl, rfl⟩

theorem byteAt_frmb_pollCleared {i : Nat} (hi : i < s.build.fb) : (pollCleared s).byteAt .frmb i = 0 :=
  byteAt_memFill s .frmb 0 i hi

end Sys2Proof.Machine
end

section
/-! PROOFS. A whole poll, from the accepted `POLL` to its answer (spec/43_consumer.md R220 to R230). -/

namespace Sys2Proof.Machine

variable {s v : State}

/-- Once it has taken as many bytes as the poll found the drain has none left. -/
theorem DrainRun.done (h : DrainRun (pollCount s).toNat (pollAccepted s) v) : v.r.pIdx = v.r.pCount := by
  refine BitVec.eq_of_toNat_eq ?_
  rw [h.index, h.pCount]
  exact Nat.zero_add _

/-- The frame in `FRMB` is then what the poll found. -/
theorem DrainRun.span_frmb (h : DrainRun (pollCount s).toNat (pollAccepted s) v) :
    v.span .frmb v.r.pCount.toNat = pollBytes s := by
  rw [← pollFrame_of_done h.done, h.frame, pollFrame_pollAccepted]

/-- Under `RING` the drain has removed what the consumer saw; the other policies leave the ring alone. -/
theorem DrainRun.ringContents (h : DrainRun (pollCount s).toNat (pollAccepted s) v) :
    v.ringContents = if s.build.policy = .ring then s.ringContents.drop s.lenR else s.ringContents := by
  rw [h.ring, ringContents_pollAccepted]
  by_cases hpolicy : s.build.policy = .ring
  · rw [if_pos hpolicy, ← pollCount_of_ring hpolicy]
    exact if_pos hpolicy
  · rw [if_neg hpolicy]
    exact if_neg hpolicy

/-- Settles O45: the bytes drained, the drain ended, the frame delivered, `FRMB` cleared, the `POLL` answered. -/
theorem pollRunDeliversTheBytes : Obligations.PollRunDeliversTheBytes := by
  intro s hinv hidle hready
  have hpoll := exec_poll_accepted hidle hready
  obtain ⟨v, hv, hrun⟩ := iterate_drain (s := pollAccepted s) (pollCount s).toNat (exec_keeps_inv hinv hpoll) rfl
    (Nat.zero_add _).le
  obtain ⟨⟨-, hfits⟩, -⟩ := hrun.inv.consumer
  have hbuild : v.build = s.build := hrun.build
  have hend := iterate_snoc hv (perform_pstep_end hrun.pStep (by rw [hrun.done]; exact lt_irrefl _))
  obtain ⟨hu, ht⟩ := iterate_pstep_answer hend rfl hfits
  obtain ⟨hempty, hring⟩ := pollAnswered_keeps (pollCleared (pollDelivered (pollEnded v)))
  rw [pollBytes_length hinv]
  refine ⟨_, _, _, hpoll, rfl, hu, rfl, ht, rfl, ?_, ?_, hempty, fun i hi => ?_, hring.trans hrun.ringContents,
    fun hpolicy => pollAnswered_of_timeout (congrArg Build.policy hbuild |>.trans hpolicy)⟩
  · have hframe : (pollEnded v).span .frmb v.r.pCount.toNat = pollBytes s := hrun.span_frmb
    rw [pollAnswered_outFrames, ← hframe, ← show v.outFrames = s.outFrames from hrun.trace]
    rfl
  · exact congrArg (fun n => some (Response.mk .ok n)) hrun.pCount
  · rw [byteAt_frmb_pollAnswered]
    exact byteAt_frmb_pollCleared (lt_of_lt_of_eq hi (congrArg Build.fb hbuild).symm)

end Sys2Proof.Machine
end

section
/-! PROOFS. The gray code laws (spec/44_arithmetic_and_sequencing.md R242): encoding undoes decoding, and the pointer one ring
length on, which is told from the gray images by their top two bits. -/

namespace Sys2Proof.Machine

/-! ### Decoding -/

/-- The decoding of a difference is the difference of the decodings. -/
theorem g2b_xor (x y : Ptr) : g2b x ^^^ g2b y = g2b (x ^^^ y) := by
  simp only [g2b, BitVec.ushiftRight_xor_distrib]
  ac_rfl

theorem g2b_ushiftRight (g : Ptr) : g2b (g >>> 1) = g2b g >>> 1 := by
  simp only [g2b, BitVec.ushiftRight_xor_distrib, ← BitVec.shiftRight_add, Nat.add_comm]

/-- Encoding undoes decoding: the two are linear and agree with the shift, so they commute (spec/10_state.md R41). -/
theorem b2g_g2b (g : Ptr) : b2g (g2b g) = g := by
  calc b2g (g2b g) = g2b g ^^^ g2b (g >>> 1) := by rw [b2g, g2b_ushiftRight]
    _ = g2b (b2g g) := g2b_xor g (g >>> 1)
    _ = g := g2b_b2g g

theorem g2b_eq_iff {g p : Ptr} : g2b g = p ↔ g = b2g p :=
  ⟨fun h => by rw [← h, b2g_g2b], fun h => by rw [h, g2b_b2g]⟩

/-! ### One ring length on -/

/-- The pointer `C` places on, halfway around the circle: the same index of the ring, one lap apart. -/
def ptrAcross (b : Build) (p : Ptr) : Ptr := BitVec.ofNat 8 ((p.toNat + b.c) % b.modulus)

theorem ptrAcross_toNat (b : Build) {p : Ptr} (hp : p.toNat < b.modulus) :
    (ptrAcross b p).toNat = if p.toNat < b.c then p.toNat + b.c else p.toNat - b.c := by
  have hmod := Build.modulus_eq b
  have hmax := Build.modulus_bounds b
  have hsum : (p.toNat + b.c) % b.modulus = if p.toNat < b.c then p.toNat + b.c else p.toNat - b.c := by
    split
    · exact Nat.mod_eq_of_lt (by omega)
    · rw [Nat.mod_eq_sub_mod (by omega), Nat.mod_eq_of_lt (by omega)]
      omega
  rw [ptrAcross, hsum, BitVec.toNat_ofNat, Nat.mod_eq_of_lt (by split <;> omega)]

/-- Below `2^n`, adding `2^n` sets bit `n`. -/
theorem add_two_pow_eq_xor {n k : Nat} (hk : k < 2 ^ n) : k + 2 ^ n = k ^^^ 2 ^ n := by
  have hdivmod := Nat.div_add_mod (k ^^^ 2 ^ n) (2 ^ n)
  rw [Nat.xor_div_two_pow, Nat.xor_mod_two_pow, Nat.div_eq_of_lt hk, Nat.mod_eq_of_lt hk,
    Nat.div_self (Nat.two_pow_pos n), Nat.mod_self, Nat.zero_xor, Nat.xor_zero, Nat.mul_one, Nat.add_comm] at hdivmod
  exact hdivmod

/-- Adding `C` inverts the pointer's top bit. -/
theorem ptrAcross_eq_xor (b : Build) {p : Ptr} (hp : p.toNat < b.modulus) :
    ptrAcross b p = p ^^^ (1 : Ptr) <<< b.aw := by
  have hmod := Build.modulus_eq b
  have htop : ((1 : Ptr) <<< b.aw).toNat = b.c := by
    rw [BitVec.toNat_shiftLeft, show (1 : Ptr).toNat = 1 from rfl, Nat.one_shiftLeft]
    exact Nat.mod_eq_of_lt (lt_of_le_of_lt (Build.c_bounds b).2 (by decide))
  apply BitVec.eq_of_toNat_eq
  rw [BitVec.toNat_xor, htop, ptrAcross_toNat b hp]
  split
  next hlow => exact add_two_pow_eq_xor hlow
  next hhigh =>
    have hk : p.toNat - b.c < b.c := by omega
    have hbit : p.toNat - b.c + b.c = (p.toNat - b.c) ^^^ b.c := add_two_pow_eq_xor hk
    calc p.toNat - b.c = ((p.toNat - b.c) ^^^ b.c) ^^^ b.c := (Nat.xor_xor_cancel_right _ _).symm
      _ = p.toNat ^^^ b.c := by rw [← hbit, Nat.sub_add_cancel (not_lt.mp hhigh)]

/-- The gray image of the top bit of a pointer is the top two bits (spec/44_arithmetic_and_sequencing.md R242). -/
theorem b2g_topBit (b : Build) : b2g ((1 : Ptr) <<< b.aw) = (3 : Ptr) <<< (b.pw - 2) := by
  have hlow := b.aw_pos
  have hhigh := b.aw_le
  unfold Build.pw
  generalize b.aw = n at hlow hhigh
  interval_cases n <;> decide

theorem b2g_ptrAcross (b : Build) {p : Ptr} (hp : p.toNat < b.modulus) :
    b2g (ptrAcross b p) = b2g p ^^^ (3 : Ptr) <<< (b.pw - 2) := by
  rw [ptrAcross_eq_xor b hp, ← b2g_xor, b2g_topBit]

/-! ### Empty and full -/

theorem ptrDiff_eq_zero_iff (b : Build) {x y : Ptr} (hx : x.toNat < b.modulus) (hy : y.toNat < b.modulus) :
    ptrDiff b x y = 0 ↔ x = y := by
  rw [ptrDiff_of_lt b x y hx hy, ← BitVec.toNat_inj]
  split <;> omega

/-- One pointer is a ring length ahead of another exactly when it is the one across the circle. -/
theorem ptrDiff_eq_c_iff (b : Build) {x y : Ptr} (hx : x.toNat < b.modulus) (hy : y.toNat < b.modulus) :
    ptrDiff b x y = b.c ↔ x = ptrAcross b y := by
  have hmod := Build.modulus_eq b
  rw [ptrDiff_of_lt b x y hx hy, ← BitVec.toNat_inj, ptrAcross_toNat b hy]
  split_ifs <;> omega

/-- The gray-only test for empty (spec/44_arithmetic_and_sequencing.md R242). -/
theorem empty_iff_gray (b : Build) {p g : Ptr} (hp : p.toNat < b.modulus) (hg : g.toNat < b.modulus) :
    ptrDiff b (g2b g) p = 0 ↔ g = b2g p :=
  (ptrDiff_eq_zero_iff b (g2b_lt b hg) hp).trans g2b_eq_iff

/-- The gray-only test for full (spec/44_arithmetic_and_sequencing.md R242). -/
theorem full_iff_gray (b : Build) {p g : Ptr} (hp : p.toNat < b.modulus) (hg : g.toNat < b.modulus) :
    ptrDiff b p (g2b g) = b.c ↔ b2g p = g ^^^ (3 : Ptr) <<< (b.pw - 2) := by
  have hacross : b2g (ptrAcross b (g2b g)) = g ^^^ (3 : Ptr) <<< (b.pw - 2) := by
    rw [b2g_ptrAcross b (g2b_lt b hg), b2g_g2b]
  rw [ptrDiff_eq_c_iff b hp (g2b_lt b hg), ← hacross]
  exact ⟨congrArg b2g, fun h => by rw [← g2b_b2g p, h, g2b_b2g]⟩

/-- Settles O30: the laws one by one; the wrap is `oneBitApart_ptrNext`'s. -/
theorem grayCodeLaws : Obligations.GrayCodeLaws := fun b =>
  ⟨rfl, fun p hp => ⟨g2b_b2g p, b2g_g2b p, b2g_lt b hp, g2b_lt b hp, oneBitApart_ptrNext b hp, b2g_ptrAcross b hp⟩,
    fun _ _ hp hg => ⟨empty_iff_gray b hp hg, full_iff_gray b hp hg⟩⟩

end Sys2Proof.Machine
end

section
/-! PROOFS. The two transition tables (spec/44_arithmetic_and_sequencing.md R246): the rows of a running sequencer against its own
step, and the one command that starts an idle one. -/

namespace Sys2Proof.Machine

variable {e : Event} {s t : State}

/-! ### `h_step` -/

/-- Only `HSTEP` is in the rows of a running handler. -/
theorem nextHStep_of_other (hrun : s.w.hStep ≠ .idle) (hown : e ≠ .hstep) : nextHStep e s = s.w.hStep := by
  unfold nextHStep
  split
  next hidle => exact absurd hidle hrun
  next => exact absurd rfl hown
  next => exact absurd rfl hown
  next => exact absurd rfl hown
  next => rfl

/-- Only `IRQ` is in the rows of an idle handler. -/
theorem nextHStep_of_no_irq (hidle : s.w.hStep = .idle) (hirq : stepName e s ≠ some "IRQ") : nextHStep e s = .idle := by
  simp only [nextHStep, hidle]
  split
  next i htaken => simp [stepName, htaken, Instr.mnemonic] at hirq
  next => rfl

/-- The rows of an idle handler (spec/41_boundary_handler.md R151). -/
theorem execIrq_hStep {i : Nat} (hidle : s.w.hStep = .idle) (h : execIrq i s = .next t) :
    t.w.hStep =
      if i = s.build.inst.toNat ∧ s.build.policy ≠ .timeout ∧ s.w.irqPending = true then
        if s.build.policy = .idle ∧ s.slotOccW = true then .clear else .copy
      else .idle := by
  obtain ⟨hforeign, rfl⟩ | ⟨-, hnothing, rfl⟩ | ⟨hi, hpolicy, hpending, -, rfl⟩ := execIrq_cases h
  · rw [if_neg fun hserve => hforeign hserve.1]
    exact hidle
  · rw [if_neg fun hserve => by simp [hserve, hidle] at hnothing]
    exact hidle
  · rw [if_pos ⟨hi, hpolicy, hpending⟩]
    obtain ⟨hslot, hocc, hentry⟩ | ⟨hfree, hentry⟩ := boundaryEntry_cases s
    · rw [hentry, if_pos ⟨hslot, hocc⟩]; rfl
    · rw [hentry, if_neg hfree]; rfl

/-- The rows of a running handler: the copy goes on while bytes are left, then comes the clear, the re-arming and the end
(spec/41_boundary_handler.md R152 to R158). -/
theorem hstep_follows_table (hinv : s.Inv) (h : hstep s = .next t) : t.w.hStep = nextHStep .hstep s := by
  obtain ⟨hidle, rfl⟩ | ⟨hcopy, hpolicy, -⟩ | ⟨hcopy, -, hring⟩ | ⟨hcopy, -, hslot⟩ | ⟨hclear, rfl⟩ | ⟨hrearm, rfl⟩ :=
    hstep_cases h
  · rw [nextHStep_of_no_irq hidle (by simp [stepName, takenCommand, takenWord]), hidle]
  · have hnone := (no_boundary_of_timeout hinv.capture hpolicy).2
    rw [hcopy] at hnone
    cases hnone
  · simp only [nextHStep, hcopy]
    obtain ⟨hleft, -, -, rfl⟩ | ⟨hleft, -, rfl⟩ | ⟨hdone, rfl⟩ := handlerCopyRing_cases hring
    · rw [if_pos hleft]; exact hcopy
    · rw [if_pos hleft]; exact hcopy
    · rw [if_neg (not_lt.mpr hdone)]
  · simp only [nextHStep, hcopy]
    obtain ⟨hleft, -, rfl⟩ | ⟨hdone, rfl⟩ := handlerCopyIdle_cases hslot
    · rw [if_pos hleft]; exact hcopy
    · rw [if_neg (not_lt.mpr hdone)]
  · simp only [nextHStep, hclear]
  · simp only [nextHStep, hrearm, boundaryReturn_w]

/-- The complete table of `h_step`. -/
theorem perform_follows_hTable (hinv : s.Inv) (hreset : e ≠ .reset) (h : perform e s = .next t) :
    t.w.hStep = nextHStep e s := by
  by_cases hown : e = .hstep
  · subst hown
    exact hstep_follows_table (s := quiet s) (hinv.queued s.rWait) h
  by_cases hidle : s.w.hStep = .idle
  · by_cases hirq : stepName e s = some "IRQ"
    · obtain ⟨i, htaken⟩ := takenCommand_of_name_irq hirq
      obtain ⟨ws, hexec⟩ := exec_of_takenCommand htaken h
      simp only [nextHStep, hidle, htaken]
      exact execIrq_hStep (s := queued s ws) hidle hexec
    · obtain ⟨-, -, -, -, -, -, hmoves, -⟩ := wRegistersHaveTheirWriters e s t hreset h
      rw [nextHStep_of_no_irq hidle hirq, ← hidle]
      refine by_contra fun hne => ?_
      obtain hname | hname := List.mem_pair.mp (hmoves hne)
      · exact hirq hname
      · exact hown (event_of_name_hstep hname)
  · rw [nextHStep_of_other hidle hown]
    exact (perform_sameHandler hidle hown hreset h).1

/-! ### `p_step` -/

/-- Only `PSTEP` is in the rows of a running poll. -/
theorem nextPStep_of_other (hrun : s.r.pStep ≠ .idle) (hown : e ≠ .pstep) : nextPStep e s = s.r.pStep := by
  unfold nextPStep
  split
  next hidle => exact absurd hidle hrun
  next => exact absurd rfl hown
  next => exact absurd rfl hown
  next => exact absurd rfl hown
  next => exact absurd rfl hown
  next => rfl

/-- Only `POLL` is in the rows of an idle poll. -/
theorem nextPStep_of_no_poll (hidle : s.r.pStep = .idle) (hpoll : stepName e s ≠ some "POLL") : nextPStep e s = .idle := by
  simp only [nextPStep, hidle]
  exact if_neg fun ⟨htaken, _⟩ => hpoll (by simp [stepName, htaken, Instr.mnemonic])

/-- The rows of an idle poll (spec/43_consumer.md R221). -/
theorem execPoll_pStep (hidle : s.r.pStep = .idle) (h : exec .poll s = .next t) :
    t.r.pStep = if pollReady s = true then .copy else .idle := by
  split
  next hready => rw [exec_poll_accepted hidle hready] at h; cases h; rfl
  next hnot => rw [exec_poll_declined hidle hnot] at h; cases h; exact hidle

/-- The rows of a running poll: the drain goes on while bytes are left, then come delivery, clear and answer
(spec/43_consumer.md R223 to R229). -/
theorem pstep_follows_table (h : pstep s = .next t) : t.r.pStep = nextPStep .pstep s := by
  obtain ⟨hidle, rfl⟩ | ⟨hcopy, hdrain⟩ | ⟨hdeliver, hout⟩ | ⟨hclear, rfl⟩ | ⟨hreset, rfl⟩ := pstep_cases h
  · rw [nextPStep_of_no_poll hidle (by simp [stepName, takenCommand, takenWord]), hidle]
  · simp only [nextPStep, hcopy]
    obtain ⟨hleft, -, -, rfl⟩ | ⟨hleft, -, -, sp, -, rfl⟩ | ⟨hdone, rfl⟩ := pollCopy_cases hdrain
    · rw [if_pos hleft]; exact hcopy
    · rw [if_pos hleft]; exact hcopy
    · rw [if_neg (not_lt.mpr hdone)]
  · obtain ⟨-, rfl⟩ := pollDeliver_cases hout
    simp only [nextPStep, hdeliver]
  · simp only [nextPStep, hclear]
  · simp only [nextPStep, hreset]

/-- The complete table of `p_step`. -/
theorem perform_follows_pTable (hreset : e ≠ .reset) (h : perform e s = .next t) : t.r.pStep = nextPStep e s := by
  by_cases hown : e = .pstep
  · subst hown
    exact pstep_follows_table (s := quiet s) h
  by_cases hidle : s.r.pStep = .idle
  · by_cases hpoll : stepName e s = some "POLL"
    · have htaken := takenCommand_of_name_poll hpoll
      obtain ⟨ws, hexec⟩ := exec_of_takenCommand htaken h
      simp only [nextPStep, hidle, htaken, true_and]
      exact execPoll_pStep (s := queued s ws) hidle hexec
    · obtain ⟨-, -, -, hmoves, -⟩ := rRegistersHaveTheirWriters e s t hreset h
      rw [nextPStep_of_no_poll hidle hpoll, ← hidle]
      refine by_contra fun hne => ?_
      obtain hname | hname := List.mem_pair.mp (hmoves (.inl hne))
      · exact hpoll hname
      · exact hown (event_of_name_pstep hname)
  · rw [nextPStep_of_other hidle hown]
    exact (perform_samePoll hidle hown hreset h).1

/-- Settles O48: one table for each sequencer. -/
theorem sequencersFollowTheTables : Obligations.SequencersFollowTheTables := fun _ _ _ hinv hreset h =>
  ⟨perform_follows_hTable hinv hreset h, perform_follows_pTable hreset h⟩

end Sys2Proof.Machine
end

section
/-! PROOFS. No step stops, and every drop has its cause (spec/10_state.md R46, spec/60_exceptions.md R251 to R254, R257): the
branches of the few steps that write a counter. -/

namespace Sys2Proof.Machine

variable {e : Event} {s t : State}

/-- Settles O33: drawing the next event keeps the invariant, so the machine's step completes as every event does. -/
theorem noStepStops : Obligations.NoStepStops := fun _ h =>
  ⟨perform_completes h, exec_completes h, perform_completes h.drawEvent _⟩

/-! ### The commands behind the names -/

/-- The names of the steps that execute no command (spec/30_encoding.md R103). -/
def autonomousNames : List String := ["HSTEP", "PSTEP", "SYNC_W", "SYNC_R", "RESET"]

/-- A step of any other name executes the command of that name. -/
theorem exec_of_name {n : String} (hname : stepName e s = some n) (hcommand : n ∉ autonomousNames)
    (h : perform e s = .next t) :
    ∃ i ws, takenCommand e s = some i ∧ i.mnemonic = n ∧ exec i (queued s ws) = .next t := by
  cases htaken : takenCommand e s with
  | some i =>
    obtain ⟨ws, hexec⟩ := exec_of_takenCommand htaken h
    simp only [stepName, htaken, Option.some.injEq] at hname
    exact ⟨i, ws, rfl, hname, hexec⟩
  | none =>
    refine absurd ?_ hcommand
    cases e <;> simp [stepName, htaken] at hname <;> simp [← hname, autonomousNames]

/-! ### The steps that count a drop -/

/-- A line byte is dropped by a halted engine or a full buffer (spec/60_exceptions.md R252). -/
theorem execRxbyte_drops {b : Byte} (hinv : captureOrdered s) (h : execRxbyte b s = .next t)
    (hne : t.w.dropLineCnt ≠ s.w.dropLineCnt) : s.w.ceArmed = false ∨ s.w.cePtr = s.w.ceLen := by
  obtain ⟨⟨hptr, -⟩, -⟩ := hinv
  obtain ⟨-, -, rfl⟩ | ⟨hrefused, -⟩ := execRxbyte_cases h
  · exact absurd rfl hne
  · by_cases harmed : s.w.ceArmed = true
    · have hfull : ¬ s.w.cePtr.toNat < s.w.ceLen.toNat := fun hroom => hrefused ⟨harmed, hroom⟩
      exact .inr (BitVec.eq_of_toNat_eq (le_antisymm hptr (not_lt.mp hfull)))
    · exact .inl (Bool.eq_false_iff.mpr harmed)

/-- A pushed byte is dropped by a full ring (spec/60_exceptions.md R251). -/
theorem execPush_drops {b : Byte} (h : execPush b s = .next t) (hne : t.w.dropRingCnt ≠ s.w.dropRingCnt) :
    s.lenW = s.build.c := by
  obtain ⟨-, rfl⟩ | ⟨-, hfull, -⟩ | ⟨-, -, rfl⟩ := execPush_cases h
  · exact absurd rfl hne
  · exact hfull
  · exact absurd rfl hne

/-- The handler drops the rest of its frame only at a full ring (spec/60_exceptions.md R251). -/
theorem hstep_drops (hinv : s.Inv) (h : hstep s = .next t) (hne : t.w.dropRingCnt ≠ s.w.dropRingCnt) :
    s.lenW = s.build.c := by
  obtain ⟨-, rfl⟩ | ⟨-, -, rfl⟩ | ⟨-, -, hring⟩ | ⟨-, -, hslot⟩ | ⟨-, rfl⟩ | ⟨-, rfl⟩ := hstep_cases h
  · exact absurd rfl hne
  · exact absurd rfl hne
  · obtain ⟨-, -, -, rfl⟩ | ⟨-, hfull, -⟩ | ⟨-, rfl⟩ := handlerCopyRing_cases hring
    · exact absurd rfl hne
    · exact le_antisymm (lenW_le hinv.pointers hinv.ring) hfull
    · exact absurd rfl hne
  · obtain ⟨-, -, rfl⟩ | ⟨-, rfl⟩ := handlerCopyIdle_cases hslot <;> exact absurd rfl hne
  · exact absurd rfl hne
  · exact absurd rfl hne

/-- `IRQ` drops a frame at an occupied slot, and counts a foreign instance (spec/60_exceptions.md R253, R254). -/
theorem execIrq_drops {i : Nat} (h : execIrq i s = .next t) :
    (t.w.dropSlotCnt ≠ s.w.dropSlotCnt →
      i = s.build.inst.toNat ∧ s.build.policy = .idle ∧ s.w.irqPending = true ∧ s.w.hStep = .idle ∧ s.slotOccW = true) ∧
    (t.w.spurCnt ≠ s.w.spurCnt → i ≠ s.build.inst.toNat) := by
  obtain ⟨hforeign, rfl⟩ | ⟨-, -, rfl⟩ | ⟨hi, -, hpending, hidle, rfl⟩ := execIrq_cases h
  · exact ⟨fun hne => absurd rfl hne, fun _ => hforeign⟩
  · exact ⟨fun hne => absurd rfl hne, fun hne => absurd rfl hne⟩
  · obtain ⟨hpolicy, hocc, hentry⟩ | ⟨-, hentry⟩ := boundaryEntry_cases s <;> rw [hentry]
    · exact ⟨fun _ => ⟨hi, hpolicy, hpending, hidle, hocc⟩, fun hne => absurd rfl hne⟩
    · exact ⟨fun hne => absurd rfl hne, fun hne => absurd rfl hne⟩

/-- Settles O53: the written-by column names the steps that can move each counter, and their branches the cause. -/
theorem dropsHaveTheirCause : Obligations.DropsHaveTheirCause := by
  intro e s t hinv hreset h
  obtain ⟨-, -, -, -, -, -, -, -, -, -, -, -, -, -, hring, hline, hslot, hspur, -⟩ :=
    wRegistersHaveTheirWriters e s t hreset h
  refine ⟨fun hne => ?_, fun hne => ?_, fun hne => ?_, fun hne => ?_⟩
  · have hname := hline (.inr hne)
    obtain ⟨i, ws, -, hi, hexec⟩ := exec_of_name hname (by decide) h
    cases i with
    | rxbyte b => exact ⟨hname, execRxbyte_drops (s := queued s ws) hinv.capture hexec hne⟩
    | _ => simp [Instr.mnemonic] at hi
  · obtain ⟨i, htaken⟩ := takenCommand_of_name_irq (hslot (.inr hne)).1
    obtain ⟨ws, hexec⟩ := exec_of_takenCommand htaken h
    obtain ⟨rfl, hcause⟩ := (execIrq_drops (s := queued s ws) hexec).1 hne
    exact ⟨htaken, hcause⟩
  · have hname := hring (.inr hne)
    refine ⟨hname, ?_⟩
    obtain hpush | ⟨hhandler, -⟩ := hname
    · obtain ⟨i, ws, -, hi, hexec⟩ := exec_of_name hpush (by decide) h
      cases i with
      | push b => exact execPush_drops (s := queued s ws) hexec hne
      | _ => simp [Instr.mnemonic] at hi
    · obtain rfl := event_of_name_hstep hhandler
      exact hstep_drops (s := quiet s) (hinv.queued s.rWait) h hne
  · obtain ⟨i, htaken⟩ := takenCommand_of_name_irq (hspur (.inr hne))
    obtain ⟨ws, hexec⟩ := exec_of_takenCommand htaken h
    exact ⟨i, htaken, (execIrq_drops (s := queued s ws) hexec).2 hne⟩

end Sys2Proof.Machine
end

section
/-! PROOFS. Boundaries have their causes (spec/60_exceptions.md R260, spec/43_consumer.md R222, R229, spec/10_state.md R38): the
branches of the commands that write `irq_pending`, and of the two steps that write `to_ready`. -/

namespace Sys2Proof.Machine

variable {e : Event} {s t : State}

/-! ### The boundary interrupt -/

/-- The commands that can write `irq_pending` (spec/10_state.md R48). -/
theorem mnemonic_of_irqPending {i : Instr} (h : exec i s = .next t) (hne : t.w.irqPending ≠ s.w.irqPending) :
    some i.mnemonic ∈ [some "RXBYTE", some "RXIDLE", some "IRQ", some "ARM", some "STOP"] := by
  obtain ⟨-, -, -, -, -, hwriters, -⟩ := exec_wWrittenBy False h
  exact hwriters hne

/-- A step that writes `irq_pending` executes a command, reset apart. -/
theorem exec_of_irqPending (hreset : e ≠ .reset) (h : perform e s = .next t) (hne : t.w.irqPending ≠ s.w.irqPending) :
    ∃ i ws, takenCommand e s = some i ∧ exec i (queued s ws) = .next t := by
  obtain ⟨-, -, -, -, -, hwriters, -⟩ := wRegistersHaveTheirWriters e s t hreset h
  have hname := hwriters hne
  simp only [List.mem_cons, List.not_mem_nil, or_false] at hname
  obtain hn | hn | hn | hn | hn := hname
  all_goals
    obtain ⟨i, ws, htaken, -, hexec⟩ := exec_of_name hn (by decide) h
    exact ⟨i, ws, htaken, hexec⟩

/-- A command raises the boundary interrupt by the idle signal or by filling the buffer (spec/60_exceptions.md R260). -/
theorem exec_raises_irqPending {i : Instr} (h : exec i s = .next t) (hno : s.w.irqPending = false)
    (hyes : t.w.irqPending = true) :
    s.build.policy ≠ .timeout ∧ s.w.ceArmed = true ∧
      ((i = .rxidle ∧ 0 < s.w.cePtr.toNat) ∨ (i.mnemonic = "RXBYTE" ∧ s.w.cePtr.toNat + 1 = s.w.ceLen.toNat)) := by
  have hsame : s.w.irqPending ≠ true := by simp [hno]
  have hwriter := mnemonic_of_irqPending h (by simp [hno, hyes])
  cases i with
  | rxbyte b =>
    obtain ⟨⟨harmed, -⟩, -, rfl⟩ | ⟨-, rfl⟩ := execRxbyte_cases h
    · simp only [hno, Bool.false_or, Bool.and_eq_true, decide_eq_true_eq] at hyes
      obtain ⟨hpolicy, hfull⟩ := hyes
      exact ⟨hpolicy, harmed, .inr ⟨rfl, hfull⟩⟩
    · exact absurd hyes hsame
  | rxidle =>
    obtain ⟨⟨hpolicy, harmed, hsome⟩, -⟩ | ⟨-, rfl⟩ := execRxidle_cases h
    · exact ⟨hpolicy, harmed, .inl ⟨rfl, hsome⟩⟩
    · exact absurd hyes hsame
  | irq k =>
    obtain ⟨-, rfl⟩ | ⟨-, -, rfl⟩ | ⟨-, -, -, -, rfl⟩ := execIrq_cases h
    · exact absurd hyes hsame
    · exact absurd hyes hsame
    · obtain ⟨-, -, hentry⟩ | ⟨-, hentry⟩ := boundaryEntry_cases s <;> simp [hentry] at hyes
  | arm n =>
    obtain ⟨-, rfl⟩ | ⟨-, rfl⟩ := execArm_cases h
    · cases hyes
    · exact absurd hyes hsame
  | stop =>
    obtain ⟨-, rfl⟩ | ⟨-, rfl⟩ := execStop_cases h
    · cases hyes
    · exact absurd hyes hsame
  | nop _ | tick | push _ | poll | pop | len => simp [Instr.mnemonic] at hwriter

/-- A command withdraws the boundary interrupt by entering the handler, by arming or by stopping the engine
(spec/60_exceptions.md R260). -/
theorem exec_withdraws_irqPending {i : Instr} (h : exec i s = .next t) (hyes : s.w.irqPending = true)
    (hno : t.w.irqPending = false) :
    (i = .irq s.build.inst.toNat ∧ s.w.hStep = .idle ∧ t.w.hStep ≠ .idle) ∨ i.mnemonic = "ARM" ∨ i.mnemonic = "STOP" := by
  have hsame : s.w.irqPending ≠ false := by simp [hyes]
  have hwriter := mnemonic_of_irqPending h (by simp [hno, hyes])
  cases i with
  | rxbyte b =>
    obtain ⟨-, -, rfl⟩ | ⟨-, rfl⟩ := execRxbyte_cases h
    · simp [hyes] at hno
    · exact absurd hno hsame
  | rxidle =>
    obtain ⟨-, rfl⟩ | ⟨-, rfl⟩ := execRxidle_cases h
    · cases hno
    · exact absurd hno hsame
  | irq k =>
    obtain ⟨-, rfl⟩ | ⟨-, -, rfl⟩ | ⟨rfl, -, -, hidle, rfl⟩ := execIrq_cases h
    · exact absurd hno hsame
    · exact absurd hno hsame
    · obtain ⟨-, -, hentry⟩ | ⟨-, hentry⟩ := boundaryEntry_cases s <;> exact .inl ⟨rfl, hidle, by simp [hentry]⟩
  | arm n => exact .inr (.inl rfl)
  | stop => exact .inr (.inr rfl)
  | nop _ | tick | push _ | poll | pop | len => simp [Instr.mnemonic] at hwriter

/-! ### The timeout boundary -/

/-- The timeout policy's test in the words of its rule (spec/43_consumer.md R221). -/
theorem timedOut_iff : s.timedOut = true ↔
    s.w.ceArmed = true ∧ 0 < s.w.cePtr.toNat ∧ s.build.t < (s.w.now - s.w.lastTime).toNat := by
  simp only [State.timedOut, Bool.and_eq_true, decide_eq_true_eq, and_assoc]
  rfl

/-- `POLL` writes `to_ready` only where it declares a timeout (spec/43_consumer.md R221, R222). -/
theorem execPoll_toReady (h : execPoll s = .next t) :
    t.r.toReady = s.r.toReady ∨ (s.build.policy = .timeout ∧ s.timedOut = true) := by
  obtain ⟨-, rfl⟩ | ⟨-, ⟨hpolicy, hout, -⟩ | ⟨-, -, rfl⟩ | ⟨-, -, rfl⟩ | ⟨-, -, -, rfl⟩⟩ := execPoll_cases h
  · exact .inl rfl
  · exact .inr ⟨hpolicy, hout⟩
  · exact .inl rfl
  · exact .inl rfl
  · exact .inl rfl

/-- `PSTEP` writes `to_ready` only in `P_RESET` under `TIMEOUT`, where it withdraws it (spec/43_consumer.md R229). -/
theorem pstep_toReady (h : pstep s = .next t) :
    t.r.toReady = s.r.toReady ∨ (s.r.pStep = .reset ∧ s.build.policy = .timeout ∧ t.r.toReady = false) := by
  obtain ⟨-, rfl⟩ | ⟨-, hcopy⟩ | ⟨-, hdeliver⟩ | ⟨-, rfl⟩ | ⟨hreset, rfl⟩ := pstep_cases h
  · exact .inl rfl
  · obtain ⟨-, -, -, rfl⟩ | ⟨-, -, -, sp, -, rfl⟩ | ⟨-, rfl⟩ := pollCopy_cases hcopy <;> exact .inl rfl
  · obtain ⟨-, rfl⟩ := pollDeliver_cases hdeliver
    exact .inl rfl
  · exact .inl rfl
  · unfold pollRelease
    split
    case h_1 hpolicy => exact .inr ⟨hreset, hpolicy, rfl⟩
    case h_2 => exact .inl rfl
    case h_3 => exact .inl rfl

/-- A step that writes `to_ready` is a `POLL` or the poll's own step, reset apart. -/
theorem writer_of_toReady (hreset : e ≠ .reset) (h : perform e s = .next t) (hne : t.r.toReady ≠ s.r.toReady) :
    (takenCommand e s = some .poll ∧ ∃ ws, execPoll (queued s ws) = .next t) ∨
      (e = .pstep ∧ pstep (quiet s) = .next t) := by
  obtain ⟨-, -, -, -, -, -, hwriters, -⟩ := rRegistersHaveTheirWriters e s t hreset h
  obtain hpoll | hpstep := List.mem_pair.mp (hwriters hne).1
  · have htaken := takenCommand_of_name_poll hpoll
    exact .inl ⟨htaken, exec_of_takenCommand htaken h⟩
  · obtain rfl := event_of_name_pstep hpstep
    exact .inr ⟨rfl, h⟩

/-- Settles O56: each change of the two bits traced to the step that writes it, and to that step's branch. -/
theorem boundariesHaveTheirCauses : Obligations.BoundariesHaveTheirCauses := by
  intro e s t hreset h
  refine ⟨fun hno hyes => ?_, fun hyes hno => ?_, fun hno hyes => ?_, fun hyes hno => ?_⟩
  · obtain ⟨i, ws, htaken, hexec⟩ := exec_of_irqPending hreset h (by simp [hno, hyes])
    simp only [htaken, stepName, Option.some.injEq]
    exact exec_raises_irqPending (s := queued s ws) hexec hno hyes
  · obtain ⟨i, ws, htaken, hexec⟩ := exec_of_irqPending hreset h (by simp [hno, hyes])
    simp only [htaken, stepName, Option.some.injEq]
    exact exec_withdraws_irqPending (s := queued s ws) hexec hyes hno
  · have hne : t.r.toReady ≠ s.r.toReady := by simp [hno, hyes]
    obtain ⟨htaken, ws, hpoll⟩ | ⟨-, hpstep⟩ := writer_of_toReady hreset h hne
    · obtain hkept | ⟨hpolicy, hout⟩ := execPoll_toReady hpoll
      · exact absurd hkept hne
      · exact ⟨htaken, hpolicy, timedOut_iff.mp hout⟩
    · obtain hkept | ⟨-, -, hwithdrawn⟩ := pstep_toReady hpstep
      · exact absurd hkept hne
      · simp [hyes] at hwithdrawn
  · have hne : t.r.toReady ≠ s.r.toReady := by simp [hno, hyes]
    obtain ⟨-, ws, hpoll⟩ | ⟨rfl, hpstep⟩ := writer_of_toReady hreset h hne
    · exact absurd ((execPoll_keeps_toReady (s := queued s ws) hyes hpoll).trans hyes.symm) hne
    · obtain hkept | ⟨hlast, hpolicy, -⟩ := pstep_toReady hpstep
      · exact absurd hkept hne
      · exact ⟨rfl, hlast, hpolicy⟩

end Sys2Proof.Machine
end

section
/-! PROOFS. Progress under a fair schedule (spec/70_reset_and_hazards.md R287, R296). The schedule's other steps leave a running
handler where it is and each `HSTEP` brings it nearer to its end, so a handler that never returned would descend for ever. -/

namespace Sys2Proof.Machine

variable {e : Event} {f : Nat → Event} {n : Nat} {s t : State}

/-! ### One step of a running handler -/

/-- The handler has returned and left the engine armed at offset 0 (spec/41_boundary_handler.md R161). -/
def returnedArmed (s : State) : Prop := s.w.hStep = .idle ∧ s.w.ceArmed = true ∧ s.w.cePtr = 0

/-- The step with which a running handler stops is its return. -/
theorem perform_returns_or_runs (hrun : s.w.hStep ≠ .idle) (hreset : e ≠ .reset) (h : perform e s = .next t) :
    returnedArmed t ∨ t.w.hStep ≠ .idle := by
  by_cases hend : t.w.hStep = .idle
  · obtain ⟨hends, -⟩ := everySequenceEndsArmed e s t hreset h
    obtain ⟨harmed, hptr, -⟩ := hends hrun hend
    exact .inl ⟨hend, harmed, hptr⟩
  · exact .inr hend

theorem perform_hstep_lowers_measure (hinv : s.Inv) (hrun : s.w.hStep ≠ .idle) (h : perform .hstep s = .next t) :
    handlerMeasure t < handlerMeasure s :=
  hstep_lowers_measure (s := quiet s) (hinv.queued s.rWait) hrun h

/-- No step takes a running handler farther from its end. -/
theorem handlerMeasure_le_of_perform (hinv : s.Inv) (hrun : s.w.hStep ≠ .idle) (hreset : e ≠ .reset)
    (h : perform e s = .next t) : handlerMeasure t ≤ handlerMeasure s := by
  by_cases hown : e = .hstep
  · subst hown
    exact (perform_hstep_lowers_measure hinv hrun h).le
  · exact (handlerMeasure_congr (perform_sameHandler hrun hown hreset h)).le

/-! ### The schedule -/

/-- The schedule's first `n` steps lead from `s` to `t`, where a handler runs. -/
structure HandlerRunsAt (f : Nat → Event) (s : State) (n : Nat) (t : State) : Prop where
  reached : runSchedule f n s = .next t
  inv : t.Inv
  running : t.w.hStep ≠ .idle

section NeverReturned

variable (hreset : ∀ n, f n ≠ .reset) (hnever : ¬ ∃ n t, runSchedule f n s = .next t ∧ returnedArmed t)

include hreset hnever

/-- The next step of the schedule completes, and the handler still runs. -/
theorem HandlerRunsAt.succ (h : HandlerRunsAt f s n t) : ∃ u, perform (f n) t = .next u ∧ HandlerRunsAt f s (n + 1) u := by
  obtain ⟨u, hstep⟩ := perform_completes h.inv (f n)
  have hreached : runSchedule f (n + 1) s = .next u := by rw [runSchedule, h.reached, andThen_next, hstep]
  have hinv : u.Inv := perform_keeps_inv h.inv hstep
  obtain hreturned | hrunning := perform_returns_or_runs h.running (hreset n) hstep
  · exact absurd ⟨n + 1, u, hreached, hreturned⟩ hnever
  · exact ⟨u, hstep, hreached, hinv, hrunning⟩

/-- A running handler loses nothing while it waits. -/
theorem HandlerRunsAt.add (k : Nat) (h : HandlerRunsAt f s n t) :
    ∃ u, HandlerRunsAt f s (n + k) u ∧ handlerMeasure u ≤ handlerMeasure t := by
  induction k with
  | zero => exact ⟨t, h, le_rfl⟩
  | succ k ih =>
    obtain ⟨u, hu, hle⟩ := ih
    obtain ⟨v, hstep, hv⟩ := hu.succ hreset hnever
    exact ⟨v, hv, (handlerMeasure_le_of_perform hu.inv hu.running (hreset (n + k)) hstep).trans hle⟩

/-- The next `HSTEP` of a fair schedule brings a running handler nearer to its end. -/
theorem HandlerRunsAt.nearer (hfair : FairSchedule f) (h : HandlerRunsAt f s n t) :
    ∃ m u, HandlerRunsAt f s m u ∧ handlerMeasure u < handlerMeasure t := by
  obtain ⟨⟨m, hlater, hown⟩, -⟩ := hfair n
  obtain ⟨k, rfl⟩ := Nat.exists_eq_add_of_le hlater
  obtain ⟨u, hu, hle⟩ := h.add hreset hnever k
  obtain ⟨v, hstep, hv⟩ := hu.succ hreset hnever
  rw [hown] at hstep
  exact ⟨n + k + 1, v, hv, (perform_hstep_lowers_measure hu.inv hu.running hstep).trans_le hle⟩

/-- The steps still needed cannot become fewer for ever. -/
theorem not_handlerRunsAt (hfair : FairSchedule f) : ¬ HandlerRunsAt f s n t := by
  induction hsteps : handlerMeasure t using Nat.strong_induction_on generalizing n t with
  | h steps ih =>
    intro h
    obtain ⟨m, u, hu, hless⟩ := h.nearer hreset hnever hfair
    exact ih (handlerMeasure u) (hsteps ▸ hless) rfl hu

end NeverReturned

/-- Settles O47: at the start the handler runs, which it could not if it never returned. -/
theorem fairScheduleEndsTheHandler : Obligations.FairScheduleEndsTheHandler := fun _ _ hfair hreset hinv hrun =>
  by_contra fun hnever => not_handlerRunsAt (n := 0) hreset hnever hfair ⟨rfl, hinv, hrun⟩

end Sys2Proof.Machine
end

section
/-! PROOFS. What RESET leaves (spec/70_reset_and_hazards.md R280): empty views and unspecified memories. -/

namespace Sys2Proof.Machine

/-- Equal pointers at 0 and a gray image of 0 show each side an empty ring. -/
theorem views_resetStep (s : State) : (resetStep s).lenTrue = 0 ∧ (resetStep s).lenW = 0 ∧ (resetStep s).lenR = 0 := by
  have hempty : ptrDiff s.build 0 0 = 0 := ptrDiff_self s.build 0 (Nat.two_pow_pos _)
  have hgray : g2b 0 = 0 := by decide
  refine ⟨hempty, ?_, ?_⟩
  · rw [State.lenW, resetStep_w, hgray]
    exact hempty
  · rw [State.lenR, resetStep_r, hgray]
    exact hempty

/-- No byte has been written since the reset (spec/70_reset_and_hazards.md R282). -/
theorem byteAt_resetStep (s : State) (sp : Space) (i : Nat) :
    (resetStep s).byteAt sp i = Config.unspecifiedByte (resetStep s).epoch sp i := by
  cases sp <;> rfl

theorem bdState_resetStep (s : State) : (resetStep s).bdState = .idle := by
  have hready : (resetStep s).readyTrue = false := readyTrue_resetOf s.build
  rw [State.bdState, hready]
  rfl

/-- Settles O28: the reset values of R48 are the registers' defaults. -/
theorem resetClearsEveryRegister : Obligations.ResetClearsEveryRegister := fun s => by
  obtain ⟨htrue, hw, hr⟩ := views_resetStep s
  exact ⟨resetStep s, rfl, rfl, rfl, rfl, rfl, rfl, rfl, rfl, rfl, rfl, byteAt_resetStep s, htrue, hw, hr, rfl, rfl, rfl,
    bdState_resetStep s⟩

end Sys2Proof.Machine
end
